-- ==== Sys2Proof/Word.lean ====
section
/-! DEFINITION. The word types of the FCB (spec/00_scope.md R9, R10): bytes, 32-bit words and byte strings. -/

namespace Sys2Proof

/-- A byte, an integer 0 to 255 (R9). -/
abbrev Byte := BitVec 8

/-- A 32-bit word: a command word, a data word, a register as CSRR reads it (R80, R23). -/
abbrev Word := BitVec 32

/-- A byte string (R10): the first byte is the head. -/
abbrev Bytes := List Byte

end Sys2Proof
end

