-- ==== Sys2Proof/Machine/Bytes.lean ====
section
/-! DEFINITION. Byte strings and byte order (spec/00_scope.md R9 to R11, spec/20_memory.md R63). -/

namespace Sys2Proof.Machine

/-- `zeros(n)` (R10). -/
def zeros (n : Nat) : Bytes := List.replicate n 0

/-- `pad_N(s) = s ‖ zeros(N - |s|)` (R10). -/
def pad (n : Nat) (s : Bytes) : Bytes := s ++ zeros (n - s.length)

/-- `s[a ..< b]` (R10): the bytes `a` to `b - 1`, empty when `b <= a`. -/
def slice (s : Bytes) (a b : Nat) : Bytes := (s.drop a).take (b - a)

/-- `s[i]` (R10), 0 past the end; every use is below the length. -/
def byteAt (s : Bytes) (i : Nat) : Byte := s.getD i 0

/-- `le16` (R11): the low byte first. -/
def le16 (v : BitVec 16) : Bytes := [v.extractLsb' 0 8, v.extractLsb' 8 8]

/-- `le32` (R11). -/
def le32 (v : BitVec 32) : Bytes :=
  [v.extractLsb' 0 8, v.extractLsb' 8 8, v.extractLsb' 16 8, v.extractLsb' 24 8]

/-- `un16` (R11): `s[0] + 256 * s[1]`. -/
def un16 (s : Bytes) : BitVec 16 := byteAt s 1 ++ byteAt s 0

/-- `un32` (R11): `s[0] + 256*s[1] + 65536*s[2] + 16777216*s[3]`. -/
def un32 (s : Bytes) : BitVec 32 := byteAt s 3 ++ byteAt s 2 ++ byteAt s 1 ++ byteAt s 0

/-- `ceil_div(a, b)` (R9), for `b > 0`. -/
def ceilDiv (a b : Nat) : Nat := (a + (b - 1)) / b

/-- `sat32(v + 1)` (R9, R44, R45): a 32-bit counter that stops at 4294967295. -/
def satSucc (v : BitVec 32) : BitVec 32 := BitVec.ofNat 32 (min (v.toNat + 1) 4294967295)

end Sys2Proof.Machine
end

