-- ==== Sys2Proof/Config.lean ====
section
/-! DEFINITION. What the spec leaves to the implementation or leaves open (spec/00_scope.md R5 to R7), as
constants without a value: no proof can know more of them than the bounds R6 states. -/

namespace Sys2Proof.Config

/-- `BUFCAP - 10000`, any value R6 admits. DESIGN CHOICE (log 1), safe. -/
opaque bufExtra : Fin 3987697

/-- `RXMAX - 68`, any value R6 admits. DESIGN CHOICE (log 1), safe. -/
opaque rxExtra : Fin 4194236

/-- The bytes of `TXCMD`, the open 3-byte transmit-mode command (R7, D26). DESIGN CHOICE (log 2), safe. -/
opaque txcmdByte : Fin 3 → Byte

/-- `SENT`, the open sentinel predicate on 64-byte payloads (R7, D27). DESIGN CHOICE (log 3), safe. -/
opaque sent : Bytes → Bool

/-- `BUFCAP`, capacity of SRC and of RSB: 10000 to 3997696 bytes (R6). -/
@[irreducible] def bufcap : Nat := bufExtra.val + 10000

/-- `RXMAX`, capacity of LIN: 68 to 4194303 bytes (R6). -/
@[irreducible] def rxmax : Nat := rxExtra.val + 68

/-- `TXCMD`, a sequence of exactly 3 bytes (R7). -/
def txcmd : Bytes := [txcmdByte 0, txcmdByte 1, txcmdByte 2]

/-- `FRAME`: bytes in every frame buffer (R5). -/
def frameLen : Nat := 64

/-- `CHUNK`: bytes of chunk data in an information packet (R5). -/
def chunkLen : Nat := 61

/-- The receive marker `#R` (R5). The ASCII codes are the spec's own general-knowledge passage (log 18). -/
def marker0 : Byte := 0x23

/-- Second byte of the receive marker (R5). -/
def marker1 : Byte := 0x52

end Sys2Proof.Config
end

