-- ==== Sys2Proof/Syntax.lean ====
section
/-! DEFINITION. The syntax of the FCB operation set 1.0 (spec/30_encoding.md R81 to R83): one constructor for each of
the 17 rows of spec/opcode_table.json, and the four memory spaces of spec/20_memory.md R60. -/

namespace Sys2Proof

/-- A memory space: the `sp` field of LDB and STB (R60). -/
inductive Space where
  | src
  | lin
  | rsb
  | fb
deriving DecidableEq, Repr

/-- An operation with its operands (R83). `ch` is a channel, `mt` a message-type byte, `csr` a register number
(listed or not: R171 refuses the others), `wdata` the whole data word of the command (R174 tests its upper bits). -/
inductive Instr where
  | nop
  | csrr (csr : BitVec 8)
  | csrw (csr : BitVec 8) (value : Word)
  | ldb (sp : Space) (addr : BitVec 22)
  | stb (sp : Space) (addr : BitVec 22) (wdata : Word)
  | srst
  | fenc (ch : BitVec 4)
  | ftx
  | fdec
  | henc (ch : BitVec 4) (mt : Byte)
  | hdec
  | ienc (ch : BitVec 4) (mt : Byte)
  | idec
  | sbeg (mt : Byte)
  | snxt (ch : BitVec 4)
  | rbeg
  | rpsh
deriving DecidableEq, Repr

end Sys2Proof
end

