-- ==== Sys2Proof/Machine/State.lean ====
section
/-! DEFINITION. The state of the FCB (spec/10_state.md R20 to R55) as plain data, the model's own interface fields
(the command port and the environment input of spec/00_scope.md R8, R13), and the reset state. -/

namespace Sys2Proof.Machine

/-- One memory space or buffer: the bytes that differ from what an unlisted address reads as (0, R55), addresses
strictly rising. -/
abbrev Memory := List Host.Cell

/-- The response codes of R180 and no other. -/
inductive Code where
  | ok
  | frameTooShort
  | payloadTooLarge
  | addressMismatch
  | unrecognizedMessageType
  | unrecognizedCommand
  | incompleteTransfer
  | imageSizeMismatch
  | truncatedWod
  | linkUnavailable
  | badMarker
  | illegalOp
  | rsvdNonzero
  | badCsr
  | readOnly
  | badAddr
  | badValue
  | noFrame
  | notActive
deriving DecidableEq, Repr

/-- A response: the code and 32 bits of data (R80). -/
structure Response where
  code : Code
  rdata : Word
deriving DecidableEq, Repr

/-- What the host or the environment presents to the block: one command with the value of `LINKUP` at that operation
(R13), or the reset event (R200). -/
inductive Input where
  | command (linkup : Bool) (cmd wdata : Word)
  | reset
deriving DecidableEq, Repr

/-- `RSTATE.PH` (R47): the phase of the tracker. -/
inductive Phase where
  | idle
  | active
  | ended
deriving DecidableEq, Repr

/-- `RSTATE.CAUSE` (R47): why the transfer ended. -/
inductive Cause where
  | none
  | terminal
  | short
  | sentinel
  | readCap
  | lenCap
deriving DecidableEq, Repr

/-- The state. The fields to `lout` are the elements of R20; the last three are the model's own (logs 5, 6, 7). -/
structure State where
  /-- CTRL, 0x00 (R24): bit 0 is `ENV`. -/
  ctrl : BitVec 1
  /-- STATUS bits 6:0, 0x01 (R25): the sticky flags; bits 19:16 are live views and not stored. -/
  sticky : BitVec 7
  /-- SRCLEN, 0x02 (R26). -/
  srclen : BitVec 22
  /-- LINLEN, 0x03 (R27). -/
  linlen : BitVec 22
  /-- TADDR, 0x04 (R28). -/
  taddr : BitVec 32
  /-- TCD, 0x05 (R29). -/
  tcd : BitVec 16
  /-- RXCH, 0x06 (R30). -/
  rxch : BitVec 4
  /-- TXCH, 0x07 (R31). -/
  txch : BitVec 4
  /-- RADDR, 0x08 (R32). -/
  raddr : BitVec 32
  /-- RMT, 0x09 (R33). -/
  rmt : BitVec 8
  /-- RCD, 0x0A (R34). -/
  rcd : BitVec 16
  /-- RPLEN, 0x0B (R35). -/
  rplen : BitVec 8
  /-- RRSSI, 0x0C (R36). -/
  rrssi : BitVec 8
  /-- SN, 0x10 (R37). -/
  sn : BitVec 17
  /-- SK, 0x11 (R38). -/
  sk : BitVec 17
  /-- SMT, 0x12 (R39). -/
  smt : BitVec 8
  /-- SLEN, 0x13 (R40). -/
  slen : BitVec 22
  /-- RCAP, 0x18 (R41). -/
  rcap : BitVec 16
  /-- RLENCAP, 0x19 (R42). -/
  rlencap : BitVec 22
  /-- RSLEN, 0x1A (R43). -/
  rslen : BitVec 22
  /-- RREADS, 0x1B (R44). -/
  rreads : BitVec 32
  /-- RPKTS, 0x1C (R45). -/
  rpkts : BitVec 32
  /-- RLAST, 0x1D (R46). -/
  rlast : BitVec 16
  /-- RSTATE.PH, 0x1E bits 1:0 (R47). -/
  phase : Phase
  /-- RSTATE.CAUSE, 0x1E bits 6:4 (R47). -/
  cause : Cause
  /-- TXFV (R20, R50). -/
  txfv : Bool
  /-- RXFV (R20, R51). -/
  rxfv : Bool
  /-- SRC, space 0 (R48). -/
  src : Memory
  /-- LIN, space 1 (R49). -/
  lin : Memory
  /-- RSB, space 2 (R52). -/
  rsb : Memory
  /-- TXF, space 3 addresses 0 to 63 (R50), at 0 to 63 here. -/
  txf : Memory
  /-- RXF, space 3 addresses 64 to 127 (R51), at 0 to 63 here. -/
  rxf : Memory
  /-- LOUT (R53): the writes handed to the link, oldest first. -/
  lout : List Bytes
  /-- `LINKUP` at the operation being performed (R8, R54). The model's own field (log 6). -/
  linkup : Bool
  /-- What was presented to the block and not yet taken, next first (R13, R200). The model's own field (log 5). -/
  inputs : List Input
  /-- The responses returned, oldest first (R13). The model's own field (log 7). -/
  responses : List Response
deriving DecidableEq, Repr

/-- The model's only stop. No outcome of the block stops it (R181): an error or a refusal of the spec is a response
and a next state. -/
inductive Fault where
  /-- Raised by an operation whose own access (not LDB's or STB's) would leave its memory space. R61 says those
  accesses are always in range; only a state that breaks R56 (8) reaches this. Safe (log 11). -/
  | outsideSpace
deriving DecidableEq, Repr

/-- Why the model would refuse to run an instruction. -/
inductive Refusal where
  /-- The instruction has no meaning in the model yet: raised by an arm of `exec`. No arm raises it. Safe. -/
  | notModelled (mnemonic : String)
deriving DecidableEq, Repr

/-- The reset state (R55, R201). `LINKUP` is the environment's: `true` here is a DESIGN CHOICE (log 6, unsafe). Nothing
is presented and nothing was answered (logs 5, 7). -/
def State.reset : State where
  ctrl := 1
  sticky := 0
  srclen := 0
  linlen := 0
  taddr := 0
  tcd := 0
  rxch := 0
  txch := 0
  raddr := 0
  rmt := 0
  rcd := 0
  rplen := 0
  rrssi := 0
  sn := 0
  sk := 0
  smt := 0
  slen := 0
  rcap := 10
  rlencap := BitVec.ofNat 22 Config.bufcap
  rslen := 0
  rreads := 0
  rpkts := 0
  rlast := 0
  phase := .idle
  cause := .none
  txfv := false
  rxfv := false
  src := []
  lin := []
  rsb := []
  txf := []
  rxf := []
  lout := []
  linkup := true
  inputs := []
  responses := []

end Sys2Proof.Machine
end

