-- ==== Sys2Proof/Machine/Flags.lean ====
section
/-! DEFINITION. The sticky flags, STATUS and RSTATE as words, and the numbers of the response codes
(spec/10_state.md R25, R47; spec/60_exceptions.md R180). -/

namespace Sys2Proof.Machine

/-- The sticky flags of STATUS (R25). -/
inductive Flag where
  | fts
  | ptl
  | ict
  | lna
  | bmk
  | rxx
  | ill
deriving DecidableEq, Repr

/-- The bit of a flag in STATUS (R25). -/
def Flag.bit : Flag → Nat
  | .fts => 0
  | .ptl => 1
  | .ict => 2
  | .lna => 3
  | .bmk => 4
  | .rxx => 5
  | .ill => 6

/-- The flag's bit as a mask over STATUS bits 6:0. -/
def Flag.mask (f : Flag) : BitVec 7 := BitVec.ofNat 7 (2 ^ f.bit)

/-- An operation sets a flag and never clears it (R25). -/
def State.setFlag (s : State) (f : Flag) : State := { s with sticky := s.sticky ||| f.mask }

/-- `CSRW STATUS, v` clears exactly the flags whose bit is 1 in `v[6:0]` and ignores `v[31:7]` (R25). This is what
stands in place of a return from an exception (R188). -/
def State.clearFlags (s : State) (v : Word) : State := { s with sticky := s.sticky &&& ~~~(v.extractLsb' 0 7) }

/-- Bit 0 of CTRL: a read from the link carries the envelope (R24). -/
def State.env (s : State) : Bool := s.ctrl.getLsbD 0

/-- `SACT`: a split is active, `SK < SN` (R25, R38). -/
def State.splitActive (s : State) : Bool := decide (s.sk.toNat < s.sn.toNat)

/-- STATUS as CSRR reads it (R25, R171): the sticky flags in bits 6:0, and the live views LINKUP, TXFV, RXFV, SACT in
bits 16 to 19; every other bit 0. -/
def State.status (s : State) : Word :=
  (0 : BitVec 12) ++ BitVec.ofBool s.splitActive ++ BitVec.ofBool s.rxfv ++ BitVec.ofBool s.txfv ++
    BitVec.ofBool s.linkup ++ (0 : BitVec 9) ++ s.sticky

/-- The two bits of `RSTATE.PH` (R47). -/
def Phase.bits : Phase → BitVec 2
  | .idle => 0
  | .active => 1
  | .ended => 2

/-- The three bits of `RSTATE.CAUSE` (R47). -/
def Cause.bits : Cause → BitVec 3
  | .none => 0
  | .terminal => 1
  | .short => 2
  | .sentinel => 3
  | .readCap => 4
  | .lenCap => 5

/-- RSTATE as a word (R47): PH in bits 1:0, CAUSE in bits 6:4. -/
def State.rstate (s : State) : Word := (0 : BitVec 25) ++ s.cause.bits ++ (0 : BitVec 2) ++ s.phase.bits

/-- The 8-bit number of a response code (R180). -/
def Code.num : Code → Byte
  | .ok => 0x00
  | .frameTooShort => 0x01
  | .payloadTooLarge => 0x02
  | .addressMismatch => 0x03
  | .unrecognizedMessageType => 0x04
  | .unrecognizedCommand => 0x05
  | .incompleteTransfer => 0x06
  | .imageSizeMismatch => 0x07
  | .truncatedWod => 0x08
  | .linkUnavailable => 0x09
  | .badMarker => 0x10
  | .illegalOp => 0x20
  | .rsvdNonzero => 0x21
  | .badCsr => 0x22
  | .readOnly => 0x23
  | .badAddr => 0x24
  | .badValue => 0x25
  | .noFrame => 0x26
  | .notActive => 0x27

/-- A refusal is a code of 0x20 or above (R14, R181). -/
def Code.isRefusal (c : Code) : Bool := decide (0x20 ≤ c.num.toNat)

/-- The sticky flag a code sets: the last column of R180's table. -/
def Code.flag : Code → Option Flag
  | .ok => none
  | .frameTooShort => some .fts
  | .payloadTooLarge => some .ptl
  | .addressMismatch => none
  | .unrecognizedMessageType => none
  | .unrecognizedCommand => none
  | .incompleteTransfer => some .ict
  | .imageSizeMismatch => none
  | .truncatedWod => none
  | .linkUnavailable => some .lna
  | .badMarker => some .bmk
  | .illegalOp => some .ill
  | .rsvdNonzero => some .ill
  | .badCsr => some .ill
  | .readOnly => some .ill
  | .badAddr => some .ill
  | .badValue => some .ill
  | .noFrame => some .ill
  | .notActive => some .ill

end Sys2Proof.Machine
end

