-- ==== Sys2Proof/Machine/Ops.lean ====
section
/-! DEFINITION. The named operations over memory (spec/20_memory.md), responding, and reporting an error or a refusal
(spec/00_scope.md R12, spec/60_exceptions.md R184, R187, R188), which is what this block has in place of taking an
exception. -/

namespace Sys2Proof.Machine

/-- The outcome of an operation on the block. -/
abbrev Result := Host.Outcome State Fault Refusal

/-! ### Memory -/

/-- What an address that nothing has written reads as: 0, the reset contents (R55). -/
def Memory.unlisted : Byte := 0

/-- The canonical form: addresses strictly rising, no entry equal to what an unlisted address reads as. -/
abbrev Memory.wf (m : Memory) : Prop := m.Pairwise (fun c d => c.1 < d.1) ∧ ∀ c ∈ m, c.2 ≠ Memory.unlisted

/-- The byte at an address (`MemRead` of one byte, R12). -/
def Memory.byte : Memory → Nat → Byte
  | [], _ => Memory.unlisted
  | c :: rest, a => if c.1 = a then c.2 else Memory.byte rest a

/-- Put an entry in front, unless it says what an unlisted address says. -/
def Memory.entry (a : Nat) (v : Byte) (m : Memory) : Memory := if v = Memory.unlisted then m else (a, v) :: m

/-- Write one byte (`MemWrite` of one byte, R12), keeping the canonical form. -/
def Memory.store : Memory → Nat → Byte → Memory
  | [], a, v => Memory.entry a v []
  | c :: rest, a, v =>
    if a < c.1 then Memory.entry a v (c :: rest)
    else if a = c.1 then Memory.entry a v rest
    else c :: Memory.store rest a v

/-- `MemRead(a, n)` (R12): the `n` bytes at `a` to `a + n - 1`. -/
def Memory.span (m : Memory) : Nat → Nat → Bytes
  | _, 0 => []
  | a, n + 1 => m.byte a :: Memory.span m (a + 1) n

/-- `MemWrite(a, |v|, v)` (R12): the bytes of `v` from `a` on. -/
def Memory.storeSpan (m : Memory) (a : Nat) : Bytes → Memory
  | [] => m
  | b :: rest => Memory.storeSpan (m.store a b) (a + 1) rest

/-- The number of addresses of a space (R60). -/
def spaceSize : Space → Nat
  | .src => Config.bufcap
  | .lin => Config.rxmax
  | .rsb => Config.bufcap
  | .fb => 128

/-- One byte of a space (R60): FB addresses 0 to 63 are TXF, 64 to 127 are RXF. -/
def State.readByte (s : State) (sp : Space) (a : Nat) : Byte :=
  match sp with
  | .src => s.src.byte a
  | .lin => s.lin.byte a
  | .rsb => s.rsb.byte a
  | .fb => if a < 64 then s.txf.byte a else s.rxf.byte (a - 64)

/-- The block's own access to `n` bytes from `a` is inside a space (R61). -/
abbrev inSpace (sp : Space) (a n : Nat) : Prop := a + n ≤ spaceSize sp

/-- The `n` bytes of SRC from `a`, `none` outside the space (R61; log 11). -/
def State.srcSpan (s : State) (a n : Nat) : Option Bytes :=
  if inSpace .src a n then some (s.src.span a n) else none

/-- The read held in LIN: its bytes 0 to `LINLEN - 1` (R27), `none` outside the space (log 11). -/
def State.linRead (s : State) : Option Bytes :=
  if inSpace .lin 0 s.linlen.toNat then some (s.lin.span 0 s.linlen.toNat) else none

/-- The 64 bytes of TXF (R50). -/
def State.txFrame (s : State) : Bytes := s.txf.span 0 Config.frameLen

/-- The 64 bytes of RXF (R51). -/
def State.rxFrame (s : State) : Bytes := s.rxf.span 0 Config.frameLen

/-! ### Responses, errors and refusals -/

/-- Return a response to the host (R13, R80). -/
def State.answer (s : State) (c : Code) (d : Word) : State :=
  { s with responses := s.responses ++ [{ code := c, rdata := d }] }

/-- `respond(c, d)` (R12): the operation ends with this response. -/
def respond (c : Code) (d : Word) (s : State) : Result := .next (s.answer c d)

/-- The sticky flag that reporting a code sets (R180). -/
def State.flagCode (s : State) (c : Code) : State :=
  match c.flag with
  | none => s
  | some f => s.setFlag f

/-- `raise E(info)` (R12, R187): set the sticky flag of `E`, answer `E` and `info`, and go on with the next command.
It saves no other state and transfers control nowhere. -/
def raise (c : Code) (info : Word) (s : State) : Result := respond c info (s.flagCode c)

/-- `refuse E` (R12, R184): set `STATUS.ILL`, answer `E` and 0, change nothing else. -/
def refuse (c : Code) (s : State) : Result := raise c 0 s

/-! ### Frame buffers, link and the tracker -/

/-- Fill TXF: `MemWrite(FB:0, 64, raw)`, `TXCH`, `TXFV` (R105, R125, R127, R143). -/
def State.loadTx (s : State) (ch : BitVec 4) (raw : Bytes) : State :=
  { s with txf := s.txf.storeSpan 0 raw, txch := ch, txfv := true }

/-- `LinkWrite` of several byte strings in order (R12, R53). -/
def State.linkWrites (s : State) (ws : List Bytes) : State := { s with lout := s.lout ++ ws }

/-- The soft reset and the reset event have one effect (R175, R200, R202): every element of R20 takes its reset value.
The input queue, the responses already returned and `LINKUP` are not elements of R20 (log 8). -/
def State.resetBlock (s : State) : State :=
  { State.reset with linkup := s.linkup, inputs := s.inputs, responses := s.responses }

/-- The block takes a command off the port, with the `LINKUP` of that operation (R13). -/
def State.takeCommand (s : State) (up : Bool) (rest : List Input) : State := { s with linkup := up, inputs := rest }

/-- The block takes a reset event (R200). -/
def State.takeReset (s : State) (rest : List Input) : State := { s with inputs := rest }.resetBlock

end Sys2Proof.Machine
end

