-- ==== Sys2Proof/Machine/FrameCodec.lean ====
section
/-! DEFINITION. The frame codec (spec/40_frame_codec.md): its pure functions R100 to R104 and the operations FENC, FTX,
FDEC (R105 to R107). -/

namespace Sys2Proof.Machine

/-- `direction: tx|rx` of a Frame (R57). -/
inductive Direction where
  | tx
  | rx
deriving DecidableEq, Repr

/-- The Frame record (R57): `payload_length` is 64 for every Frame the block produces. -/
structure Frame where
  direction : Direction
  channel : BitVec 4
  payloadLength : Nat
  raw : Bytes
deriving DecidableEq, Repr

/-- `FrameEncode(ch, p)` (R100): `none` is the error `PayloadTooLarge`, its only failure. -/
def frameEncode (ch : BitVec 4) (p : Bytes) : Option Frame :=
  if p.length > Config.frameLen then none
  else some { direction := .tx, channel := ch, payloadLength := Config.frameLen, raw := pad Config.frameLen p }

/-- The two ways a read yields no frame (R101, R102). -/
inductive ReadError where
  | frameTooShort
  | badMarker
deriving DecidableEq, Repr

/-- What deframing a read gives (R103): the frame, whether bytes beyond it were ignored, and, with `ENV = 1`, the
packet-length and signal-strength bytes. -/
structure Deframed where
  frame : Frame
  excess : Bool
  envelope : Option (Byte × Byte)
deriving DecidableEq, Repr

/-- `FrameDecode(rxch, r)` (R101): `none` is `FrameTooShort`; the flag is `excess`. -/
def frameDecode (rxch : BitVec 4) (r : Bytes) : Option (Frame × Bool) :=
  if r.length < Config.frameLen then none
  else some ({ direction := .rx, channel := rxch, payloadLength := Config.frameLen,
               raw := slice r 0 Config.frameLen }, decide (r.length > Config.frameLen))

/-- `EnvStrip(b)` (R102): length, then marker, then `(plen, rssi, rest)`. -/
def envStrip (b : Bytes) : Except ReadError (Byte × Byte × Bytes) :=
  if b.length < 64 then .error .frameTooShort
  else if byteAt b 0 ≠ Config.marker0 ∨ byteAt b 1 ≠ Config.marker1 then .error .badMarker
  else .ok (byteAt b 2, byteAt b 3, slice b 4 b.length)

/-- `Deframe(env, rxch, b)` (R103), the whole inbound path of the frame codec. -/
def deframe (env : Bool) (rxch : BitVec 4) (b : Bytes) : Except ReadError Deframed :=
  if env then
    match envStrip b with
    | .error e => .error e
    | .ok (plen, rssi, rest) =>
      match frameDecode rxch rest with
      | none => .error .frameTooShort
      | some (f, x) => .ok { frame := f, excess := x, envelope := some (plen, rssi) }
  else
    match frameDecode rxch b with
    | none => .error .frameTooShort
    | some (f, x) => .ok { frame := f, excess := x, envelope := none }

/-- `TxWrites(frame)` (R104): the transmit-mode command, the (channel, length) pair, the 64 bytes. -/
def txWrites (f : Frame) : List Bytes := [Config.txcmd, [f.channel.setWidth 8, 0x40], f.raw]

/-- The tx Frame the state holds when `TXFV = 1` (R57). -/
def State.txFrameRecord (s : State) : Frame :=
  { direction := .tx, channel := s.txch, payloadLength := Config.frameLen, raw := s.txFrame }

/-- The rx Frame the state holds when `RXFV = 1` (R51, R57). -/
def State.rxFrameRecord (s : State) : Frame :=
  { direction := .rx, channel := s.rxch, payloadLength := Config.frameLen, raw := s.rxFrame }

/-- Frame-encode a payload into TXF and answer its unpadded length, or report `PayloadTooLarge` with that length
(R105, R125, R127, R183): what FENC, HENC and IENC share. -/
def encodePayload (ch : BitVec 4) (p : Bytes) (s : State) : Result :=
  match frameEncode ch p with
  | none => raise .payloadTooLarge (BitVec.ofNat 32 p.length) s
  | some f => respond .ok (BitVec.ofNat 32 p.length) (s.loadTx f.channel f.raw)

/-- Take a deframed read into RXF (R107, R154): RXF, `RXFV`, with an envelope `RPLEN` and `RRSSI`, and `RXX` when bytes
were ignored. -/
def State.acceptFrame (s : State) (d : Deframed) : State :=
  let s1 := { s with rxf := s.rxf.storeSpan 0 d.frame.raw, rxfv := true }
  let s2 := match d.envelope with
    | none => s1
    | some (plen, rssi) => { s1 with rplen := plen, rrssi := rssi }
  if d.excess then s2.setFlag .rxx else s2

/-- `b[0] + 256 * b[1]` (R107, R183): the two bytes found where the marker should be. -/
def markerFound (b : Bytes) : Word := (un16 b).setWidth 32

/-- FENC (R105). -/
def execFenc (ch : BitVec 4) (s : State) : Result :=
  match s.srcSpan 0 s.srclen.toNat with
  | none => .fault .outsideSpace
  | some p => encodePayload ch p s

/-- FTX (R106). -/
def execFtx (s : State) : Result :=
  if s.txfv = false then refuse .noFrame s
  else if s.linkup = false then raise .linkUnavailable 0 s
  else respond .ok 64 (s.linkWrites (txWrites s.txFrameRecord))

/-- FDEC (R107). -/
def execFdec (s : State) : Result :=
  if s.linkup = false then raise .linkUnavailable 0 s
  else match s.linRead with
    | none => .fault .outsideSpace
    | some b =>
      match deframe s.env s.rxch b with
      | .error .frameTooShort => raise .frameTooShort (s.linlen.setWidth 32) s
      | .error .badMarker => raise .badMarker (markerFound b) s
      | .ok d => respond .ok 64 (s.acceptFrame d)

end Sys2Proof.Machine
end

