-- ==== Sys2Proof/Machine/Operands.lean ====
section
/-! DEFINITION. The operand forms: the register space that `csr` selects (spec/10_state.md R23 to R47) and the memory
spaces that `sp` and `addr` select (spec/20_memory.md R60 to R62). -/

namespace Sys2Proof.Machine

/-- The 24 registers (R24 to R47). -/
inductive Reg where
  | ctrl
  | status
  | srclen
  | linlen
  | taddr
  | tcd
  | rxch
  | txch
  | raddr
  | rmt
  | rcd
  | rplen
  | rrssi
  | sn
  | sk
  | smt
  | slen
  | rcap
  | rlencap
  | rslen
  | rreads
  | rpkts
  | rlast
  | rstate
deriving DecidableEq, Repr

/-- The number of a register (R24 to R47). -/
def Reg.number : Reg → BitVec 8
  | .ctrl => 0x00
  | .status => 0x01
  | .srclen => 0x02
  | .linlen => 0x03
  | .taddr => 0x04
  | .tcd => 0x05
  | .rxch => 0x06
  | .txch => 0x07
  | .raddr => 0x08
  | .rmt => 0x09
  | .rcd => 0x0A
  | .rplen => 0x0B
  | .rrssi => 0x0C
  | .sn => 0x10
  | .sk => 0x11
  | .smt => 0x12
  | .slen => 0x13
  | .rcap => 0x18
  | .rlencap => 0x19
  | .rslen => 0x1A
  | .rreads => 0x1B
  | .rpkts => 0x1C
  | .rlast => 0x1D
  | .rstate => 0x1E

/-- The register a `csr` field names; a number not listed names none (R23, R85). -/
def regOf (csr : BitVec 8) : Option Reg :=
  match csr.toNat with
  | 0x00 => some .ctrl
  | 0x01 => some .status
  | 0x02 => some .srclen
  | 0x03 => some .linlen
  | 0x04 => some .taddr
  | 0x05 => some .tcd
  | 0x06 => some .rxch
  | 0x07 => some .txch
  | 0x08 => some .raddr
  | 0x09 => some .rmt
  | 0x0A => some .rcd
  | 0x0B => some .rplen
  | 0x0C => some .rrssi
  | 0x10 => some .sn
  | 0x11 => some .sk
  | 0x12 => some .smt
  | 0x13 => some .slen
  | 0x18 => some .rcap
  | 0x19 => some .rlencap
  | 0x1A => some .rslen
  | 0x1B => some .rreads
  | 0x1C => some .rpkts
  | 0x1D => some .rlast
  | 0x1E => some .rstate
  | _ => none

/-- The access class of a register (R23). -/
inductive Access where
  | rw
  | ro
  | w1c
deriving DecidableEq, Repr

/-- The access column of the table under R55. -/
def Reg.access : Reg → Access
  | .ctrl => .rw
  | .status => .w1c
  | .srclen => .rw
  | .linlen => .rw
  | .taddr => .rw
  | .tcd => .rw
  | .rxch => .rw
  | .txch => .ro
  | .raddr => .ro
  | .rmt => .ro
  | .rcd => .ro
  | .rplen => .ro
  | .rrssi => .ro
  | .sn => .ro
  | .sk => .ro
  | .smt => .ro
  | .slen => .ro
  | .rcap => .rw
  | .rlencap => .rw
  | .rslen => .ro
  | .rreads => .ro
  | .rpkts => .ro
  | .rlast => .ro
  | .rstate => .ro

/-- A register as a 32-bit word, the bits above its width 0 (R23, R171). -/
def State.readReg (s : State) : Reg → Word
  | .ctrl => s.ctrl.setWidth 32
  | .status => s.status
  | .srclen => s.srclen.setWidth 32
  | .linlen => s.linlen.setWidth 32
  | .taddr => s.taddr
  | .tcd => s.tcd.setWidth 32
  | .rxch => s.rxch.setWidth 32
  | .txch => s.txch.setWidth 32
  | .raddr => s.raddr
  | .rmt => s.rmt.setWidth 32
  | .rcd => s.rcd.setWidth 32
  | .rplen => s.rplen.setWidth 32
  | .rrssi => s.rrssi.setWidth 32
  | .sn => s.sn.setWidth 32
  | .sk => s.sk.setWidth 32
  | .smt => s.smt.setWidth 32
  | .slen => s.slen.setWidth 32
  | .rcap => s.rcap.setWidth 32
  | .rlencap => s.rlencap.setWidth 32
  | .rslen => s.rslen.setWidth 32
  | .rreads => s.rreads
  | .rpkts => s.rpkts
  | .rlast => s.rlast.setWidth 32
  | .rstate => s.rstate

/-- The largest legal value of a register that CSRW writes (R24, R26 to R30, R41, R42, R172); for the others, which
CSRW does not write, the largest word. -/
def Reg.maxValue : Reg → Nat
  | .ctrl => 1
  | .srclen => Config.bufcap
  | .linlen => Config.rxmax
  | .tcd => 65535
  | .rxch => 15
  | .rcap => 65535
  | .rlencap => Config.bufcap
  | .taddr | .status | .txch | .raddr | .rmt | .rcd | .rplen | .rrssi | .sn | .sk | .smt | .slen
  | .rslen | .rreads | .rpkts | .rlast | .rstate => 4294967295

/-- `value` is a legal value of the register (R172). -/
abbrev Reg.legal (r : Reg) (value : Word) : Prop := value.toNat ≤ r.maxValue

/-- `x[csr] <- value` for a register of class RW (R172); the registers of the other classes are not written. -/
def State.writeReg (s : State) (r : Reg) (value : Word) : State :=
  match r with
  | .ctrl => { s with ctrl := value.setWidth 1 }
  | .srclen => { s with srclen := value.setWidth 22 }
  | .linlen => { s with linlen := value.setWidth 22 }
  | .taddr => { s with taddr := value }
  | .tcd => { s with tcd := value.setWidth 16 }
  | .rxch => { s with rxch := value.setWidth 4 }
  | .rcap => { s with rcap := value.setWidth 16 }
  | .rlencap => { s with rlencap := value.setWidth 22 }
  | .status | .txch | .raddr | .rmt | .rcd | .rplen | .rrssi | .sn | .sk | .smt | .slen
  | .rslen | .rreads | .rpkts | .rlast | .rstate => s

/-- The host writes SRC and LIN only (R62). -/
def hostWritable : Space → Bool
  | .src => true
  | .lin => true
  | .rsb => false
  | .fb => false

/-- `addr` is in the range of its space (R60, R61). -/
abbrev addrInSpace (sp : Space) (addr : BitVec 22) : Prop := addr.toNat < spaceSize sp

/-- `MemWrite(sp:addr, 1, [b])` for the two spaces the host writes (R174); RSB and FB are not written. -/
def State.hostStore (s : State) (sp : Space) (a : Nat) (b : Byte) : State :=
  match sp with
  | .src => { s with src := s.src.store a b }
  | .lin => { s with lin := s.lin.store a b }
  | .rsb => s
  | .fb => s

end Sys2Proof.Machine
end

