-- ==== Sys2Proof/Machine/HostAccess.lean ====
section
/-! DEFINITION. The host access operations NOP, CSRR, CSRW, LDB, STB, SRST (spec/44_host_access.md R170 to R175). The
test of the reserved bits, first line of each pseudocode, is the decoder's (R84). -/

namespace Sys2Proof.Machine

/-- NOP (R170). -/
def execNop (s : State) : Result := respond .ok 0 s

/-- CSRR (R171). -/
def execCsrr (csr : BitVec 8) (s : State) : Result :=
  match regOf csr with
  | none => refuse .badCsr s
  | some r => respond .ok (s.readReg r) s

/-- CSRW of a register of class RW (R172): a value out of the legal range is refused. -/
def writeLegal (r : Reg) (value : Word) (s : State) : Result :=
  if r.legal value then respond .ok value (s.writeReg r value) else refuse .badValue s

/-- CSRW STATUS (R172, R25): clears flags and answers STATUS as CSRR reads it. -/
def writeStatus (value : Word) (s : State) : Result := respond .ok (s.clearFlags value).status (s.clearFlags value)

/-- CSRW (R172); the order of its tests is that of R185. -/
def execCsrw (csr : BitVec 8) (value : Word) (s : State) : Result :=
  match regOf csr with
  | none => refuse .badCsr s
  | some r =>
    match r.access with
    | .w1c => writeStatus value s
    | .ro => refuse .readOnly s
    | .rw => writeLegal r value s

/-- LDB (R173). -/
def execLdb (sp : Space) (addr : BitVec 22) (s : State) : Result :=
  if addrInSpace sp addr then respond .ok ((s.readByte sp addr.toNat).setWidth 32) s else refuse .badAddr s

/-- STB (R174): READ_ONLY, then BAD_ADDR, then BAD_VALUE (R185). -/
def execStb (sp : Space) (addr : BitVec 22) (wdata : Word) (s : State) : Result :=
  if hostWritable sp = false then refuse .readOnly s
  else if ¬ addrInSpace sp addr then refuse .badAddr s
  else if wdata.extractLsb' 8 24 ≠ 0 then refuse .badValue s
  else respond .ok wdata (s.hostStore sp addr.toNat (wdata.extractLsb' 0 8))

/-- SRST (R175). -/
def execSrst (s : State) : Result := respond .ok 0 s.resetBlock

end Sys2Proof.Machine
end

