-- ==== Sys2Proof/Machine/PacketSerdes.lean ====
section
/-! DEFINITION. The packet serializer and deserializer (spec/41_packet_serdes.md): the layouts R120 to R124 and the
operations HENC, HDEC, IENC, IDEC (R125 to R128). -/

namespace Sys2Proof.Machine

/-- `HeaderPayload(a, mt, body) = a ‖ [mt] ‖ body` (R120). -/
def headerPayload (a : Bytes) (mt : Byte) (body : Bytes) : Bytes := a ++ [mt] ++ body

/-- `HeaderParse(p)` (R121): address, message type, body. -/
def headerParse (p : Bytes) : Bytes × Byte × Bytes := (slice p 0 4, byteAt p 4, slice p 5 64)

/-- `InfoPayload(cd, mt, chunk) = le16(cd) ‖ [mt] ‖ chunk` (R122). -/
def infoPayload (cd : BitVec 16) (mt : Byte) (chunk : Bytes) : Bytes := le16 cd ++ [mt] ++ chunk

/-- `InfoParse(p)` (R123): countdown, message type, chunk. -/
def infoParse (p : Bytes) : BitVec 16 × Byte × Bytes := (un16 (slice p 0 2), byteAt p 2, slice p 3 64)

/-- The message-type names (R124). -/
inductive MessageType where
  | wod
  | scienceImage
  | scienceThermoAndCurrent
  | groundStationCommand
  | time
  | pong
  | debug
deriving DecidableEq, Repr

/-- The seven names, in the source's order (R124). -/
def messageTypes : List MessageType :=
  [.wod, .scienceImage, .scienceThermoAndCurrent, .groundStationCommand, .time, .pong, .debug]

/-- What R7 asks of the open table `MTCODE`: injective, with `MTCODE(Pong) = 6`. -/
def mtcodeLegal (mtcode : MessageType → Byte) : Prop :=
  (∀ t u, mtcode t = mtcode u → t = u) ∧ mtcode .pong = 6

/-- `MtClassify(b)` (R124) under a table `mtcode`: `none` is `UnrecognizedMessageType`. No operation of the block calls
it; the open table is an argument (log 4). -/
def mtClassify (mtcode : MessageType → Byte) (b : Byte) : Option MessageType :=
  messageTypes.find? (fun t => mtcode t == b)

/-- HENC (R125). -/
def execHenc (ch : BitVec 4) (mt : Byte) (s : State) : Result :=
  match s.srcSpan 0 s.srclen.toNat with
  | none => .fault .outsideSpace
  | some body => encodePayload ch (headerPayload (le32 s.taddr) mt body) s

/-- The fields HDEC copies from a header packet (R126). -/
def State.takeHeader (s : State) (p : Bytes) : State :=
  { s with raddr := un32 (headerParse p).1, rmt := (headerParse p).2.1 }

/-- HDEC (R126). -/
def execHdec (s : State) : Result :=
  if s.rxfv = false then refuse .noFrame s
  else respond .ok (un32 (headerParse s.rxFrame).1) (s.takeHeader s.rxFrame)

/-- IENC (R127). -/
def execIenc (ch : BitVec 4) (mt : Byte) (s : State) : Result :=
  match s.srcSpan 0 s.srclen.toNat with
  | none => .fault .outsideSpace
  | some chunk => encodePayload ch (infoPayload s.tcd mt chunk) s

/-- The fields IDEC, and RPSH as IDEC does, copy from an information packet (R128, R154). -/
def State.takeInfo (s : State) (p : Bytes) : State := { s with rcd := (infoParse p).1, rmt := (infoParse p).2.1 }

/-- IDEC (R128). -/
def execIdec (s : State) : Result :=
  if s.rxfv = false then refuse .noFrame s
  else respond .ok ((infoParse s.rxFrame).1.setWidth 32) (s.takeInfo s.rxFrame)

end Sys2Proof.Machine
end

