-- ==== Sys2Proof/Machine/Reassembly.lean ====
section
/-! DEFINITION. The reassembly buffer and countdown tracker (spec/43_reassembly.md): the function Concat (R150) and the
operations RBEG and RPSH (R152 to R154). -/

namespace Sys2Proof.Machine

/-- `Concat(Q)` (R150) of parsed information packets: their chunks in arrival order, whatever their countdowns. -/
def concat (q : List (BitVec 16 × Byte × Bytes)) : Bytes := q.flatMap (fun p => p.2.2)

/-- The registers RBEG writes (R153); RSB keeps its bytes. -/
def State.beginTransfer (s : State) : State :=
  { s with rslen := 0, rreads := 0, rpkts := 0, rlast := 0, phase := .active, cause := .none }

/-- RBEG (R153). -/
def execRbeg (s : State) : Result := respond .ok 0 s.beginTransfer

/-- `end(c)` (R154). -/
def State.endTransfer (s : State) (c : Cause) : State := { s with phase := .ended, cause := c }

/-- `x[RREADS] <- sat32(x[RREADS] + 1)` (R154). -/
def State.countRead (s : State) : State := { s with rreads := satSucc s.rreads }

/-- `room = max(0, RLENCAP - RSLEN)` (R154). -/
def State.room (s : State) : Nat := s.rlencap.toNat - s.rslen.toNat

/-- How many bytes of a chunk are stored: `min(61, room)` (R154). -/
def State.kept (s : State) : Nat := min 61 s.room

/-- Append one parsed packet (R154): RCD and RMT as IDEC does, RLAST, RPKTS, the kept bytes to RSB, RSLEN. -/
def State.append (s : State) (p : Bytes) : State :=
  { s.takeInfo p with
    rlast := (infoParse p).1
    rpkts := satSucc s.rpkts
    rsb := s.rsb.storeSpan s.rslen.toNat ((infoParse p).2.2.take s.kept)
    rslen := BitVec.ofNat 22 (s.rslen.toNat + s.kept) }

/-- End a transfer on a stop condition: OK with the new RSTATE (R154, R155). -/
def stopTransfer (c : Cause) (s : State) : Result := respond .ok (s.endTransfer c).rstate (s.endTransfer c)

/-- End a transfer on a cap: `IncompleteTransfer` with the new RSTATE (R154, R155). -/
def capTransfer (c : Cause) (s : State) : Result :=
  raise .incompleteTransfer (s.endTransfer c).rstate (s.endTransfer c)

/-- The last test of RPSH (R154): the read cap, off when `RCAP = 0`; else the transfer goes on. -/
def testReadCap (s : State) : Result :=
  if s.rcap ≠ 0 ∧ s.rreads.toNat ≥ s.rcap.toNat then capTransfer .readCap s else respond .ok s.rstate s

/-- What RPSH does with a payload that is no sentinel (R154): append, then countdown 0, length cap, read cap. -/
def pushPacket (p : Bytes) (s : State) : Result :=
  if ¬ inSpace .rsb s.rslen.toNat s.kept then .fault .outsideSpace
  else if (infoParse p).1 = 0 then stopTransfer .terminal (s.append p)
  else if (s.append p).rslen.toNat ≥ (s.append p).rlencap.toNat then capTransfer .lenCap (s.append p)
  else testReadCap (s.append p)

/-- What RPSH does with a read once it is counted (R154). -/
def pushRead (b : Bytes) (s : State) : Result :=
  match deframe s.env s.rxch b with
  | .error .frameTooShort => stopTransfer .short (s.setFlag .fts)
  | .error .badMarker => testReadCap (s.setFlag .bmk)
  | .ok d =>
    if Config.sent d.frame.raw then stopTransfer .sentinel (s.acceptFrame d)
    else pushPacket d.frame.raw (s.acceptFrame d)

/-- RPSH (R154). -/
def execRpsh (s : State) : Result :=
  if s.phase ≠ .active then refuse .notActive s
  else if s.linkup = false then raise .linkUnavailable 0 s
  else match s.linRead with
    | none => .fault .outsideSpace
    | some b => pushRead b s.countRead

end Sys2Proof.Machine
end

