-- ==== Sys2Proof/Machine/Splitter.lean ====
section
/-! DEFINITION. The splitter and countdown generator (spec/42_split.md): the split function R140 and the operations
SBEG and SNXT (R142, R143). -/

namespace Sys2Proof.Machine

/-- An information packet before layout (R140): countdown, message type, chunk. -/
structure InfoPacket where
  countdown : Nat
  mt : Byte
  chunk : Bytes
deriving DecidableEq, Repr

/-- Packet `k` of `Split(mt, c)` (R140). -/
def splitPacket (mt : Byte) (c : Bytes) (k : Nat) : InfoPacket :=
  { countdown := ceilDiv c.length 61 - 1 - k, mt := mt, chunk := slice c (61 * k) (min (61 * (k + 1)) c.length) }

/-- `Split(mt, c)` (R140): `ceil_div(|c|, 61)` packets, first slice first, the countdown falling to 0. -/
def split (mt : Byte) (c : Bytes) : List InfoPacket := (List.range (ceilDiv c.length 61)).map (splitPacket mt c)

/-- The 64-byte payload of a packet: `pad_64(InfoPayload(P))` (R122, R144). -/
def InfoPacket.payload (p : InfoPacket) : Bytes := pad 64 (infoPayload (BitVec.ofNat 16 p.countdown) p.mt p.chunk)

/-- The registers SBEG writes (R142). -/
def State.beginSplit (s : State) (mt : Byte) : State :=
  { s with slen := s.srclen, sn := BitVec.ofNat 17 (ceilDiv s.srclen.toNat 61), sk := 0, smt := mt }

/-- SBEG (R142). -/
def execSbeg (mt : Byte) (s : State) : Result := respond .ok ((s.beginSplit mt).sn.setWidth 32) (s.beginSplit mt)

/-- `cd = SN - 1 - SK`, the countdown of the next packet (R38, R143). -/
def State.nextCountdown (s : State) : BitVec 16 := BitVec.ofNat 16 (s.sn.toNat - 1 - s.sk.toNat)

/-- `lo = 61 * SK` (R143). -/
def State.sliceLo (s : State) : Nat := 61 * s.sk.toNat

/-- `hi = min(61 * (SK + 1), SLEN)` (R143). -/
def State.sliceHi (s : State) : Nat := min (61 * (s.sk.toNat + 1)) s.slen.toNat

/-- The packet SNXT leaves in TXF, and `SK` plus 1 (R143). -/
def State.produce (s : State) (ch : BitVec 4) (chunk : Bytes) : State :=
  { s.loadTx ch (pad 64 (infoPayload s.nextCountdown s.smt chunk)) with sk := BitVec.ofNat 17 (s.sk.toNat + 1) }

/-- SNXT (R143). -/
def execSnxt (ch : BitVec 4) (s : State) : Result :=
  if s.splitActive = false then refuse .notActive s
  else match s.srcSpan s.sliceLo (s.sliceHi - s.sliceLo) with
    | none => .fault .outsideSpace
    | some chunk => respond .ok (s.nextCountdown.setWidth 32) (s.produce ch chunk)

end Sys2Proof.Machine
end

