-- ==== Sys2Proof/Machine/Dispatch.lean ====
section
/-! DEFINITION. The dispatch: one arm per operation of spec/30_encoding.md R83. -/

namespace Sys2Proof.Machine

def exec (i : Instr) (s : State) : Host.Outcome State Fault Refusal :=
  match i with
  | .nop => Sys2Proof.Machine.execNop s
  | .csrr csr => Sys2Proof.Machine.execCsrr csr s
  | .csrw csr value => Sys2Proof.Machine.execCsrw csr value s
  | .ldb sp addr => Sys2Proof.Machine.execLdb sp addr s
  | .stb sp addr wdata => Sys2Proof.Machine.execStb sp addr wdata s
  | .srst => Sys2Proof.Machine.execSrst s
  | .fenc ch => Sys2Proof.Machine.execFenc ch s
  | .ftx => Sys2Proof.Machine.execFtx s
  | .fdec => Sys2Proof.Machine.execFdec s
  | .henc ch mt => Sys2Proof.Machine.execHenc ch mt s
  | .hdec => Sys2Proof.Machine.execHdec s
  | .ienc ch mt => Sys2Proof.Machine.execIenc ch mt s
  | .idec => Sys2Proof.Machine.execIdec s
  | .sbeg mt => Sys2Proof.Machine.execSbeg mt s
  | .snxt ch => Sys2Proof.Machine.execSnxt ch s
  | .rbeg => Sys2Proof.Machine.execRbeg s
  | .rpsh => Sys2Proof.Machine.execRpsh s

end Sys2Proof.Machine
end

