-- ==== Sys2Proof/Decode.lean ====
section
/-! DEFINITION. Decoding a command (spec/30_encoding.md R80 to R86) and encoding an instruction, both written from
the field table of R82 and the opcode map of R83. -/

namespace Sys2Proof

/-- What is wrong with a command word: the two refusals of the decoder (R84). -/
inductive DecodeError where
  | illegalOp
  | rsvdNonzero
deriving DecidableEq, Repr

/-- The answer of the decoder. -/
inductive Decoded where
  | ok (i : Instr)
  | bad (e : DecodeError)
deriving DecidableEq, Repr

/-- `op = cmd[31:24]` (R82). -/
def fieldOp (cmd : Word) : BitVec 8 := cmd.extractLsb' 24 8

/-- `ch = cmd[23:20]` (R82). -/
def fieldCh (cmd : Word) : BitVec 4 := cmd.extractLsb' 20 4

/-- `mt = cmd[7:0]` (R82). -/
def fieldMt (cmd : Word) : Byte := cmd.extractLsb' 0 8

/-- `csr = cmd[23:16]` (R82). -/
def fieldCsr (cmd : Word) : BitVec 8 := cmd.extractLsb' 16 8

/-- `addr = cmd[21:0]` (R82). -/
def fieldAddr (cmd : Word) : BitVec 22 := cmd.extractLsb' 0 22

/-- The space that a 2-bit `sp` field selects (R60). -/
def spaceOf (sp : BitVec 2) : Space :=
  match sp.toNat with
  | 0 => .src
  | 1 => .lin
  | 2 => .rsb
  | _ => .fb

/-- The `sp` field of a space (R60). -/
def spaceBits : Space → BitVec 2
  | .src => 0
  | .lin => 1
  | .rsb => 2
  | .fb => 3

/-- `sp = cmd[23:22]` (R82). -/
def fieldSp (cmd : Word) : Space := spaceOf (cmd.extractLsb' 22 2)

/-- The opcode map of R83, as its `mask` and `match` columns give it: a command word `w` is a well-formed instance of
a row exactly when `w AND mask = match`. -/
def opcodeMap : List (Word × Word) :=
  [(0xFFFFFFFF, 0x00000000), (0xFF00FFFF, 0x01000000), (0xFF00FFFF, 0x02000000), (0xFF000000, 0x03000000),
   (0xFF000000, 0x04000000), (0xFFFFFFFF, 0x0F000000), (0xFF0FFFFF, 0x10000000), (0xFFFFFFFF, 0x11000000),
   (0xFFFFFFFF, 0x12000000), (0xFF0FFF00, 0x20000000), (0xFFFFFFFF, 0x21000000), (0xFF0FFF00, 0x22000000),
   (0xFFFFFFFF, 0x23000000), (0xFFFFFF00, 0x30000000), (0xFF0FFFFF, 0x31000000), (0xFFFFFFFF, 0x40000000),
   (0xFFFFFFFF, 0x41000000)]

/-- Step (2) of R84: an operation whose reserved bits are all 0, else `RSVD_NONZERO`. -/
def checked (cmd mask pattern : Word) (i : Instr) : Decoded :=
  if cmd &&& mask = pattern then .ok i else .bad .rsvdNonzero

/-- The decoder (R84): the opcode first, then the reserved bits of its format. `wdata` is ignored but by CSRW and
STB (R80). -/
def decode (cmd wdata : Word) : Decoded :=
  match (fieldOp cmd).toNat with
  | 0x00 => checked cmd 0xFFFFFFFF 0x00000000 .nop
  | 0x01 => checked cmd 0xFF00FFFF 0x01000000 (.csrr (fieldCsr cmd))
  | 0x02 => checked cmd 0xFF00FFFF 0x02000000 (.csrw (fieldCsr cmd) wdata)
  | 0x03 => checked cmd 0xFF000000 0x03000000 (.ldb (fieldSp cmd) (fieldAddr cmd))
  | 0x04 => checked cmd 0xFF000000 0x04000000 (.stb (fieldSp cmd) (fieldAddr cmd) wdata)
  | 0x0F => checked cmd 0xFFFFFFFF 0x0F000000 .srst
  | 0x10 => checked cmd 0xFF0FFFFF 0x10000000 (.fenc (fieldCh cmd))
  | 0x11 => checked cmd 0xFFFFFFFF 0x11000000 .ftx
  | 0x12 => checked cmd 0xFFFFFFFF 0x12000000 .fdec
  | 0x20 => checked cmd 0xFF0FFF00 0x20000000 (.henc (fieldCh cmd) (fieldMt cmd))
  | 0x21 => checked cmd 0xFFFFFFFF 0x21000000 .hdec
  | 0x22 => checked cmd 0xFF0FFF00 0x22000000 (.ienc (fieldCh cmd) (fieldMt cmd))
  | 0x23 => checked cmd 0xFFFFFFFF 0x23000000 .idec
  | 0x30 => checked cmd 0xFFFFFF00 0x30000000 (.sbeg (fieldMt cmd))
  | 0x31 => checked cmd 0xFF0FFFFF 0x31000000 (.snxt (fieldCh cmd))
  | 0x40 => checked cmd 0xFFFFFFFF 0x40000000 .rbeg
  | 0x41 => checked cmd 0xFFFFFFFF 0x41000000 .rpsh
  | _ => .bad .illegalOp

/-- Format N: the opcode alone (R81). -/
def packN (op : BitVec 8) : Word := op ++ (0 : BitVec 24)

/-- Formats R and W: `csr` in bits 23:16 (R81). -/
def packR (op csr : BitVec 8) : Word := op ++ csr ++ (0 : BitVec 16)

/-- Formats L and S: `sp` in bits 23:22, `addr` in bits 21:0 (R81). -/
def packL (op : BitVec 8) (sp : Space) (addr : BitVec 22) : Word := op ++ spaceBits sp ++ addr

/-- Formats C, M and CM: `ch` in bits 23:20 and `mt` in bits 7:0, each 0 where the format has none (R81). -/
def packCM (op : BitVec 8) (ch : BitVec 4) (mt : Byte) : Word := op ++ ch ++ (0 : BitVec 12) ++ mt

/-- The command word and the data word of an instruction (R81 to R83); the data word is 0 where the operation
ignores it. -/
def encode : Instr → Word × Word
  | .nop => (packN 0x00, 0)
  | .csrr csr => (packR 0x01 csr, 0)
  | .csrw csr value => (packR 0x02 csr, value)
  | .ldb sp addr => (packL 0x03 sp addr, 0)
  | .stb sp addr wdata => (packL 0x04 sp addr, wdata)
  | .srst => (packN 0x0F, 0)
  | .fenc ch => (packCM 0x10 ch 0, 0)
  | .ftx => (packN 0x11, 0)
  | .fdec => (packN 0x12, 0)
  | .henc ch mt => (packCM 0x20 ch mt, 0)
  | .hdec => (packN 0x21, 0)
  | .ienc ch mt => (packCM 0x22 ch mt, 0)
  | .idec => (packN 0x23, 0)
  | .sbeg mt => (packCM 0x30 0 mt, 0)
  | .snxt ch => (packCM 0x31 ch 0, 0)
  | .rbeg => (packN 0x40, 0)
  | .rpsh => (packN 0x41, 0)

/-- Bits 31:0 of a table word: the command word, 0 above `nbits`. -/
def tableCmd (nbits w : Nat) : Word := BitVec.ofNat 32 (w % 2 ^ nbits)

/-- Bits 63:32 of a table word: the data word, 0 above `nbits`. -/
def tableData (nbits w : Nat) : Word := BitVec.ofNat 32 (w % 2 ^ nbits / 2 ^ 32)

/-- The instruction the decoder reads from a row's bits as spec/opcode_table.json numbers them. -/
def decodeTableWord (nbits w : Nat) : Option Instr :=
  match decode (tableCmd nbits w) (tableData nbits w) with
  | .ok i => some i
  | .bad _ => none

end Sys2Proof
end

