-- ==== Sys2Proof/Machine/Port.lean ====
section
/-! DEFINITION. The command port (spec/00_scope.md R13, spec/30_encoding.md R80, R84): how a command the decoder refuses is
answered, how the state rests when nothing is presented, and the pseudo-instructions of R89. -/

namespace Sys2Proof.Machine

/-- The response code of a decoder refusal (R84). -/
def refusalCode : DecodeError → Code
  | .illegalOp => .illegalOp
  | .rsvdNonzero => .rsvdNonzero

/-- Nothing is presented: the block does nothing by itself (R13; log 9). -/
def idle (s : State) : Result := .next s

/-- `STB sp, i, b[i]` for the bytes of `b` in ascending order from address `a` (R89). -/
def storeBytes (sp : Space) (a : Nat) : Bytes → List Instr
  | [] => []
  | b :: rest => .stb sp (BitVec.ofNat 22 a) (b.setWidth 32) :: storeBytes sp (a + 1) rest

/-- `LDSRC b` (R89). -/
def ldsrc (b : Bytes) : List Instr := storeBytes .src 0 b ++ [.csrw 0x02 (BitVec.ofNat 32 b.length)]

/-- `LDLIN b` (R89), the environment action `LinkDeliver(b)` of R49. -/
def ldlin (b : Bytes) : List Instr := storeBytes .lin 0 b ++ [.csrw 0x03 (BitVec.ofNat 32 b.length)]

/-- `SENDRAW ch, b` (R89). -/
def sendraw (ch : BitVec 4) (b : Bytes) : List Instr := ldsrc b ++ [.fenc ch, .ftx]

/-- `SENDHDR ch, mt, a, b` (R89). -/
def sendhdr (ch : BitVec 4) (mt : Byte) (a : Word) (b : Bytes) : List Instr :=
  [.csrw 0x04 a] ++ ldsrc b ++ [.henc ch mt, .ftx]

/-- The repetition `SNXT ch; FTX`, `n` times (R89). -/
def sendPackets (ch : BitVec 4) (n : Nat) : List Instr := (List.replicate n [.snxt ch, .ftx]).flatten

/-- `SENDMSG ch, mt, c` (R89): `SN` is `ceil_div(|c|, 61)`, written here as the quotient rounded up. -/
def sendmsg (ch : BitVec 4) (mt : Byte) (c : Bytes) : List Instr :=
  ldsrc c ++ [.sbeg mt] ++ sendPackets ch (ceilDiv c.length 61)

/-- `CLRSTAT` (R89). -/
def clrstat : List Instr := [.csrw 0x01 0x7F]

end Sys2Proof.Machine
end

