-- ==== Sys2Proof/Machine/Step.lean ====
section
/-! DEFINITION. One step: the block takes the next input, decodes the command and performs the operation as one atomic
action (spec/00_scope.md R13, spec/20_memory.md R67). -/

namespace Sys2Proof.Machine

/-- One step of the block (R13). A command the decoder refuses is answered by a refusal (R84). -/
def step (s : State) : Host.Outcome State Fault Refusal :=
  match s.inputs with
  | [] => idle s
  | .reset :: rest => .next (s.takeReset rest)
  | .command up cmd wdata :: rest =>
    match decode cmd wdata with
    | .bad e => refuse (refusalCode e) (s.takeCommand up rest)
    | .ok i => exec i (s.takeCommand up rest)

/-- `s` with the instruction of a table word presented next on the command port, `LINKUP` as it is (log 10). -/
def State.withFetchWord (s : State) (nbits w : Nat) : State :=
  { s with inputs := .command s.linkup (tableCmd nbits w) (tableData nbits w) :: s.inputs }

end Sys2Proof.Machine
end

