-- ==== Sys2Proof/Machine/Sequence.lean ====
section
/-! DEFINITION. Performing the operations of a pseudo-instruction (spec/30_encoding.md R89): one after another, stopping
after the first that answers a code other than OK. -/

namespace Sys2Proof.Machine

/-- The last response is OK; so is the state of affairs when there is none. -/
def State.answeredOk (s : State) : Bool :=
  match s.responses.getLast? with
  | none => true
  | some r => r.code == .ok

/-- Perform a pseudo-instruction's operations (R89). -/
def runSequence : List Instr → State → Result
  | [], s => .next s
  | i :: rest, s =>
    match exec i s with
    | .next t => if t.answeredOk then runSequence rest t else .next t
    | .fault r => .fault r
    | .refused r => .refused r

end Sys2Proof.Machine
end

