-- ==== Sys2Proof/WellFormed.lean ====
section
/-! DEFINITION. Which instructions are well formed. The widths of `ch`, `mt`, `sp`, `addr` are in the types (R82);
what is left to check is that a `csr` operand is a register number of spec/10_state.md (R82) and that the data word of
STB holds a byte (R81: `wdata[31:8]` required to be 0). The block answers an ill-formed one with a refusal of its
own (R171, R172, R174). DESIGN CHOICE (log 13). -/

namespace Sys2Proof

/-- The 24 register numbers (R24 to R47). -/
def registerNumbers : List (BitVec 8) :=
  [0x00, 0x01, 0x02, 0x03, 0x04, 0x05, 0x06, 0x07, 0x08, 0x09, 0x0A, 0x0B, 0x0C] ++
  [0x10, 0x11, 0x12, 0x13] ++ [0x18, 0x19, 0x1A, 0x1B, 0x1C, 0x1D, 0x1E]

/-- A `csr` operand names a register (R82, R23). -/
def wfCsr (csr : BitVec 8) : Bool := registerNumbers.contains csr

/-- The data word of STB is a byte (R81, format S). -/
def wfStoreData (wdata : Word) : Bool := decide (wdata.toNat < 256)

/-- The well-formedness check of an instruction (R81, R82). -/
def Instr.wellFormed : Instr → Bool
  | .nop => true
  | .csrr csr => wfCsr csr
  | .csrw csr _ => wfCsr csr
  | .ldb _ _ => true
  | .stb _ _ wdata => wfStoreData wdata
  | .srst => true
  | .fenc _ => true
  | .ftx => true
  | .fdec => true
  | .henc _ _ => true
  | .hdec => true
  | .ienc _ _ => true
  | .idec => true
  | .sbeg _ => true
  | .snxt _ => true
  | .rbeg => true
  | .rpsh => true

end Sys2Proof
end

