-- ==== Sys2Proof/Safety.lean ====
section
/-! DEFINITION. What counts as a legal state and a safe run of the FCB, in the terms the statements use: the invariants
of spec/10_state.md R56, the two flows of spec/60_exceptions.md R190, the three kinds of read of spec/40_frame_codec.md
R103, and running a list of operations. -/

namespace Sys2Proof.Machine

/-- Perform operations one after another (R13, R67). -/
def execAll : List Instr → State → Result
  | [], s => .next s
  | i :: rest, s =>
    match exec i s with
    | .next t => execAll rest t
    | .fault r => .fault r
    | .refused r => .refused r

/-- R56 (1): `SK <= SN <= 65536` and `SN = ceil_div(SLEN, 61)`. -/
structure SplitInv (s : State) : Prop where
  sk_le_sn : s.sk.toNat ≤ s.sn.toNat
  sn_le : s.sn.toNat ≤ 65536
  sn_eq : s.sn.toNat = ceilDiv s.slen.toNat 61

/-- R56 (2) to (5): what the tracker registers say of each other. -/
structure TrackerInv (s : State) : Prop where
  rslen_le : s.rslen.toNat ≤ Config.bufcap
  rslen_packets : s.rpkts.toNat < 4294967295 → s.rslen.toNat ≤ 61 * s.rpkts.toNat
  packets_reads : s.rpkts.toNat ≤ s.rreads.toNat
  cause_phase : s.cause = .none ↔ s.phase = .idle ∨ s.phase = .active
  terminal : s.cause = .terminal → s.rlast = 0 ∧ 1 ≤ s.rpkts.toNat

/-- R56 (6): LOUT is a sequence of whole transmits, each `TXCMD`, a pair whose second byte is 0x40, and 64 bytes. -/
structure TraceInv (s : State) : Prop where
  whole : s.lout.length % 3 = 0
  first : ∀ j, 3 * j < s.lout.length → s.lout[3 * j]? = some Config.txcmd
  second : ∀ j, 3 * j < s.lout.length → ∃ ch, s.lout[3 * j + 1]? = some [ch, 0x40]
  third : ∀ j, 3 * j < s.lout.length → ∃ w, s.lout[3 * j + 2]? = some w ∧ w.length = 64

/-- R56 (8): the registers whose width admits more than their legal range hold a legal value; for the others the
width is the range. -/
structure RangeInv (s : State) : Prop where
  srclen_le : s.srclen.toNat ≤ Config.bufcap
  linlen_le : s.linlen.toNat ≤ Config.rxmax
  slen_le : s.slen.toNat ≤ Config.bufcap
  rlencap_le : s.rlencap.toNat ≤ Config.bufcap

/-- The invariants of R56 that speak of one state: (1) to (6) and (8). -/
structure Inv (s : State) : Prop where
  split : SplitInv s
  tracker : TrackerInv s
  trace : TraceInv s
  range : RangeInv s

/-- A memory in canonical form whose listed addresses lie below `size`. -/
def Memory.within (m : Memory) (size : Nat) : Prop := m.wf ∧ ∀ c ∈ m, c.1 < size

/-- The five memories are in canonical form and hold nothing outside their spaces (R60). -/
structure MemoryInv (s : State) : Prop where
  src : s.src.within Config.bufcap
  lin : s.lin.within Config.rxmax
  rsb : s.rsb.within Config.bufcap
  txf : s.txf.within 64
  rxf : s.rxf.within 64

/-- The operations of the inbound flow (R190, files 40, 41, 43). -/
def inboundOp : Instr → Bool
  | .fdec | .hdec | .idec | .rbeg | .rpsh => true
  | .nop | .csrr _ | .csrw _ _ | .ldb _ _ | .stb _ _ _ | .srst | .fenc _ | .ftx | .henc _ _ | .ienc _ _ | .sbeg _
  | .snxt _ => false

/-- The operations of the outbound flow (R190, files 40, 41, 42). -/
def outboundOp : Instr → Bool
  | .fenc _ | .ftx | .henc _ _ | .ienc _ _ | .sbeg _ | .snxt _ => true
  | .nop | .csrr _ | .csrw _ _ | .ldb _ _ | .stb _ _ _ | .srst | .fdec | .hdec | .idec | .rbeg | .rpsh => false

/-- The read in LIN starts with the receive marker (R102). -/
abbrev State.markerAt (s : State) : Prop := s.readByte .lin 0 = 0x23 ∧ s.readByte .lin 1 = 0x52

/-- The read in LIN yields a frame (R103). -/
abbrev State.hasFrame (s : State) : Prop :=
  (s.ctrl = 1 ∧ 68 ≤ s.linlen.toNat ∧ s.markerAt) ∨ (s.ctrl = 0 ∧ 64 ≤ s.linlen.toNat)

/-- The read in LIN is too short for a frame (R103, R107). -/
abbrev State.hasShortRead (s : State) : Prop :=
  s.linlen.toNat < 64 ∨ (s.ctrl = 1 ∧ s.linlen.toNat < 68 ∧ s.markerAt)

/-- The read in LIN is long enough and has a wrong marker (R102, R107). -/
abbrev State.hasBadMarker (s : State) : Prop := s.ctrl = 1 ∧ 64 ≤ s.linlen.toNat ∧ ¬ s.markerAt

/-- Where the payload of the read in LIN starts (R102, R103). -/
def State.payloadAt (s : State) : Nat := if s.ctrl = 1 then 4 else 0

/-- The read holds bytes beyond its frame (R101). -/
def State.hasExcess (s : State) : Bool := decide (s.payloadAt + 64 < s.linlen.toNat)

/-- Bits 6:0 of STATUS after a read was taken: `RXX` set when bytes were ignored (R25, R107). -/
def State.stickyAfterRead (s : State) : BitVec 7 := if s.hasExcess then s.sticky ||| 0x20 else s.sticky

/-- `RPLEN` after a read was taken (R35, R107). -/
def State.rplenAfterRead (s : State) : Byte := if s.ctrl = 1 then s.readByte .lin 2 else s.rplen

/-- `RRSSI` after a read was taken (R36, R107). -/
def State.rrssiAfterRead (s : State) : Byte := if s.ctrl = 1 then s.readByte .lin 3 else s.rrssi

/-- What the link delivers of a payload: with `ENV = 1` the marker and any two bytes in front of it (R102, R109). -/
def linkRead (ctrl : BitVec 1) (plen rssi : Byte) (payload : Bytes) : Bytes :=
  if ctrl = 1 then [0x23, 0x52, plen, rssi] ++ payload else payload

/-- What one RPSH that appended a packet, or discarded a read, leaves of the transfer: phase, cause, the flag bits it
sets, the response (the rows of R152's table). -/
structure TransferEnd where
  phase : Phase
  cause : Cause
  flags : BitVec 7
  code : Code
  rdata : Word
deriving DecidableEq, Repr

/-- The last rows of R152's table: the read cap is reached, or the transfer goes on. `reads` is the new RREADS. -/
def endByReads (rcap reads : Nat) : TransferEnd :=
  if rcap ≠ 0 ∧ rcap ≤ reads then
    { phase := .ended, cause := .readCap, flags := 0x04, code := .incompleteTransfer, rdata := 0x42 }
  else { phase := .active, cause := .none, flags := 0, code := .ok, rdata := 0x01 }

/-- The rows of R152's table for a packet that was appended: countdown 0, then the length cap, then the read cap.
`rslen` and `reads` are the new RSLEN and RREADS. -/
def endByPacket (countdown rslen rlencap rcap reads : Nat) : TransferEnd :=
  if countdown = 0 then { phase := .ended, cause := .terminal, flags := 0, code := .ok, rdata := 0x12 }
  else if rlencap ≤ rslen then
    { phase := .ended, cause := .lenCap, flags := 0x04, code := .incompleteTransfer, rdata := 0x52 }
  else endByReads rcap reads

/-- An operation that neither writes SRC nor begins another split (R144): an STB to SRC that R174 refuses writes
nothing. -/
def leavesSplit : Instr → Bool
  | .sbeg _ | .srst => false
  | .stb .src addr wdata => decide (Config.bufcap ≤ addr.toNat ∨ 256 ≤ wdata.toNat)
  | .stb .lin _ _ | .stb .rsb _ _ | .stb .fb _ _ | .nop | .csrr _ | .csrw _ _ | .ldb _ _ | .fenc _ | .ftx | .fdec
  | .henc _ _ | .hdec | .ienc _ _ | .idec | .snxt _ | .rbeg | .rpsh => true

/-- The operation is an SNXT. -/
def isSnxt : Instr → Bool
  | .snxt _ => true
  | .nop | .csrr _ | .csrw _ _ | .ldb _ _ | .stb _ _ _ | .srst | .fenc _ | .ftx | .fdec | .henc _ _ | .hdec
  | .ienc _ _ | .idec | .sbeg _ | .rbeg | .rpsh => false

/-- One read given to the tracker: `LDLIN b; RPSH` (R89, R158). -/
def pushOne (b : Bytes) : List Instr := ldlin b ++ [.rpsh]

/-- The numbers and values of the registers that read as themselves, zero-extended (R24, R26 to R46): all but STATUS and
RSTATE. -/
def State.plainRegisters (s : State) : List (BitVec 8 × Word) :=
  [(0x00, s.ctrl.setWidth 32), (0x02, s.srclen.setWidth 32), (0x03, s.linlen.setWidth 32), (0x04, s.taddr),
   (0x05, s.tcd.setWidth 32), (0x06, s.rxch.setWidth 32), (0x07, s.txch.setWidth 32), (0x08, s.raddr),
   (0x09, s.rmt.setWidth 32), (0x0A, s.rcd.setWidth 32), (0x0B, s.rplen.setWidth 32), (0x0C, s.rrssi.setWidth 32),
   (0x10, s.sn.setWidth 32), (0x11, s.sk.setWidth 32), (0x12, s.smt.setWidth 32), (0x13, s.slen.setWidth 32),
   (0x18, s.rcap.setWidth 32), (0x19, s.rlencap.setWidth 32), (0x1A, s.rslen.setWidth 32), (0x1B, s.rreads),
   (0x1C, s.rpkts), (0x1D, s.rlast.setWidth 32)]

/-- The registers with a legal range, and whether `v` is out of it (R172). -/
def illegalValues (v : Word) : List (BitVec 8 × Bool) :=
  [(0x00, decide (1 < v.toNat)), (0x02, decide (Config.bufcap < v.toNat)), (0x03, decide (Config.rxmax < v.toNat)),
   (0x05, decide (65535 < v.toNat)), (0x06, decide (15 < v.toNat)), (0x18, decide (65535 < v.toNat)),
   (0x19, decide (Config.bufcap < v.toNat))]

/-- The read-only registers of R172. -/
def readOnlyRegisters : List (BitVec 8) :=
  [0x07, 0x08, 0x09, 0x0A, 0x0B, 0x0C, 0x10, 0x11, 0x12, 0x13, 0x1A, 0x1B, 0x1C, 0x1D, 0x1E]

end Sys2Proof.Machine
end

