-- ==== Sys2Proof/Certificates/Slice0/Obligations.lean ====
section
/-! DEFINITION. The statements for the provers. Frames: a conclusion `t = { s with f := … }` says that every field not
named keeps its value; `… .wf` together with a statement of every byte fixes a memory. -/

open Sys2Proof Sys2Proof.Machine

/-! ### Encoding and the command port -/

/-- Every instruction, with every operand, is decoded from its encoding (R81 to R84). -/
def Obligations.DecodeEncodeAgree : Prop :=
  ∀ i : Instr, decode (encode i).1 (encode i).2 = .ok i

/-- A command that decodes is the encoding of what it decodes to, but for a data word the operation ignores (R80). -/
def Obligations.EncodeDecodeAgree : Prop :=
  ∀ (cmd wdata : Word) (i : Instr), decode cmd wdata = .ok i →
    (encode i).1 = cmd ∧ ((encode i).2 = wdata ∨ ∀ w, decode cmd w = .ok i)

/-- A command word decodes exactly when it is a well-formed instance of a row of R83, and of one row only. -/
def Obligations.DecodableWordsAreTheRows : Prop :=
  (∀ cmd wdata : Word, (∃ i, decode cmd wdata = .ok i) ↔ ∃ row ∈ opcodeMap, cmd &&& row.1 = row.2) ∧
  ∀ cmd : Word, ∀ r ∈ opcodeMap, ∀ q ∈ opcodeMap, cmd &&& r.1 = r.2 → cmd &&& q.1 = q.2 → r = q

/-- R84: an opcode outside the 17, then a reserved bit, are refused, each refusal setting `ILL`, answering 0 and changing
nothing else; what is left runs the operation's own rule. -/
def Obligations.CommandDecodingOrder : Prop :=
  ∀ (s : State) (up : Bool) (cmd wdata : Word) (rest : List Input), s.inputs = .command up cmd wdata :: rest →
    ((¬ ∃ row ∈ opcodeMap, fieldOp cmd = fieldOp row.2) →
      step s = .next { s with linkup := up, inputs := rest, sticky := s.sticky ||| 0x40,
                              responses := s.responses ++ [⟨.illegalOp, 0⟩] }) ∧
    ((∃ row ∈ opcodeMap, fieldOp cmd = fieldOp row.2) → (¬ ∃ row ∈ opcodeMap, cmd &&& row.1 = row.2) →
      step s = .next { s with linkup := up, inputs := rest, sticky := s.sticky ||| 0x40,
                              responses := s.responses ++ [⟨.rsvdNonzero, 0⟩] }) ∧
    ((∃ row ∈ opcodeMap, cmd &&& row.1 = row.2) →
      ∃ i, decode cmd wdata = .ok i ∧ step s = exec i { s with linkup := up, inputs := rest })

/-- Command words of the spec's examples (R105, R106, R125, R127, R142, R143, R153, R154, R171 to R174) decode to the
operations they stand for. -/
def Obligations.SpecWordsDecode : Prop :=
  decode 0x00000000 0 = .ok .nop ∧ decode 0x01180000 0 = .ok (.csrr 0x18) ∧
  decode 0x02040000 0x04030201 = .ok (.csrw 0x04 0x04030201) ∧ decode 0x0380003C 0 = .ok (.ldb .rsb 60) ∧
  decode 0x04400000 0x23 = .ok (.stb .lin 0 0x23) ∧ decode 0x10500000 0 = .ok (.fenc 5) ∧
  decode 0x20300005 0 = .ok (.henc 3 5) ∧ decode 0x22100002 0 = .ok (.ienc 1 2) ∧
  decode 0x30000009 0 = .ok (.sbeg 9) ∧ decode 0x31200000 0 = .ok (.snxt 2) ∧ decode 0x41000000 0 = .ok .rpsh

/-- A step performs the operation its command decodes to, with the `LINKUP` of that command, and takes the command off
the port. -/
def Obligations.StepRunsDecodedCommand : Prop :=
  ∀ (s : State) (up : Bool) (cmd wdata : Word) (rest : List Input) (i : Instr),
    s.inputs = .command up cmd wdata :: rest → decode cmd wdata = .ok i →
      step s = exec i { s with linkup := up, inputs := rest }

/-- The model's reading of R13 (log 9): with nothing presented a step changes nothing. -/
def Obligations.StepWithoutInputRests : Prop :=
  ∀ s : State, s.inputs = [] → step s = .next s

/-- The reset event and SRST have the same effect but for SRST's response (R200, R202, R175; the fields a reset keeps
are log 8's). -/
def Obligations.ResetEventEqualsSrst : Prop :=
  ∀ (s : State) (rest : List Input), s.inputs = .reset :: rest →
    ∃ t, step s = .next t ∧
      t = { State.reset with linkup := s.linkup, inputs := rest, responses := s.responses } ∧
      exec .srst { s with inputs := rest } = .next { t with responses := t.responses ++ [⟨.ok, 0⟩] }

/-- The reset values of R55. -/
def Obligations.ResetValues : Prop :=
  (∀ r : Reg, r ≠ .ctrl → r ≠ .status → r ≠ .rcap → r ≠ .rlencap → State.reset.readReg r = 0) ∧
  State.reset.readReg .ctrl = 1 ∧ State.reset.readReg .rcap = 10 ∧
  (State.reset.readReg .rlencap).toNat = Config.bufcap ∧ State.reset.sticky = 0 ∧
  State.reset.txfv = false ∧ State.reset.rxfv = false ∧ State.reset.lout = [] ∧
  ∀ sp a, State.reset.readByte sp a = 0

/-- Encoded commands presented one after another run as the operations one after another (R13, R67). -/
def Obligations.PresentedCommandsRun : Prop :=
  ∀ (ops : List Instr) (up : Bool) (s : State), ops ≠ [] →
    s.inputs = ops.map (fun i => .command up (encode i).1 (encode i).2) →
      Sys2Proof.core.run ops.length s = execAll ops { s with linkup := up, inputs := [] }

/-! ### Host access -/

/-- NOP answers OK and changes nothing (R170). -/
def Obligations.NopChangesNothing : Prop :=
  ∀ s : State, exec .nop s = .next { s with responses := s.responses ++ [⟨.ok, 0⟩] }

/-- CSRR answers the register, zero-extended, and changes nothing (R171, R23); STATUS has a statement of its own. -/
def Obligations.CsrrReadsEachRegister : Prop :=
  ∀ (s : State) (csr : BitVec 8) (v : Word),
    (csr, v) ∈ s.plainRegisters →
      exec (.csrr csr) s = .next { s with responses := s.responses ++ [⟨.ok, v⟩] }

/-- CSRR RSTATE answers PH in bits 1:0 and CAUSE in bits 6:4, every other bit 0 (R47, R171). -/
def Obligations.CsrrReadsTrackerState : Prop :=
  ∀ s : State, ∃ v : Word, exec (.csrr 0x1E) s = .next { s with responses := s.responses ++ [⟨.ok, v⟩] } ∧
    v.toNat = (match s.phase with | .idle => 0 | .active => 1 | .ended => 2) +
      16 * (match s.cause with | .none => 0 | .terminal => 1 | .short => 2 | .sentinel => 3 | .readCap => 4 | .lenCap => 5)

/-- CSRR STATUS: the sticky flags in bits 6:0, LINKUP, TXFV, RXFV and SACT in bits 16 to 19, every other bit 0 (R25,
R171). -/
def Obligations.CsrrReadsStatusBits : Prop :=
  ∀ s : State, ∃ v : Word, exec (.csrr 0x01) s = .next { s with responses := s.responses ++ [⟨.ok, v⟩] } ∧
    ∀ k, v.getLsbD k =
      if k < 7 then s.sticky.getLsbD k
      else if k = 16 then s.linkup
      else if k = 17 then s.txfv
      else if k = 18 then s.rxfv
      else if k = 19 then decide (s.sk.toNat < s.sn.toNat)
      else false

/-- CSRR and CSRW of a number that names no register are refused with BAD_CSR (R23, R85, R184). -/
def Obligations.UnlistedRegisterRefused : Prop :=
  ∀ (s : State) (csr : BitVec 8) (value : Word),
    csr ∉ registerNumbers →
    exec (.csrr csr) s =
      .next { s with sticky := s.sticky ||| 0x40, responses := s.responses ++ [⟨.badCsr, 0⟩] } ∧
    exec (.csrw csr value) s =
      .next { s with sticky := s.sticky ||| 0x40, responses := s.responses ++ [⟨.badCsr, 0⟩] }

/-- CSRW of a legal value to a register of class RW stores it, answers it, and changes nothing else (R172). -/
def Obligations.CsrwStoresLegalValue : Prop :=
  ∀ (s : State) (v : Word),
    (v.toNat ≤ 1 → ∃ t, exec (.csrw 0x00 v) s = .next t ∧ t.ctrl.toNat = v.toNat ∧
      t = { s with ctrl := t.ctrl, responses := s.responses ++ [⟨.ok, v⟩] }) ∧
    (v.toNat ≤ Config.bufcap → ∃ t, exec (.csrw 0x02 v) s = .next t ∧ t.srclen.toNat = v.toNat ∧
      t = { s with srclen := t.srclen, responses := s.responses ++ [⟨.ok, v⟩] }) ∧
    (v.toNat ≤ Config.rxmax → ∃ t, exec (.csrw 0x03 v) s = .next t ∧ t.linlen.toNat = v.toNat ∧
      t = { s with linlen := t.linlen, responses := s.responses ++ [⟨.ok, v⟩] }) ∧
    (∃ t, exec (.csrw 0x04 v) s = .next t ∧ t.taddr = v ∧
      t = { s with taddr := t.taddr, responses := s.responses ++ [⟨.ok, v⟩] }) ∧
    (v.toNat ≤ 65535 → ∃ t, exec (.csrw 0x05 v) s = .next t ∧ t.tcd.toNat = v.toNat ∧
      t = { s with tcd := t.tcd, responses := s.responses ++ [⟨.ok, v⟩] }) ∧
    (v.toNat ≤ 15 → ∃ t, exec (.csrw 0x06 v) s = .next t ∧ t.rxch.toNat = v.toNat ∧
      t = { s with rxch := t.rxch, responses := s.responses ++ [⟨.ok, v⟩] }) ∧
    (v.toNat ≤ 65535 → ∃ t, exec (.csrw 0x18 v) s = .next t ∧ t.rcap.toNat = v.toNat ∧
      t = { s with rcap := t.rcap, responses := s.responses ++ [⟨.ok, v⟩] }) ∧
    (v.toNat ≤ Config.bufcap → ∃ t, exec (.csrw 0x19 v) s = .next t ∧ t.rlencap.toNat = v.toNat ∧
      t = { s with rlencap := t.rlencap, responses := s.responses ++ [⟨.ok, v⟩] })

/-- CSRW of a value out of the legal range is refused with BAD_VALUE, and of a read-only register with READ_ONLY,
whatever the value (R172, R184, R185). -/
def Obligations.CsrwRefusals : Prop :=
  ∀ (s : State) (csr : BitVec 8) (v : Word),
    ((csr, true) ∈ illegalValues v →
      exec (.csrw csr v) s =
        .next { s with sticky := s.sticky ||| 0x40, responses := s.responses ++ [⟨.badValue, 0⟩] }) ∧
    (csr ∈ readOnlyRegisters →
      exec (.csrw csr v) s =
        .next { s with sticky := s.sticky ||| 0x40, responses := s.responses ++ [⟨.readOnly, 0⟩] })

/-- CSRW STATUS clears exactly the flags whose bit is 1 in `v[6:0]`, ignores `v[31:7]`, changes nothing else, and answers
STATUS as a following CSRR reads it (R25, R172, R188). -/
def Obligations.CsrwStatusClearsFlags : Prop :=
  ∀ (s : State) (v : Word), ∃ t w, exec (.csrw 0x01 v) s = .next t ∧
    (∀ k < 7, t.sticky.getLsbD k = (s.sticky.getLsbD k && !v.getLsbD k)) ∧
    t = { s with sticky := t.sticky, responses := s.responses ++ [⟨.ok, w⟩] } ∧
    exec (.csrr 0x01) t = .next { t with responses := t.responses ++ [⟨.ok, w⟩] }

/-- LDB answers the byte at the address, for every address of its space, and changes nothing; outside the space it is
refused with BAD_ADDR (R60, R61, R173). -/
def Obligations.LdbReadsByte : Prop :=
  ∀ (s : State) (addr : BitVec 22),
    (addr.toNat < Config.bufcap → exec (.ldb .src addr) s =
      .next { s with responses := s.responses ++ [⟨.ok, (s.src.byte addr.toNat).setWidth 32⟩] }) ∧
    (addr.toNat < Config.rxmax → exec (.ldb .lin addr) s =
      .next { s with responses := s.responses ++ [⟨.ok, (s.lin.byte addr.toNat).setWidth 32⟩] }) ∧
    (addr.toNat < Config.bufcap → exec (.ldb .rsb addr) s =
      .next { s with responses := s.responses ++ [⟨.ok, (s.rsb.byte addr.toNat).setWidth 32⟩] }) ∧
    (addr.toNat < 64 → exec (.ldb .fb addr) s =
      .next { s with responses := s.responses ++ [⟨.ok, (s.txf.byte addr.toNat).setWidth 32⟩] }) ∧
    (64 ≤ addr.toNat → addr.toNat < 128 → exec (.ldb .fb addr) s =
      .next { s with responses := s.responses ++ [⟨.ok, (s.rxf.byte (addr.toNat - 64)).setWidth 32⟩] }) ∧
    ∀ sp, (match sp with
        | .src => Config.bufcap | .lin => Config.rxmax | .rsb => Config.bufcap | .fb => 128) ≤ addr.toNat →
      exec (.ldb sp addr) s =
        .next { s with sticky := s.sticky ||| 0x40, responses := s.responses ++ [⟨.badAddr, 0⟩] }

/-- STB stores one byte of SRC or LIN: that byte and no other byte of any space changes (R174, R62). -/
def Obligations.StbStoresOneByte : Prop :=
  ∀ (s : State) (addr : BitVec 22) (w : Word), w.toNat < 256 →
    (addr.toNat < Config.bufcap → s.src.wf → ∃ t, exec (.stb .src addr w) s = .next t ∧ t.src.wf ∧
      (∀ a, t.src.byte a = if a = addr.toNat then w.setWidth 8 else s.src.byte a) ∧
      t = { s with src := t.src, responses := s.responses ++ [⟨.ok, w⟩] }) ∧
    (addr.toNat < Config.rxmax → s.lin.wf → ∃ t, exec (.stb .lin addr w) s = .next t ∧ t.lin.wf ∧
      (∀ a, t.lin.byte a = if a = addr.toNat then w.setWidth 8 else s.lin.byte a) ∧
      t = { s with lin := t.lin, responses := s.responses ++ [⟨.ok, w⟩] })

/-- STB's refusals and their order: READ_ONLY, then BAD_ADDR, then BAD_VALUE (R174, R185). -/
def Obligations.StbRefusals : Prop :=
  ∀ (s : State) (addr : BitVec 22) (w : Word),
    (∀ sp, sp = .rsb ∨ sp = .fb → exec (.stb sp addr w) s =
      .next { s with sticky := s.sticky ||| 0x40, responses := s.responses ++ [⟨.readOnly, 0⟩] }) ∧
    (∀ sp, sp = .src ∧ Config.bufcap ≤ addr.toNat ∨ sp = .lin ∧ Config.rxmax ≤ addr.toNat → exec (.stb sp addr w) s =
      .next { s with sticky := s.sticky ||| 0x40, responses := s.responses ++ [⟨.badAddr, 0⟩] }) ∧
    (∀ sp, sp = .src ∧ addr.toNat < Config.bufcap ∨ sp = .lin ∧ addr.toNat < Config.rxmax → 256 ≤ w.toNat →
      exec (.stb sp addr w) s =
        .next { s with sticky := s.sticky ||| 0x40, responses := s.responses ++ [⟨.badValue, 0⟩] })

/-- LDSRC and LDLIN (R49, R89): the bytes of `b` stand at the start of SRC or LIN, the bytes beyond stay, the length
register holds `|b|`, every operation of the sequence answers OK, and nothing else changes. -/
def Obligations.LoadsDeliverBytes : Prop :=
  ∀ (b : Bytes) (s : State),
    (b.length ≤ Config.bufcap → s.src.wf → ∃ t, runSequence (ldsrc b) s = .next t ∧ t.src.wf ∧
      (∀ a, t.src.byte a = if a < b.length then byteAt b a else s.src.byte a) ∧ t.srclen.toNat = b.length ∧
      t = { s with src := t.src, srclen := t.srclen,
                   responses := s.responses ++ b.map (fun v => (⟨.ok, v.setWidth 32⟩ : Response)) ++
                     [⟨.ok, BitVec.ofNat 32 b.length⟩] }) ∧
    (b.length ≤ Config.rxmax → s.lin.wf → ∃ t, runSequence (ldlin b) s = .next t ∧ t.lin.wf ∧
      (∀ a, t.lin.byte a = if a < b.length then byteAt b a else s.lin.byte a) ∧ t.linlen.toNat = b.length ∧
      t = { s with lin := t.lin, linlen := t.linlen,
                   responses := s.responses ++ b.map (fun v => (⟨.ok, v.setWidth 32⟩ : Response)) ++
                     [⟨.ok, BitVec.ofNat 32 b.length⟩] })

/-- SRST gives every element of R20 its reset value and answers OK (R175; the fields it keeps are log 8's). -/
def Obligations.SrstResets : Prop :=
  ∀ s : State, exec .srst s =
    .next { State.reset with linkup := s.linkup, inputs := s.inputs, responses := s.responses ++ [⟨.ok, 0⟩] }

/-! ### Frame codec -/

/-- FENC (R105, R100) with the padding property R108: TXF is the first SRCLEN bytes of SRC, then zeros. -/
def Obligations.FencEncodesPayload : Prop :=
  ∀ (ch : BitVec 4) (s : State), s.txf.wf → s.srclen.toNat ≤ 64 →
    ∃ t, exec (.fenc ch) s = .next t ∧ t.txf.wf ∧
      (∀ a, t.txf.byte a = if a < s.srclen.toNat then s.src.byte a else if a < 64 then 0 else s.txf.byte a) ∧
      t = { s with txf := t.txf, txch := ch, txfv := true,
                   responses := s.responses ++ [⟨.ok, s.srclen.setWidth 32⟩] }

/-- FENC above 64 bytes, HENC above 59, IENC above 61: PayloadTooLarge with the length that did not fit, nothing changed
but PTL (R105, R125, R127, R183). -/
def Obligations.LongPayloadRejected : Prop :=
  ∀ (ch : BitVec 4) (mt : Byte) (s : State), s.srclen.toNat ≤ Config.bufcap →
    (64 < s.srclen.toNat → exec (.fenc ch) s =
      .next { s with sticky := s.sticky ||| 0x02,
                     responses := s.responses ++ [⟨.payloadTooLarge, BitVec.ofNat 32 s.srclen.toNat⟩] }) ∧
    (59 < s.srclen.toNat → exec (.henc ch mt) s =
      .next { s with sticky := s.sticky ||| 0x02,
                     responses := s.responses ++ [⟨.payloadTooLarge, BitVec.ofNat 32 (5 + s.srclen.toNat)⟩] }) ∧
    (61 < s.srclen.toNat → exec (.ienc ch mt) s =
      .next { s with sticky := s.sticky ||| 0x02,
                     responses := s.responses ++ [⟨.payloadTooLarge, BitVec.ofNat 32 (3 + s.srclen.toNat)⟩] })

/-- FTX appends the three writes of R104 to LOUT and changes nothing else (R106). -/
def Obligations.FtxSendsThreeWrites : Prop :=
  ∀ s : State, s.txfv = true → s.linkup = true →
    ∃ w : Bytes, w.length = 64 ∧ (∀ i < 64, w[i]? = some (s.readByte .fb i)) ∧
      exec .ftx s = .next { s with lout := s.lout ++ [Config.txcmd, [s.txch.setWidth 8, 0x40], w],
                                   responses := s.responses ++ [⟨.ok, 64⟩] }

/-- FTX, FDEC and RPSH against a link that is down: LinkUnavailable, nothing changed but LNA (R106, R107, R154, R183). -/
def Obligations.LinkDownFails : Prop :=
  ∀ (i : Instr) (s : State), s.linkup = false →
    (i = .ftx ∧ s.txfv = true) ∨ i = .fdec ∨ (i = .rpsh ∧ s.phase = .active) →
      exec i s = .next { s with sticky := s.sticky ||| 0x08, responses := s.responses ++ [⟨.linkUnavailable, 0⟩] }

/-- FTX before any encode, HDEC and IDEC before any deframe: NO_FRAME (R106, R126, R128, R184). -/
def Obligations.NoFrameRefused : Prop :=
  ∀ (i : Instr) (s : State), (i = .ftx ∧ s.txfv = false) ∨ (i = .hdec ∧ s.rxfv = false) ∨ (i = .idec ∧ s.rxfv = false) →
    exec i s = .next { s with sticky := s.sticky ||| 0x40, responses := s.responses ++ [⟨.noFrame, 0⟩] }

/-- FDEC of a read that holds a frame: the payload goes to RXF, with `ENV = 1` RPLEN and RRSSI are stored, bytes beyond
the frame set RXX (R101 to R103, R107). -/
def Obligations.FdecTakesFrame : Prop :=
  ∀ s : State, s.linkup = true → s.linlen.toNat ≤ Config.rxmax → s.rxf.wf → s.hasFrame →
    ∃ t, exec .fdec s = .next t ∧ t.rxf.wf ∧
      (∀ a, t.rxf.byte a = if a < 64 then s.lin.byte (s.payloadAt + a) else s.rxf.byte a) ∧
      t = { s with rxf := t.rxf, rxfv := true, rplen := s.rplenAfterRead, rrssi := s.rrssiAfterRead,
                   sticky := s.stickyAfterRead, responses := s.responses ++ [⟨.ok, 64⟩] }

/-- FDEC of a read that is too short or has a wrong marker: FrameTooShort with LINLEN, or BadMarker with the two bytes
found; nothing changed but the flag (R107, R183). -/
def Obligations.FdecRejectsRead : Prop :=
  ∀ s : State, s.linkup = true → s.linlen.toNat ≤ Config.rxmax →
    (s.hasShortRead → exec .fdec s =
      .next { s with sticky := s.sticky ||| 0x01,
                     responses := s.responses ++ [⟨.frameTooShort, s.linlen.setWidth 32⟩] }) ∧
    (s.hasBadMarker → exec .fdec s =
      .next { s with sticky := s.sticky ||| 0x10,
                     responses := s.responses ++ [⟨.badMarker,
                       BitVec.ofNat 32 ((s.lin.byte 0).toNat + 256 * (s.lin.byte 1).toNat)⟩] })

/-- Loop-back (R109): the third write of a transmit, delivered as a read with any two envelope bytes (`ENV = 1`) or bare
(`ENV = 0`), is deframed to the frame that was sent, and its first SRCLEN bytes are the payload given to FENC. -/
def Obligations.LoopBackReturnsFrame : Prop :=
  ∀ (ch : BitVec 4) (plen rssi : Byte) (s : State), MemoryInv s → s.srclen.toNat ≤ 64 → s.linkup = true →
    ∃ t w u, execAll [.fenc ch, .ftx] s = .next t ∧ t.lout[s.lout.length + 2]? = some w ∧
      execAll (ldlin (linkRead s.ctrl plen rssi w) ++ [.fdec]) t = .next u ∧
      (∀ i < 64, u.readByte .fb (64 + i) = t.readByte .fb i ∧ w[i]? = some (t.readByte .fb i)) ∧
      (∀ i < s.srclen.toNat, u.readByte .fb (64 + i) = s.readByte .src i) ∧
      u.rxfv = true ∧ (s.ctrl = 1 → u.rplen = plen ∧ u.rrssi = rssi)

/-! ### Packet serializer and deserializer -/

/-- HENC lays out address, type and body and encodes them as a frame (R120, R125). -/
def Obligations.HencBuildsHeader : Prop :=
  ∀ (ch : BitVec 4) (mt : Byte) (s : State), s.txf.wf → s.srclen.toNat ≤ 59 →
    ∃ t, exec (.henc ch mt) s = .next t ∧ t.txf.wf ∧
      (∀ a, t.txf.byte a =
        if a < 4 then s.taddr.extractLsb' (8 * a) 8
        else if a = 4 then mt
        else if a < 5 + s.srclen.toNat then s.src.byte (a - 5)
        else if a < 64 then 0 else s.txf.byte a) ∧
      t = { s with txf := t.txf, txch := ch, txfv := true,
                   responses := s.responses ++ [⟨.ok, BitVec.ofNat 32 (5 + s.srclen.toNat)⟩] }

/-- IENC lays out countdown (low byte first), type and chunk and encodes them as a frame (R122, R127). -/
def Obligations.IencBuildsPacket : Prop :=
  ∀ (ch : BitVec 4) (mt : Byte) (s : State), s.txf.wf → s.srclen.toNat ≤ 61 →
    ∃ t, exec (.ienc ch mt) s = .next t ∧ t.txf.wf ∧
      (∀ a, t.txf.byte a =
        if a < 2 then s.tcd.extractLsb' (8 * a) 8
        else if a = 2 then mt
        else if a < 3 + s.srclen.toNat then s.src.byte (a - 3)
        else if a < 64 then 0 else s.txf.byte a) ∧
      t = { s with txf := t.txf, txch := ch, txfv := true,
                   responses := s.responses ++ [⟨.ok, BitVec.ofNat 32 (3 + s.srclen.toNat)⟩] }

/-- HDEC: RADDR is the first four payload bytes, the first in bits 7:0, RMT is payload byte 4 (R71, R121, R126). -/
def Obligations.HdecParsesHeader : Prop :=
  ∀ s : State, s.rxfv = true →
    ∃ t, exec .hdec s = .next t ∧ (∀ i < 4, t.raddr.extractLsb' (8 * i) 8 = s.readByte .fb (64 + i)) ∧
      t.rmt = s.readByte .fb 68 ∧
      t = { s with raddr := t.raddr, rmt := t.rmt, responses := s.responses ++ [⟨.ok, t.raddr⟩] }

/-- IDEC: RCD is payload byte 0 plus 256 times payload byte 1, RMT is payload byte 2 (R123, R128). -/
def Obligations.IdecParsesPacket : Prop :=
  ∀ s : State, s.rxfv = true →
    ∃ t, exec .idec s = .next t ∧
      t.rcd.toNat = (s.readByte .fb 64).toNat + 256 * (s.readByte .fb 65).toNat ∧ t.rmt = s.readByte .fb 66 ∧
      t = { s with rcd := t.rcd, rmt := t.rmt, responses := s.responses ++ [⟨.ok, t.rcd.setWidth 32⟩] }

/-- The round trips of R129, both layouts, both directions. -/
def Obligations.LayoutsRoundTrip : Prop :=
  (∀ (a : Bytes) (mt : Byte) (body : Bytes), a.length = 4 → body.length ≤ 59 →
    headerParse (pad 64 (headerPayload a mt body)) = (a, mt, pad 59 body)) ∧
  (∀ (cd : BitVec 16) (mt : Byte) (chunk : Bytes), chunk.length ≤ 61 →
    infoParse (pad 64 (infoPayload cd mt chunk)) = (cd, mt, pad 61 chunk)) ∧
  ∀ p : Bytes, p.length = 64 →
    pad 64 (headerPayload (headerParse p).1 (headerParse p).2.1 (headerParse p).2.2) = p ∧
    pad 64 (infoPayload (infoParse p).1 (infoParse p).2.1 (infoParse p).2.2) = p

/-- MtClassify under any legal table is the inverse of the table, and fails on a byte that is no code (R124). -/
def Obligations.MessageTypesClassified : Prop :=
  ∀ mtcode : MessageType → Byte, mtcodeLegal mtcode →
    (∀ b t, mtClassify mtcode b = some t ↔ mtcode t = b) ∧ mtClassify mtcode 6 = some .pong

/-! ### Splitter -/

/-- SBEG latches SRCLEN and the type, sets SK to 0 and SN to the least `n` with `61 * n >= SRCLEN` (R9, R142). -/
def Obligations.SbegBeginsSplit : Prop :=
  ∀ (mt : Byte) (s : State),
    ∃ t, exec (.sbeg mt) s = .next t ∧ s.srclen.toNat ≤ 61 * t.sn.toNat ∧
      (∀ q, s.srclen.toNat ≤ 61 * q → t.sn.toNat ≤ q) ∧
      t = { s with slen := s.srclen, sn := t.sn, sk := 0, smt := mt,
                   responses := s.responses ++ [⟨.ok, t.sn.setWidth 32⟩] }

/-- SNXT with a split active: the next packet of the split stands in TXF, cut from SRC as it is now against SLEN
(R38, R122, R143). -/
def Obligations.SnxtProducesPacket : Prop :=
  ∀ (ch : BitVec 4) (s : State), SplitInv s → s.slen.toNat ≤ Config.bufcap → s.txf.wf → s.sk.toNat < s.sn.toNat →
    ∃ t, exec (.snxt ch) s = .next t ∧ t.txf.wf ∧
      (t.txf.byte 0).toNat + 256 * (t.txf.byte 1).toNat = s.sn.toNat - 1 - s.sk.toNat ∧ t.txf.byte 2 = s.smt ∧
      (∀ j < 61, t.txf.byte (3 + j) =
        if 61 * s.sk.toNat + j < s.slen.toNat then s.src.byte (61 * s.sk.toNat + j) else 0) ∧
      (∀ a, 64 ≤ a → t.txf.byte a = s.txf.byte a) ∧ t.sk.toNat = s.sk.toNat + 1 ∧
      t = { s with txf := t.txf, txch := ch, txfv := true, sk := t.sk,
                   responses := s.responses ++ [⟨.ok, BitVec.ofNat 32 (s.sn.toNat - 1 - s.sk.toNat)⟩] }

/-- SNXT with no split active: NOT_ACTIVE (R143, R184). -/
def Obligations.SnxtRefusedWithoutSplit : Prop :=
  ∀ (ch : BitVec 4) (s : State), s.sn.toNat ≤ s.sk.toNat →
    exec (.snxt ch) s = .next { s with sticky := s.sticky ||| 0x40, responses := s.responses ++ [⟨.notActive, 0⟩] }

/-- Split (R140, R141): the countdowns fall from `n - 1` to 0, every chunk but the last has 61 bytes, the last has the
rest, and the chunks in order are the contents. -/
def Obligations.SplitCountsDown : Prop :=
  ∀ (mt : Byte) (c : Bytes),
    ((split mt c).map (·.countdown) = (List.range (ceilDiv c.length 61)).reverse) ∧
    (∀ p ∈ split mt c, p.mt = mt ∧ (p.countdown ≠ 0 → p.chunk.length = 61) ∧
      (p.countdown = 0 → p.chunk.length = c.length - 61 * (ceilDiv c.length 61 - 1) ∧ 1 ≤ p.chunk.length ∧
        p.chunk.length ≤ 61)) ∧
    (split mt c).flatMap (·.chunk) = c

/-- R144: after SBEG, with SRC not written and no other split begun, the j-th SNXT leaves packet `j - 1` of Split in TXF
and answers its countdown; with an FTX after each SNXT, LOUT receives the packets in descending countdown order. -/
def Obligations.SplitRunAgreesWithSplit : Prop :=
  (∀ (mt : Byte) (ch : BitVec 4) (between : List Instr) (s t : State),
    s.srclen.toNat ≤ Config.bufcap → s.txf.wf → (∀ i ∈ between, leavesSplit i = true) →
    between.countP isSnxt < ceilDiv s.srclen.toNat 61 → execAll (.sbeg mt :: between ++ [.snxt ch]) s = .next t →
      ∃ p rs, (split mt (s.src.span 0 s.srclen.toNat))[between.countP isSnxt]? = some p ∧ t.txFrame = p.payload ∧
        t.responses = rs ++ [⟨.ok, BitVec.ofNat 32 (ceilDiv s.srclen.toNat 61 - 1 - between.countP isSnxt)⟩]) ∧
  ∀ (mt : Byte) (ch : BitVec 4) (s : State), s.srclen.toNat ≤ Config.bufcap → s.txf.wf → s.linkup = true →
    ∃ t, execAll (.sbeg mt :: sendPackets ch (ceilDiv s.srclen.toNat 61)) s = .next t ∧
      t.lout = s.lout ++ (split mt (s.src.span 0 s.srclen.toNat)).flatMap
        (fun p => [Config.txcmd, [ch.setWidth 8, 0x40], p.payload])

/-! ### Reassembly -/

/-- RBEG empties the buffer's length and clears the tracker; RSB and everything else stay (R153). -/
def Obligations.RbegBeginsTransfer : Prop :=
  ∀ s : State, exec .rbeg s =
    .next { s with rslen := 0, rreads := 0, rpkts := 0, rlast := 0, phase := .active, cause := .none,
                   responses := s.responses ++ [⟨.ok, 0⟩] }

/-- RPSH outside the phase ACTIVE: NOT_ACTIVE (R152, R154, R184). -/
def Obligations.RpshRefusedUnlessActive : Prop :=
  ∀ s : State, s.phase = .idle ∨ s.phase = .ended →
    exec .rpsh s = .next { s with sticky := s.sticky ||| 0x40, responses := s.responses ++ [⟨.notActive, 0⟩] }

/-- RPSH of a read too short: the transfer ends SHORT with OK, the read is counted, FTS is set (R154). -/
def Obligations.RpshShortReadEnds : Prop :=
  ∀ s : State, s.phase = .active → s.linkup = true → s.linlen.toNat ≤ Config.rxmax → s.hasShortRead →
    ∃ t, exec .rpsh s = .next t ∧ t.rreads.toNat = min (s.rreads.toNat + 1) 4294967295 ∧
      t = { s with rreads := t.rreads, sticky := s.sticky ||| 0x01, phase := .ended, cause := .short,
                   responses := s.responses ++ [⟨.ok, 0x22⟩] }

/-- RPSH of a read with a wrong marker: discarded, the read is counted, BMK is set, and the transfer goes on unless the
read cap is reached (R152, R154). -/
def Obligations.RpshBadMarkerDiscards : Prop :=
  ∀ s : State, s.phase = .active → s.cause = .none → s.linkup = true → s.linlen.toNat ≤ Config.rxmax →
    s.hasBadMarker →
    ∃ t, exec .rpsh s = .next t ∧ t.rreads.toNat = min (s.rreads.toNat + 1) 4294967295 ∧
      t = { s with rreads := t.rreads,
                   sticky := s.sticky ||| 0x10 ||| (endByReads s.rcap.toNat t.rreads.toNat).flags,
                   phase := (endByReads s.rcap.toNat t.rreads.toNat).phase,
                   cause := (endByReads s.rcap.toNat t.rreads.toNat).cause,
                   responses := s.responses ++ [⟨(endByReads s.rcap.toNat t.rreads.toNat).code,
                     (endByReads s.rcap.toNat t.rreads.toNat).rdata⟩] }

/-- RPSH of a read that holds a frame (R154): RXF takes the payload; a sentinel ends the transfer unparsed; any other
payload is parsed and its chunk appended up to the length cap, and countdown 0, length cap and read cap are tested in
this order. -/
def Obligations.RpshTakesFrame : Prop :=
  ∀ s : State, s.phase = .active → s.cause = .none → s.linkup = true → s.linlen.toNat ≤ Config.rxmax → s.hasFrame →
    s.rslen.toNat ≤ Config.bufcap → s.rlencap.toNat ≤ Config.bufcap → MemoryInv s →
    ∃ t, exec .rpsh s = .next t ∧ t.rxf.wf ∧
      (∀ a, t.rxf.byte a = if a < 64 then s.lin.byte (s.payloadAt + a) else s.rxf.byte a) ∧
      t.rreads.toNat = min (s.rreads.toNat + 1) 4294967295 ∧
      if Config.sent (s.lin.span s.payloadAt 64) = true then
        t = { s with rxf := t.rxf, rxfv := true, rplen := s.rplenAfterRead, rrssi := s.rrssiAfterRead,
                     sticky := s.stickyAfterRead, rreads := t.rreads, phase := .ended, cause := .sentinel,
                     responses := s.responses ++ [⟨.ok, 0x32⟩] }
      else
        t.rcd.toNat = (s.lin.byte s.payloadAt).toNat + 256 * (s.lin.byte (s.payloadAt + 1)).toNat ∧
        t.rslen.toNat = s.rslen.toNat + min 61 (s.rlencap.toNat - s.rslen.toNat) ∧
        t.rpkts.toNat = min (s.rpkts.toNat + 1) 4294967295 ∧ t.rsb.wf ∧
        (∀ a, t.rsb.byte a = if s.rslen.toNat ≤ a ∧ a < t.rslen.toNat
          then s.lin.byte (s.payloadAt + 3 + (a - s.rslen.toNat)) else s.rsb.byte a) ∧
        ∃ e, e = endByPacket t.rcd.toNat t.rslen.toNat s.rlencap.toNat s.rcap.toNat t.rreads.toNat ∧
          t = { s with rxf := t.rxf, rxfv := true, rplen := s.rplenAfterRead, rrssi := s.rrssiAfterRead,
                       sticky := s.stickyAfterRead ||| e.flags, rreads := t.rreads, rcd := t.rcd,
                       rmt := s.lin.byte (s.payloadAt + 2), rlast := t.rcd, rpkts := t.rpkts, rslen := t.rslen,
                       rsb := t.rsb, phase := e.phase, cause := e.cause,
                       responses := s.responses ++ [⟨e.code, e.rdata⟩] }

/-- The only moves of the tracker (R152): RBEG to ACTIVE, SRST to IDLE, RPSH from ACTIVE with the link up to ENDED with a
cause; every other operation leaves phase and cause. -/
def Obligations.TrackerMoves : Prop :=
  ∀ (i : Instr) (s t : State), exec i s = .next t →
    (t.phase = s.phase ∧ t.cause = s.cause) ∨
    (i = .rbeg ∧ t.phase = .active ∧ t.cause = .none) ∨
    (i = .srst ∧ t.phase = .idle ∧ t.cause = .none) ∨
    (i = .rpsh ∧ s.phase = .active ∧ s.linkup = true ∧ t.phase = .ended ∧ t.cause ≠ .none)

/-- R158, loss-free transfer: after RBEG the first `j` packets of Split, each delivered as one read and pushed, either
include a sentinel payload or leave the tracker with `j` reads and `j` packets, active (`j < n`) or ended TERMINAL
(`j = n`), and the contents so far, padded with zeros and cut at the length cap, in RSB. -/
def Obligations.LossFreeTransferReassembles : Prop :=
  ∀ (mt : Byte) (c : Bytes) (env : InfoPacket → Byte × Byte) (j : Nat) (s : State),
    MemoryInv s → s.linkup = true → s.rlencap.toNat ≤ Config.bufcap → c.length ≤ 3997696 →
    (s.rcap = 0 ∨ ceilDiv c.length 61 ≤ s.rcap.toNat) → 61 * (ceilDiv c.length 61 - 1) + 1 ≤ s.rlencap.toNat →
    1 ≤ j → j ≤ ceilDiv c.length 61 →
    (∃ p ∈ (split mt c).take j, Config.sent p.payload = true) ∨
    ∃ t rs, execAll (.rbeg :: ((split mt c).take j).flatMap
          (fun p => pushOne (linkRead s.ctrl (env p).1 (env p).2 p.payload))) s = .next t ∧
      t.responses = rs ++ [⟨.ok, if j = ceilDiv c.length 61 then 0x12 else 0x01⟩] ∧
      t.rreads.toNat = j ∧ t.rpkts.toNat = j ∧ t.rlast.toNat = ceilDiv c.length 61 - j ∧
      t.rslen.toNat = min (61 * j) s.rlencap.toNat ∧
      t.rsb.span 0 t.rslen.toNat =
        (c ++ zeros (61 * ceilDiv c.length 61 - c.length)).take (min (61 * j) s.rlencap.toNat)

/-- R151: parsing and concatenating the packets of a split gives the contents and the zero padding of the last chunk. -/
def Obligations.ReassembleSplitRoundTrip : Prop :=
  ∀ (mt : Byte) (c : Bytes), c.length ≤ 3997696 →
    concat ((split mt c).map (fun p => infoParse p.payload)) =
      c ++ zeros (61 * ceilDiv c.length 61 - c.length) ∧
    (concat ((split mt c).map (fun p => infoParse p.payload))).length = 61 * ceilDiv c.length 61 ∧
    61 * ceilDiv c.length 61 - c.length ≤ 60 ∧
    (concat ((split mt c).map (fun p => infoParse p.payload))).take c.length = c

/-! ### The whole machine -/

/-- Every operation that answers returns exactly one response, whose code is never one of those reserved for other
components, and leaves the port and LINKUP alone (R13, R180, R182). -/
def Obligations.OneResponsePerOperation : Prop :=
  ∀ (i : Instr) (s t : State), exec i s = .next t →
    (∃ c d, t.responses = s.responses ++ [⟨c, d⟩] ∧ c.num.toNat ∉ [0x03, 0x04, 0x05, 0x07, 0x08]) ∧
    t.inputs = s.inputs ∧ t.linkup = s.linkup

/-- Whatever the operation: a refusal (a code of 0x20 or above) answers 0, sets ILL and changes nothing else (R181,
R184). -/
def Obligations.RefusalChangesNothing : Prop :=
  ∀ (i : Instr) (s t : State) (c : Code) (d : Word), exec i s = .next t → t.responses = s.responses ++ [⟨c, d⟩] →
    0x20 ≤ c.num.toNat → d = 0 ∧ t = { s with sticky := s.sticky ||| 0x40, responses := t.responses }

/-- Whatever the operation but RPSH: an error (a code of 0x01 to 0x10) sets its own flag and changes nothing else (R180,
R181). -/
def Obligations.ErrorChangesItsFlagOnly : Prop :=
  ∀ (i : Instr) (s t : State) (c : Code) (d : Word), i ≠ .rpsh → exec i s = .next t →
    t.responses = s.responses ++ [⟨c, d⟩] → 0x01 ≤ c.num.toNat → c.num.toNat ≤ 0x10 →
      (c, t.sticky) ∈ [(Code.frameTooShort, s.sticky ||| 0x01), (Code.payloadTooLarge, s.sticky ||| 0x02),
        (Code.linkUnavailable, s.sticky ||| 0x08), (Code.badMarker, s.sticky ||| 0x10)] ∧
      t = { s with sticky := t.sticky, responses := t.responses }

/-- A sticky flag stays set until CSRW STATUS or a reset, TXFV and RXFV until a reset (R25, R188, R56 (7)). -/
def Obligations.FlagsAndValidBitsPersist : Prop :=
  ∀ (i : Instr) (s t : State), exec i s = .next t → i ≠ .srst →
    ((∀ v, i ≠ .csrw 0x01 v) → ∀ k, s.sticky.getLsbD k = true → t.sticky.getLsbD k = true) ∧
    (s.txfv = true → t.txfv = true) ∧ (s.rxfv = true → t.rxfv = true)

/-- Who writes which buffer, SRST apart (R62, R48, R49, R52, R53). -/
def Obligations.BufferWriters : Prop :=
  ∀ (i : Instr) (s t : State), exec i s = .next t → i ≠ .srst →
    (t.src = s.src ∨ ∃ a w, i = .stb .src a w) ∧ (t.lin = s.lin ∨ ∃ a w, i = .stb .lin a w) ∧
    (t.rsb = s.rsb ∨ i = .rpsh) ∧ (t.rxf = s.rxf ∨ i = .fdec ∨ i = .rpsh) ∧
    (t.txf = s.txf ∨ (∃ ch, i = .fenc ch) ∨ (∃ ch mt, i = .henc ch mt) ∨ (∃ ch mt, i = .ienc ch mt) ∨
      ∃ ch, i = .snxt ch) ∧
    (t.lout = s.lout ∨ i = .ftx)

/-- R190: an operation of the inbound flow and one of the outbound flow give the same state in either order, each with
the same response. -/
def Obligations.FlowsCommute : Prop :=
  ∀ (i o : Instr) (s t u : State), inboundOp i = true → outboundOp o = true →
    exec i s = .next t → exec o t = .next u →
    ∃ t' u' ri ro, exec o s = .next t' ∧ exec i t' = .next u' ∧
      u.responses = s.responses ++ [ri, ro] ∧ u'.responses = s.responses ++ [ro, ri] ∧
      { u' with responses := u.responses } = u

/-- The invariants of R56 (1) to (6) and (8) are kept by every step. -/
def Obligations.StepKeepsInvariant : Prop :=
  ∀ s t : State, Inv s → step s = .next t → Inv t

/-- The reset state has the invariants of R56 and canonical memories. -/
def Obligations.ResetHasInvariant : Prop :=
  Inv State.reset ∧ MemoryInv State.reset

/-- Every step keeps every memory in canonical form and inside its space (R60, R61). -/
def Obligations.StepKeepsMemoryForm : Prop :=
  ∀ s t : State, MemoryInv s → step s = .next t → MemoryInv t

/-- From a state with the invariants of R56 every step answers: no command stops the block, and the block's own accesses
stay in their spaces (R61, R181). -/
def Obligations.LegalStateNeverStops : Prop :=
  ∀ s : State, Inv s → ∃ t, step s = .next t
end

