-- ==== Sys2Proof/Laws/Bytes.lean ====
section
/-! SUPPORT. Lemmas about byte strings, byte order and padding (spec/00_scope.md R9 to R11). -/

namespace Sys2Proof.Machine

theorem bufcap_ge : 10000 ≤ Config.bufcap := by unfold Config.bufcap; omega

theorem bufcap_le : Config.bufcap ≤ 3997696 := by
  have := Config.bufExtra.isLt
  unfold Config.bufcap; omega

theorem rxmax_ge : 68 ≤ Config.rxmax := by unfold Config.rxmax; omega

theorem rxmax_le : Config.rxmax ≤ 4194303 := by
  have := Config.rxExtra.isLt
  unfold Config.rxmax; omega

@[simp] theorem length_txcmd : Config.txcmd.length = 3 := rfl

@[simp] theorem length_zeros (n : Nat) : (zeros n).length = n := by simp [zeros]

@[simp] theorem byteAt_zeros (n i : Nat) : byteAt (zeros n) i = 0 := by
  simp only [byteAt, zeros, List.getD_eq_getElem?_getD, List.getElem?_replicate]
  split <;> rfl

theorem length_pad (n : Nat) (s : Bytes) : (pad n s).length = max n s.length := by
  simp [pad]; omega

theorem length_pad_of_le {n : Nat} {s : Bytes} (h : s.length ≤ n) : (pad n s).length = n := by
  rw [length_pad]; omega

theorem byteAt_append (s t : Bytes) (i : Nat) :
    byteAt (s ++ t) i = if i < s.length then byteAt s i else byteAt t (i - s.length) := by
  simp only [byteAt, List.getD_eq_getElem?_getD, List.getElem?_append]
  split <;> rfl

theorem byteAt_of_length_le {s : Bytes} {i : Nat} (h : s.length ≤ i) : byteAt s i = 0 := by
  simp [byteAt, List.getD_eq_getElem?_getD, List.getElem?_eq_none h]

theorem byteAt_pad (n : Nat) (s : Bytes) (i : Nat) : byteAt (pad n s) i = byteAt s i := by
  rw [pad, byteAt_append]
  split
  · rfl
  · rw [byteAt_zeros, byteAt_of_length_le (by omega)]

theorem length_slice (s : Bytes) (a b : Nat) : (slice s a b).length = min (b - a) (s.length - a) := by
  simp [slice]

theorem byteAt_slice (s : Bytes) (a b i : Nat) :
    byteAt (slice s a b) i = if i < b - a then byteAt s (a + i) else 0 := by
  simp only [slice, byteAt, List.getD_eq_getElem?_getD, List.getElem?_take, List.getElem?_drop]
  split <;> rfl

theorem byteAt_take (s : Bytes) (n i : Nat) : byteAt (s.take n) i = if i < n then byteAt s i else 0 := by
  simp only [byteAt, List.getD_eq_getElem?_getD, List.getElem?_take]
  split <;> rfl

/-- Two byte strings of one length with the same bytes are equal. -/
theorem ext_byteAt {s t : Bytes} (hl : s.length = t.length) (h : ∀ i < s.length, byteAt s i = byteAt t i) : s = t := by
  apply List.ext_getElem hl
  intro i h1 h2
  have := h i h1
  simpa [byteAt, List.getD_eq_getElem?_getD, List.getElem?_eq_getElem h1, List.getElem?_eq_getElem h2] using this

theorem getElem?_eq_byteAt {s : Bytes} {i : Nat} (h : i < s.length) : s[i]? = some (byteAt s i) := by
  simp [byteAt, List.getD_eq_getElem?_getD, List.getElem?_eq_getElem h]

@[simp] theorem length_le16 (v : BitVec 16) : (le16 v).length = 2 := rfl

@[simp] theorem length_le32 (v : BitVec 32) : (le32 v).length = 4 := rfl

@[simp] theorem un16_le16 (v : BitVec 16) : un16 (le16 v) = v := by
  simp only [un16, le16, byteAt, List.getD_cons_zero, List.getD_cons_succ]
  ext i hi
  simp only [BitVec.getElem_append, BitVec.getElem_extractLsb']
  split
  · simp [← BitVec.getLsbD_eq_getElem]
  · simp [← BitVec.getLsbD_eq_getElem]; congr 1; omega

@[simp] theorem un32_le32 (v : BitVec 32) : un32 (le32 v) = v := by
  simp only [un32, le32, byteAt, List.getD_cons_zero, List.getD_cons_succ]
  ext i hi
  simp only [BitVec.getElem_append, BitVec.getElem_extractLsb']
  split
  · simp [← BitVec.getLsbD_eq_getElem]
  · split
    · simp [← BitVec.getLsbD_eq_getElem]; congr 1; omega
    · split
      · simp [← BitVec.getLsbD_eq_getElem]; congr 1; omega
      · simp [← BitVec.getLsbD_eq_getElem]; congr 1; omega

theorem toNat_un16 (s : Bytes) : (un16 s).toNat = (byteAt s 0).toNat + 256 * (byteAt s 1).toNat := by
  simp only [un16, BitVec.toNat_append]
  have h0 := (byteAt s 0).isLt
  rw [Nat.shiftLeft_eq, ← Nat.mul_comm, ← Nat.two_pow_add_eq_or_of_lt h0]; omega

@[simp] theorem length_headerPayload (a : Bytes) (mt : Byte) (body : Bytes) :
    (headerPayload a mt body).length = a.length + 1 + body.length := by simp [headerPayload]; omega

@[simp] theorem length_infoPayload (cd : BitVec 16) (mt : Byte) (chunk : Bytes) :
    (infoPayload cd mt chunk).length = 3 + chunk.length := by simp [infoPayload]; omega

/-- `ceil_div(a, b)` is the least `q` with `q * b >= a` (R9). -/
theorem ceilDiv_le_iff {a b q : Nat} (hb : 0 < b) : ceilDiv a b ≤ q ↔ a ≤ q * b := by
  unfold ceilDiv
  rw [Nat.div_le_iff_le_mul_add_pred hb, Nat.mul_comm b q]
  omega

theorem le_ceilDiv_mul (a : Nat) : a ≤ ceilDiv a 61 * 61 := (ceilDiv_le_iff (by decide)).1 (Nat.le_refl _)

/-- Slice `k` exists exactly for `k` below the packet count. -/
theorem lt_ceilDiv_iff {a k : Nat} : k < ceilDiv a 61 ↔ 61 * k < a := by
  have := @ceilDiv_le_iff a 61 k (by decide)
  omega

theorem satSucc_toNat (v : BitVec 32) : (satSucc v).toNat = min (v.toNat + 1) 4294967295 := by
  unfold satSucc
  rw [BitVec.toNat_ofNat, Nat.mod_eq_of_lt]
  omega

theorem le_satSucc (v : BitVec 32) : v.toNat ≤ (satSucc v).toNat := by
  have := v.isLt
  rw [satSucc_toNat]; omega

theorem satSucc_le_satSucc {v w : BitVec 32} (h : v.toNat ≤ w.toNat) : (satSucc v).toNat ≤ (satSucc w).toNat := by
  rw [satSucc_toNat, satSucc_toNat]; omega

theorem one_le_satSucc (v : BitVec 32) : 1 ≤ (satSucc v).toNat := by rw [satSucc_toNat]; omega

/-- Below saturation the counter counts. -/
theorem satSucc_of_lt {v : BitVec 32} (h : (satSucc v).toNat < 4294967295) : (satSucc v).toNat = v.toNat + 1 := by
  rw [satSucc_toNat] at h ⊢; omega

end Sys2Proof.Machine
end

