-- ==== Sys2Proof/Laws/Decode.lean ====
section
/-! SUPPORT. Every field read back from the packed words of spec/30_encoding.md R81, and every packed word under the
mask of its row (R83). -/

namespace Sys2Proof

@[simp] theorem fieldOp_packN (op : BitVec 8) :
    fieldOp (packN op) = op := by
  refine BitVec.eq_of_getLsbD_eq fun i hi => ?_
  simp only [fieldOp, packN, BitVec.getLsbD_extractLsb', BitVec.getLsbD_append]
  interval_cases i <;> simp

@[simp] theorem fieldOp_packR (op csr : BitVec 8) :
    fieldOp (packR op csr) = op := by
  refine BitVec.eq_of_getLsbD_eq fun i hi => ?_
  simp only [fieldOp, packR, BitVec.getLsbD_extractLsb', BitVec.getLsbD_append]
  interval_cases i <;> simp

@[simp] theorem fieldCsr_packR (op csr : BitVec 8) :
    fieldCsr (packR op csr) = csr := by
  refine BitVec.eq_of_getLsbD_eq fun i hi => ?_
  simp only [fieldCsr, packR, BitVec.getLsbD_extractLsb', BitVec.getLsbD_append]
  interval_cases i <;> simp

@[simp] theorem fieldOp_packL (op : BitVec 8) (sp : Space) (addr : BitVec 22) :
    fieldOp (packL op sp addr) = op := by
  refine BitVec.eq_of_getLsbD_eq fun i hi => ?_
  simp only [fieldOp, packL, BitVec.getLsbD_extractLsb', BitVec.getLsbD_append]
  interval_cases i <;> simp

@[simp] theorem spaceOf_spaceBits (sp : Space) : spaceOf (spaceBits sp) = sp := by cases sp <;> rfl

theorem extract_packL (op : BitVec 8) (sp : Space) (addr : BitVec 22) :
    (packL op sp addr).extractLsb' 22 2 = spaceBits sp := by
  refine BitVec.eq_of_getLsbD_eq fun i hi => ?_
  simp only [packL, BitVec.getLsbD_extractLsb', BitVec.getLsbD_append]
  interval_cases i <;> simp

@[simp] theorem fieldSp_packL (op : BitVec 8) (sp : Space) (addr : BitVec 22) :
    fieldSp (packL op sp addr) = sp := by rw [fieldSp, extract_packL, spaceOf_spaceBits]

@[simp] theorem fieldAddr_packL (op : BitVec 8) (sp : Space) (addr : BitVec 22) :
    fieldAddr (packL op sp addr) = addr := by
  refine BitVec.eq_of_getLsbD_eq fun i hi => ?_
  simp only [fieldAddr, packL, BitVec.getLsbD_extractLsb', BitVec.getLsbD_append]
  interval_cases i <;> simp

@[simp] theorem fieldOp_packCM (op : BitVec 8) (ch : BitVec 4) (mt : Byte) :
    fieldOp (packCM op ch mt) = op := by
  refine BitVec.eq_of_getLsbD_eq fun i hi => ?_
  simp only [fieldOp, packCM, BitVec.getLsbD_extractLsb', BitVec.getLsbD_append]
  interval_cases i <;> simp

@[simp] theorem fieldCh_packCM (op : BitVec 8) (ch : BitVec 4) (mt : Byte) :
    fieldCh (packCM op ch mt) = ch := by
  refine BitVec.eq_of_getLsbD_eq fun i hi => ?_
  simp only [fieldCh, packCM, BitVec.getLsbD_extractLsb', BitVec.getLsbD_append]
  interval_cases i <;> simp

@[simp] theorem fieldMt_packCM (op : BitVec 8) (ch : BitVec 4) (mt : Byte) :
    fieldMt (packCM op ch mt) = mt := by
  refine BitVec.eq_of_getLsbD_eq fun i hi => ?_
  simp only [fieldMt, packCM, BitVec.getLsbD_extractLsb', BitVec.getLsbD_append]
  interval_cases i <;> simp

theorem mask_packR (op csr : BitVec 8) :
    packR op csr &&& 0xFF00FFFF = packN op := by
  refine BitVec.eq_of_getLsbD_eq fun i hi => ?_
  simp only [packR, packN, BitVec.getLsbD_append, BitVec.getLsbD_and]
  interval_cases i <;> simp

theorem mask_packL (op : BitVec 8) (sp : Space) (addr : BitVec 22) :
    packL op sp addr &&& 0xFF000000 = packN op := by
  refine BitVec.eq_of_getLsbD_eq fun i hi => ?_
  simp only [packL, packN, BitVec.getLsbD_append, BitVec.getLsbD_and]
  interval_cases i <;> simp

theorem mask_packCM (op : BitVec 8) (ch : BitVec 4) (mt : Byte) :
    packCM op ch mt &&& 0xFF0FFF00 = packN op := by
  refine BitVec.eq_of_getLsbD_eq fun i hi => ?_
  simp only [packCM, packN, BitVec.getLsbD_append, BitVec.getLsbD_and]
  interval_cases i <;> simp

theorem mask_packC (op : BitVec 8) (ch : BitVec 4) :
    packCM op ch 0 &&& 0xFF0FFFFF = packN op := by
  refine BitVec.eq_of_getLsbD_eq fun i hi => ?_
  simp only [packCM, packN, BitVec.getLsbD_append, BitVec.getLsbD_and]
  interval_cases i <;> simp

theorem mask_packM (op : BitVec 8) (mt : Byte) :
    packCM op 0 mt &&& 0xFFFFFF00 = packN op := by
  refine BitVec.eq_of_getLsbD_eq fun i hi => ?_
  simp only [packCM, packN, BitVec.getLsbD_append, BitVec.getLsbD_and]
  interval_cases i <;> simp

end Sys2Proof
end

