-- ==== Sys2Proof/Laws/Memory.lean ====
section
/-! SUPPORT. The laws of a memory: what a read gives after a write, and that every write keeps the canonical form. -/

namespace Sys2Proof.Machine

@[simp] theorem Memory.byte_nil (a : Nat) : Memory.byte [] a = 0 := rfl

theorem Memory.byte_of_forall_ne {m : Memory} {a : Nat} (h : ∀ c ∈ m, c.1 ≠ a) : m.byte a = 0 := by
  induction m with
  | nil => rfl
  | cons c rest ih =>
    rw [Memory.byte, if_neg (h c (by simp))]
    exact ih fun d hd => h d (by simp [hd])

theorem Memory.byte_of_head_gt {c : Host.Cell} {rest : Memory} {a : Nat} (hw : Memory.wf (c :: rest)) (h : a < c.1) :
    Memory.byte (c :: rest) a = 0 := by
  refine Memory.byte_of_forall_ne fun d hd => ?_
  rcases List.mem_cons.1 hd with rfl | hd
  · omega
  · have := (List.pairwise_cons.1 hw.1).1 d hd
    omega

theorem Memory.wf_tail {c : Host.Cell} {rest : Memory} (hw : Memory.wf (c :: rest)) : Memory.wf rest :=
  ⟨(List.pairwise_cons.1 hw.1).2, fun d hd => hw.2 d (by simp [hd])⟩

/-- Writing one byte changes that byte and no other. -/
theorem Memory.byte_store {m : Memory} (hw : m.wf) (a : Nat) (v : Byte) (b : Nat) :
    (m.store a v).byte b = if b = a then v else m.byte b := by
  induction m with
  | nil =>
    simp only [Memory.store, Memory.entry]
    split
    · rename_i h; subst h; simp [Memory.unlisted]
    · simp only [Memory.byte]
      by_cases h : b = a
      · simp [h]
      · simp [h, Ne.symm h]
  | cons c rest ih =>
    have hr := Memory.wf_tail hw
    rw [Memory.store]
    split
    · rename_i hlt
      simp only [Memory.entry]
      by_cases hb : b = a
      · subst hb
        split
        · rename_i hv; simp [Memory.byte_of_head_gt hw hlt, hv, Memory.unlisted]
        · simp [Memory.byte]
      · split
        · rfl
        · simp [Memory.byte, Ne.symm hb]
    · split
      · rename_i _ heq
        simp only [Memory.entry]
        have hz : Memory.byte rest c.1 = 0 :=
          Memory.byte_of_forall_ne fun d hd => by
            have := (List.pairwise_cons.1 hw.1).1 d hd
            omega
        by_cases hb : b = a
        · subst hb
          split
          · rename_i hv; rw [heq, hz]; simp [hv, Memory.unlisted]
          · simp [Memory.byte]
        · split
          · simp [Memory.byte, heq ▸ Ne.symm hb]
          · simp [Memory.byte, Ne.symm hb, heq ▸ Ne.symm hb]
      · rename_i hnlt hne
        simp only [Memory.byte, ih hr]
        by_cases hb : b = a
        · subst hb
          simp [Ne.symm hne]
        · simp [hb]

theorem Memory.mem_entry {a : Nat} {v : Byte} {m : Memory} {c : Host.Cell} (h : c ∈ Memory.entry a v m) :
    c = (a, v) ∨ c ∈ m := by
  unfold Memory.entry at h
  split at h
  · exact .inr h
  · simpa using h

theorem Memory.mem_store {m : Memory} {a : Nat} {v : Byte} {c : Host.Cell} (h : c ∈ m.store a v) :
    c = (a, v) ∨ c ∈ m := by
  induction m with
  | nil => exact Memory.mem_entry h
  | cons d rest ih =>
    rw [Memory.store] at h
    split at h
    · exact Memory.mem_entry h
    · split at h
      · rcases Memory.mem_entry h with h | h
        · exact .inl h
        · exact .inr (by simp [h])
      · rcases List.mem_cons.1 h with h | h
        · exact .inr (by simp [h])
        · rcases ih h with h | h
          · exact .inl h
          · exact .inr (by simp [h])

theorem Memory.wf_entry {a : Nat} {v : Byte} {m : Memory} (hw : m.wf) (h : ∀ c ∈ m, a < c.1) :
    (Memory.entry a v m).wf := by
  unfold Memory.entry
  split
  · exact hw
  · rename_i hv
    refine ⟨List.pairwise_cons.2 ⟨h, hw.1⟩, fun c hc => ?_⟩
    rcases List.mem_cons.1 hc with rfl | hc
    · exact hv
    · exact hw.2 c hc

/-- Writing one byte keeps the canonical form. -/
theorem Memory.wf_store {m : Memory} (hw : m.wf) (a : Nat) (v : Byte) : (m.store a v).wf := by
  induction m with
  | nil => exact Memory.wf_entry hw (by simp)
  | cons c rest ih =>
    have hc := (List.pairwise_cons.1 hw.1).1
    have hr := Memory.wf_tail hw
    rw [Memory.store]
    split
    · rename_i hlt
      refine Memory.wf_entry hw fun d hd => ?_
      rcases List.mem_cons.1 hd with rfl | hd
      · exact hlt
      · have := hc d hd
        omega
    · split
      · rename_i _ heq
        exact Memory.wf_entry hr fun d hd => heq ▸ hc d hd
      · rename_i hnlt hne
        refine ⟨List.pairwise_cons.2 ⟨fun d hd => ?_, (ih hr).1⟩, fun d hd => ?_⟩
        · rcases Memory.mem_store hd with rfl | hd
          · show c.1 < a
            omega
          · exact hc d hd
        · rcases List.mem_cons.1 hd with rfl | hd
          · exact hw.2 _ (by simp)
          · exact (ih hr).2 d hd

/-- Writing a byte string keeps the canonical form. -/
theorem Memory.wf_storeSpan {m : Memory} (hw : m.wf) (a : Nat) (bs : Bytes) : (m.storeSpan a bs).wf := by
  induction bs generalizing m a with
  | nil => exact hw
  | cons b rest ih => exact ih (Memory.wf_store hw a b) (a + 1)

/-- Writing a byte string changes the bytes it covers and no other. -/
theorem Memory.byte_storeSpan {m : Memory} (hw : m.wf) (a : Nat) (bs : Bytes) (x : Nat) :
    (m.storeSpan a bs).byte x = if a ≤ x ∧ x < a + bs.length then byteAt bs (x - a) else m.byte x := by
  induction bs generalizing m a with
  | nil =>
    rw [if_neg (by simp only [List.length_nil]; omega)]
    rfl
  | cons b rest ih =>
    rw [Memory.storeSpan, ih (Memory.wf_store hw a b), Memory.byte_store hw]
    by_cases hx : x = a
    · subst hx
      simp [byteAt]
    · by_cases h1 : a + 1 ≤ x ∧ x < a + 1 + rest.length
      · obtain ⟨k, rfl⟩ : ∃ k, x = a + 1 + k := ⟨x - (a + 1), by omega⟩
        have e : a + 1 + k - a = k + 1 := by omega
        rw [if_pos h1, if_pos (by simp; omega), e]
        simp [byteAt]
      · rw [if_neg h1, if_neg hx, if_neg (by simp; omega)]

theorem Memory.mem_storeSpan {m : Memory} {a : Nat} {bs : Bytes} {c : Host.Cell} (h : c ∈ m.storeSpan a bs) :
    (a ≤ c.1 ∧ c.1 < a + bs.length) ∨ c ∈ m := by
  induction bs generalizing m a with
  | nil => exact .inr h
  | cons b rest ih =>
    rcases ih h with h | h
    · exact .inl ⟨by omega, by simp; omega⟩
    · rcases Memory.mem_store h with rfl | h
      · exact .inl ⟨Nat.le_refl a, by simp⟩
      · exact .inr h

/-- Two memories in canonical form that read the same everywhere are equal. -/
theorem Memory.ext {m n : Memory} (hm : m.wf) (hn : n.wf) (h : ∀ a, m.byte a = n.byte a) : m = n := by
  induction m generalizing n with
  | nil =>
    cases n with
    | nil => rfl
    | cons d rest =>
      have := h d.1
      simp only [Memory.byte, if_true] at this
      exact absurd this.symm (hn.2 d (by simp))
  | cons c mrest ih =>
    cases n with
    | nil =>
      have := h c.1
      simp only [Memory.byte, if_true] at this
      exact absurd this (hm.2 c (by simp))
    | cons d nrest =>
      have hcd : c.1 = d.1 := by
        rcases Nat.lt_trichotomy c.1 d.1 with hl | he | hg
        · have := h c.1
          rw [Memory.byte_of_head_gt hn hl] at this
          simp only [Memory.byte, if_true] at this
          exact absurd this (hm.2 c (by simp))
        · exact he
        · have := h d.1
          rw [Memory.byte_of_head_gt hm hg] at this
          simp only [Memory.byte, if_true] at this
          exact absurd this.symm (hn.2 d (by simp))
      have hv : c.2 = d.2 := by
        have := h c.1
        simpa [Memory.byte, hcd] using this
      have hrest : mrest = nrest := by
        refine ih (Memory.wf_tail hm) (Memory.wf_tail hn) fun a => ?_
        by_cases ha : a = c.1
        · subst ha
          rw [Memory.byte_of_forall_ne, Memory.byte_of_forall_ne]
          · intro e he
            have := (List.pairwise_cons.1 hn.1).1 e he
            omega
          · intro e he
            have := (List.pairwise_cons.1 hm.1).1 e he
            omega
        · have := h a
          simpa [Memory.byte, Ne.symm ha, hcd ▸ Ne.symm ha] using this
      rw [hrest, Prod.ext hcd hv]

@[simp] theorem Memory.length_span (m : Memory) (a n : Nat) : (m.span a n).length = n := by
  induction n generalizing a with
  | zero => rfl
  | succ n ih => simp [Memory.span, ih]

/-- Byte `i` of a byte string read from a memory. -/
theorem Memory.byteAt_span (m : Memory) (a n i : Nat) :
    byteAt (m.span a n) i = if i < n then m.byte (a + i) else 0 := by
  induction n generalizing a i with
  | zero => simp [Memory.span, byteAt]
  | succ n ih =>
    cases i with
    | zero => simp [Memory.span, byteAt]
    | succ i =>
      have := ih (a + 1) i
      simp only [byteAt, Memory.span, List.getD_cons_succ] at this ⊢
      rw [this]
      simp only [Nat.add_lt_add_iff_right]
      congr 2
      omega

/-- A byte string stored and read back. -/
theorem Memory.span_storeSpan {m : Memory} (hw : m.wf) (a : Nat) (bs : Bytes) :
    (m.storeSpan a bs).span a bs.length = bs := by
  refine ext_byteAt (by simp) fun i hi => ?_
  rw [Memory.length_span] at hi
  rw [Memory.byteAt_span, if_pos hi, Memory.byte_storeSpan hw, if_pos (by omega)]
  congr 1
  omega

/-- Reads of the same bytes give the same byte string. -/
theorem Memory.span_congr {m n : Memory} {a k : Nat} (h : ∀ x, a ≤ x → x < a + k → m.byte x = n.byte x) :
    m.span a k = n.span a k := by
  refine ext_byteAt (by simp) fun i hi => ?_
  rw [Memory.length_span] at hi
  simp only [Memory.byteAt_span, if_pos hi]
  exact h _ (by omega) (by omega)

theorem Memory.within_store {m : Memory} {size : Nat} (hm : m.within size) {a : Nat} (ha : a < size) (v : Byte) :
    (m.store a v).within size := by
  refine ⟨Memory.wf_store hm.1 a v, fun c hc => ?_⟩
  rcases Memory.mem_store hc with rfl | hc
  · exact ha
  · exact hm.2 c hc

theorem Memory.within_storeSpan {m : Memory} {size : Nat} (hm : m.within size) {a : Nat} {bs : Bytes}
    (ha : a + bs.length ≤ size) : (m.storeSpan a bs).within size := by
  refine ⟨Memory.wf_storeSpan hm.1 a bs, fun c hc => ?_⟩
  rcases Memory.mem_storeSpan hc with hc | hc
  · omega
  · exact hm.2 c hc

theorem Memory.within_nil (size : Nat) : Memory.within [] size := ⟨⟨List.Pairwise.nil, by simp⟩, by simp⟩

/-- The reset state's memories are in canonical form (R55). -/
theorem State.reset_memoryInv : MemoryInv State.reset :=
  ⟨Memory.within_nil _, Memory.within_nil _, Memory.within_nil _, Memory.within_nil _, Memory.within_nil _⟩

end Sys2Proof.Machine
end

