-- ==== Sys2Proof/Laws/State.lean ====
section
/-! SUPPORT. One lemma for each field of State under each named update, so that no later proof unfolds a record update.
A lemma `State.<update>_<field>` says what the field holds after the update. -/

namespace Sys2Proof.Machine

variable (s : State)

@[simp] theorem State.answer_ctrl (c : Code) (d : Word) : (s.answer c d).ctrl = s.ctrl := rfl
@[simp] theorem State.answer_sticky (c : Code) (d : Word) : (s.answer c d).sticky = s.sticky := rfl
@[simp] theorem State.answer_srclen (c : Code) (d : Word) : (s.answer c d).srclen = s.srclen := rfl
@[simp] theorem State.answer_linlen (c : Code) (d : Word) : (s.answer c d).linlen = s.linlen := rfl
@[simp] theorem State.answer_taddr (c : Code) (d : Word) : (s.answer c d).taddr = s.taddr := rfl
@[simp] theorem State.answer_tcd (c : Code) (d : Word) : (s.answer c d).tcd = s.tcd := rfl
@[simp] theorem State.answer_rxch (c : Code) (d : Word) : (s.answer c d).rxch = s.rxch := rfl
@[simp] theorem State.answer_txch (c : Code) (d : Word) : (s.answer c d).txch = s.txch := rfl
@[simp] theorem State.answer_raddr (c : Code) (d : Word) : (s.answer c d).raddr = s.raddr := rfl
@[simp] theorem State.answer_rmt (c : Code) (d : Word) : (s.answer c d).rmt = s.rmt := rfl
@[simp] theorem State.answer_rcd (c : Code) (d : Word) : (s.answer c d).rcd = s.rcd := rfl
@[simp] theorem State.answer_rplen (c : Code) (d : Word) : (s.answer c d).rplen = s.rplen := rfl
@[simp] theorem State.answer_rrssi (c : Code) (d : Word) : (s.answer c d).rrssi = s.rrssi := rfl
@[simp] theorem State.answer_sn (c : Code) (d : Word) : (s.answer c d).sn = s.sn := rfl
@[simp] theorem State.answer_sk (c : Code) (d : Word) : (s.answer c d).sk = s.sk := rfl
@[simp] theorem State.answer_smt (c : Code) (d : Word) : (s.answer c d).smt = s.smt := rfl
@[simp] theorem State.answer_slen (c : Code) (d : Word) : (s.answer c d).slen = s.slen := rfl
@[simp] theorem State.answer_rcap (c : Code) (d : Word) : (s.answer c d).rcap = s.rcap := rfl
@[simp] theorem State.answer_rlencap (c : Code) (d : Word) : (s.answer c d).rlencap = s.rlencap := rfl
@[simp] theorem State.answer_rslen (c : Code) (d : Word) : (s.answer c d).rslen = s.rslen := rfl
@[simp] theorem State.answer_rreads (c : Code) (d : Word) : (s.answer c d).rreads = s.rreads := rfl
@[simp] theorem State.answer_rpkts (c : Code) (d : Word) : (s.answer c d).rpkts = s.rpkts := rfl
@[simp] theorem State.answer_rlast (c : Code) (d : Word) : (s.answer c d).rlast = s.rlast := rfl
@[simp] theorem State.answer_phase (c : Code) (d : Word) : (s.answer c d).phase = s.phase := rfl
@[simp] theorem State.answer_cause (c : Code) (d : Word) : (s.answer c d).cause = s.cause := rfl
@[simp] theorem State.answer_txfv (c : Code) (d : Word) : (s.answer c d).txfv = s.txfv := rfl
@[simp] theorem State.answer_rxfv (c : Code) (d : Word) : (s.answer c d).rxfv = s.rxfv := rfl
@[simp] theorem State.answer_src (c : Code) (d : Word) : (s.answer c d).src = s.src := rfl
@[simp] theorem State.answer_lin (c : Code) (d : Word) : (s.answer c d).lin = s.lin := rfl
@[simp] theorem State.answer_rsb (c : Code) (d : Word) : (s.answer c d).rsb = s.rsb := rfl
@[simp] theorem State.answer_txf (c : Code) (d : Word) : (s.answer c d).txf = s.txf := rfl
@[simp] theorem State.answer_rxf (c : Code) (d : Word) : (s.answer c d).rxf = s.rxf := rfl
@[simp] theorem State.answer_lout (c : Code) (d : Word) : (s.answer c d).lout = s.lout := rfl
@[simp] theorem State.answer_linkup (c : Code) (d : Word) : (s.answer c d).linkup = s.linkup := rfl
@[simp] theorem State.answer_inputs (c : Code) (d : Word) : (s.answer c d).inputs = s.inputs := rfl
@[simp] theorem State.answer_responses (c : Code) (d : Word) : (s.answer c d).responses = s.responses ++ [{ code := c, rdata := d }] := rfl

@[simp] theorem State.setFlag_ctrl (f : Flag) : (s.setFlag f).ctrl = s.ctrl := rfl
@[simp] theorem State.setFlag_sticky (f : Flag) : (s.setFlag f).sticky = s.sticky ||| f.mask := rfl
@[simp] theorem State.setFlag_srclen (f : Flag) : (s.setFlag f).srclen = s.srclen := rfl
@[simp] theorem State.setFlag_linlen (f : Flag) : (s.setFlag f).linlen = s.linlen := rfl
@[simp] theorem State.setFlag_taddr (f : Flag) : (s.setFlag f).taddr = s.taddr := rfl
@[simp] theorem State.setFlag_tcd (f : Flag) : (s.setFlag f).tcd = s.tcd := rfl
@[simp] theorem State.setFlag_rxch (f : Flag) : (s.setFlag f).rxch = s.rxch := rfl
@[simp] theorem State.setFlag_txch (f : Flag) : (s.setFlag f).txch = s.txch := rfl
@[simp] theorem State.setFlag_raddr (f : Flag) : (s.setFlag f).raddr = s.raddr := rfl
@[simp] theorem State.setFlag_rmt (f : Flag) : (s.setFlag f).rmt = s.rmt := rfl
@[simp] theorem State.setFlag_rcd (f : Flag) : (s.setFlag f).rcd = s.rcd := rfl
@[simp] theorem State.setFlag_rplen (f : Flag) : (s.setFlag f).rplen = s.rplen := rfl
@[simp] theorem State.setFlag_rrssi (f : Flag) : (s.setFlag f).rrssi = s.rrssi := rfl
@[simp] theorem State.setFlag_sn (f : Flag) : (s.setFlag f).sn = s.sn := rfl
@[simp] theorem State.setFlag_sk (f : Flag) : (s.setFlag f).sk = s.sk := rfl
@[simp] theorem State.setFlag_smt (f : Flag) : (s.setFlag f).smt = s.smt := rfl
@[simp] theorem State.setFlag_slen (f : Flag) : (s.setFlag f).slen = s.slen := rfl
@[simp] theorem State.setFlag_rcap (f : Flag) : (s.setFlag f).rcap = s.rcap := rfl
@[simp] theorem State.setFlag_rlencap (f : Flag) : (s.setFlag f).rlencap = s.rlencap := rfl
@[simp] theorem State.setFlag_rslen (f : Flag) : (s.setFlag f).rslen = s.rslen := rfl
@[simp] theorem State.setFlag_rreads (f : Flag) : (s.setFlag f).rreads = s.rreads := rfl
@[simp] theorem State.setFlag_rpkts (f : Flag) : (s.setFlag f).rpkts = s.rpkts := rfl
@[simp] theorem State.setFlag_rlast (f : Flag) : (s.setFlag f).rlast = s.rlast := rfl
@[simp] theorem State.setFlag_phase (f : Flag) : (s.setFlag f).phase = s.phase := rfl
@[simp] theorem State.setFlag_cause (f : Flag) : (s.setFlag f).cause = s.cause := rfl
@[simp] theorem State.setFlag_txfv (f : Flag) : (s.setFlag f).txfv = s.txfv := rfl
@[simp] theorem State.setFlag_rxfv (f : Flag) : (s.setFlag f).rxfv = s.rxfv := rfl
@[simp] theorem State.setFlag_src (f : Flag) : (s.setFlag f).src = s.src := rfl
@[simp] theorem State.setFlag_lin (f : Flag) : (s.setFlag f).lin = s.lin := rfl
@[simp] theorem State.setFlag_rsb (f : Flag) : (s.setFlag f).rsb = s.rsb := rfl
@[simp] theorem State.setFlag_txf (f : Flag) : (s.setFlag f).txf = s.txf := rfl
@[simp] theorem State.setFlag_rxf (f : Flag) : (s.setFlag f).rxf = s.rxf := rfl
@[simp] theorem State.setFlag_lout (f : Flag) : (s.setFlag f).lout = s.lout := rfl
@[simp] theorem State.setFlag_linkup (f : Flag) : (s.setFlag f).linkup = s.linkup := rfl
@[simp] theorem State.setFlag_inputs (f : Flag) : (s.setFlag f).inputs = s.inputs := rfl
@[simp] theorem State.setFlag_responses (f : Flag) : (s.setFlag f).responses = s.responses := rfl

@[simp] theorem State.clearFlags_ctrl (v : Word) : (s.clearFlags v).ctrl = s.ctrl := rfl
@[simp] theorem State.clearFlags_sticky (v : Word) : (s.clearFlags v).sticky = s.sticky &&& ~~~(v.extractLsb' 0 7) := rfl
@[simp] theorem State.clearFlags_srclen (v : Word) : (s.clearFlags v).srclen = s.srclen := rfl
@[simp] theorem State.clearFlags_linlen (v : Word) : (s.clearFlags v).linlen = s.linlen := rfl
@[simp] theorem State.clearFlags_taddr (v : Word) : (s.clearFlags v).taddr = s.taddr := rfl
@[simp] theorem State.clearFlags_tcd (v : Word) : (s.clearFlags v).tcd = s.tcd := rfl
@[simp] theorem State.clearFlags_rxch (v : Word) : (s.clearFlags v).rxch = s.rxch := rfl
@[simp] theorem State.clearFlags_txch (v : Word) : (s.clearFlags v).txch = s.txch := rfl
@[simp] theorem State.clearFlags_raddr (v : Word) : (s.clearFlags v).raddr = s.raddr := rfl
@[simp] theorem State.clearFlags_rmt (v : Word) : (s.clearFlags v).rmt = s.rmt := rfl
@[simp] theorem State.clearFlags_rcd (v : Word) : (s.clearFlags v).rcd = s.rcd := rfl
@[simp] theorem State.clearFlags_rplen (v : Word) : (s.clearFlags v).rplen = s.rplen := rfl
@[simp] theorem State.clearFlags_rrssi (v : Word) : (s.clearFlags v).rrssi = s.rrssi := rfl
@[simp] theorem State.clearFlags_sn (v : Word) : (s.clearFlags v).sn = s.sn := rfl
@[simp] theorem State.clearFlags_sk (v : Word) : (s.clearFlags v).sk = s.sk := rfl
@[simp] theorem State.clearFlags_smt (v : Word) : (s.clearFlags v).smt = s.smt := rfl
@[simp] theorem State.clearFlags_slen (v : Word) : (s.clearFlags v).slen = s.slen := rfl
@[simp] theorem State.clearFlags_rcap (v : Word) : (s.clearFlags v).rcap = s.rcap := rfl
@[simp] theorem State.clearFlags_rlencap (v : Word) : (s.clearFlags v).rlencap = s.rlencap := rfl
@[simp] theorem State.clearFlags_rslen (v : Word) : (s.clearFlags v).rslen = s.rslen := rfl
@[simp] theorem State.clearFlags_rreads (v : Word) : (s.clearFlags v).rreads = s.rreads := rfl
@[simp] theorem State.clearFlags_rpkts (v : Word) : (s.clearFlags v).rpkts = s.rpkts := rfl
@[simp] theorem State.clearFlags_rlast (v : Word) : (s.clearFlags v).rlast = s.rlast := rfl
@[simp] theorem State.clearFlags_phase (v : Word) : (s.clearFlags v).phase = s.phase := rfl
@[simp] theorem State.clearFlags_cause (v : Word) : (s.clearFlags v).cause = s.cause := rfl
@[simp] theorem State.clearFlags_txfv (v : Word) : (s.clearFlags v).txfv = s.txfv := rfl
@[simp] theorem State.clearFlags_rxfv (v : Word) : (s.clearFlags v).rxfv = s.rxfv := rfl
@[simp] theorem State.clearFlags_src (v : Word) : (s.clearFlags v).src = s.src := rfl
@[simp] theorem State.clearFlags_lin (v : Word) : (s.clearFlags v).lin = s.lin := rfl
@[simp] theorem State.clearFlags_rsb (v : Word) : (s.clearFlags v).rsb = s.rsb := rfl
@[simp] theorem State.clearFlags_txf (v : Word) : (s.clearFlags v).txf = s.txf := rfl
@[simp] theorem State.clearFlags_rxf (v : Word) : (s.clearFlags v).rxf = s.rxf := rfl
@[simp] theorem State.clearFlags_lout (v : Word) : (s.clearFlags v).lout = s.lout := rfl
@[simp] theorem State.clearFlags_linkup (v : Word) : (s.clearFlags v).linkup = s.linkup := rfl
@[simp] theorem State.clearFlags_inputs (v : Word) : (s.clearFlags v).inputs = s.inputs := rfl
@[simp] theorem State.clearFlags_responses (v : Word) : (s.clearFlags v).responses = s.responses := rfl

@[simp] theorem State.flagCode_ctrl (c : Code) : (s.flagCode c).ctrl = s.ctrl := by cases c <;> rfl
@[simp] theorem State.flagCode_srclen (c : Code) : (s.flagCode c).srclen = s.srclen := by cases c <;> rfl
@[simp] theorem State.flagCode_linlen (c : Code) : (s.flagCode c).linlen = s.linlen := by cases c <;> rfl
@[simp] theorem State.flagCode_taddr (c : Code) : (s.flagCode c).taddr = s.taddr := by cases c <;> rfl
@[simp] theorem State.flagCode_tcd (c : Code) : (s.flagCode c).tcd = s.tcd := by cases c <;> rfl
@[simp] theorem State.flagCode_rxch (c : Code) : (s.flagCode c).rxch = s.rxch := by cases c <;> rfl
@[simp] theorem State.flagCode_txch (c : Code) : (s.flagCode c).txch = s.txch := by cases c <;> rfl
@[simp] theorem State.flagCode_raddr (c : Code) : (s.flagCode c).raddr = s.raddr := by cases c <;> rfl
@[simp] theorem State.flagCode_rmt (c : Code) : (s.flagCode c).rmt = s.rmt := by cases c <;> rfl
@[simp] theorem State.flagCode_rcd (c : Code) : (s.flagCode c).rcd = s.rcd := by cases c <;> rfl
@[simp] theorem State.flagCode_rplen (c : Code) : (s.flagCode c).rplen = s.rplen := by cases c <;> rfl
@[simp] theorem State.flagCode_rrssi (c : Code) : (s.flagCode c).rrssi = s.rrssi := by cases c <;> rfl
@[simp] theorem State.flagCode_sn (c : Code) : (s.flagCode c).sn = s.sn := by cases c <;> rfl
@[simp] theorem State.flagCode_sk (c : Code) : (s.flagCode c).sk = s.sk := by cases c <;> rfl
@[simp] theorem State.flagCode_smt (c : Code) : (s.flagCode c).smt = s.smt := by cases c <;> rfl
@[simp] theorem State.flagCode_slen (c : Code) : (s.flagCode c).slen = s.slen := by cases c <;> rfl
@[simp] theorem State.flagCode_rcap (c : Code) : (s.flagCode c).rcap = s.rcap := by cases c <;> rfl
@[simp] theorem State.flagCode_rlencap (c : Code) : (s.flagCode c).rlencap = s.rlencap := by cases c <;> rfl
@[simp] theorem State.flagCode_rslen (c : Code) : (s.flagCode c).rslen = s.rslen := by cases c <;> rfl
@[simp] theorem State.flagCode_rreads (c : Code) : (s.flagCode c).rreads = s.rreads := by cases c <;> rfl
@[simp] theorem State.flagCode_rpkts (c : Code) : (s.flagCode c).rpkts = s.rpkts := by cases c <;> rfl
@[simp] theorem State.flagCode_rlast (c : Code) : (s.flagCode c).rlast = s.rlast := by cases c <;> rfl
@[simp] theorem State.flagCode_phase (c : Code) : (s.flagCode c).phase = s.phase := by cases c <;> rfl
@[simp] theorem State.flagCode_cause (c : Code) : (s.flagCode c).cause = s.cause := by cases c <;> rfl
@[simp] theorem State.flagCode_txfv (c : Code) : (s.flagCode c).txfv = s.txfv := by cases c <;> rfl
@[simp] theorem State.flagCode_rxfv (c : Code) : (s.flagCode c).rxfv = s.rxfv := by cases c <;> rfl
@[simp] theorem State.flagCode_src (c : Code) : (s.flagCode c).src = s.src := by cases c <;> rfl
@[simp] theorem State.flagCode_lin (c : Code) : (s.flagCode c).lin = s.lin := by cases c <;> rfl
@[simp] theorem State.flagCode_rsb (c : Code) : (s.flagCode c).rsb = s.rsb := by cases c <;> rfl
@[simp] theorem State.flagCode_txf (c : Code) : (s.flagCode c).txf = s.txf := by cases c <;> rfl
@[simp] theorem State.flagCode_rxf (c : Code) : (s.flagCode c).rxf = s.rxf := by cases c <;> rfl
@[simp] theorem State.flagCode_lout (c : Code) : (s.flagCode c).lout = s.lout := by cases c <;> rfl
@[simp] theorem State.flagCode_linkup (c : Code) : (s.flagCode c).linkup = s.linkup := by cases c <;> rfl
@[simp] theorem State.flagCode_inputs (c : Code) : (s.flagCode c).inputs = s.inputs := by cases c <;> rfl
@[simp] theorem State.flagCode_responses (c : Code) : (s.flagCode c).responses = s.responses := by cases c <;> rfl

@[simp] theorem State.loadTx_ctrl (ch : BitVec 4) (raw : Bytes) : (s.loadTx ch raw).ctrl = s.ctrl := rfl
@[simp] theorem State.loadTx_sticky (ch : BitVec 4) (raw : Bytes) : (s.loadTx ch raw).sticky = s.sticky := rfl
@[simp] theorem State.loadTx_srclen (ch : BitVec 4) (raw : Bytes) : (s.loadTx ch raw).srclen = s.srclen := rfl
@[simp] theorem State.loadTx_linlen (ch : BitVec 4) (raw : Bytes) : (s.loadTx ch raw).linlen = s.linlen := rfl
@[simp] theorem State.loadTx_taddr (ch : BitVec 4) (raw : Bytes) : (s.loadTx ch raw).taddr = s.taddr := rfl
@[simp] theorem State.loadTx_tcd (ch : BitVec 4) (raw : Bytes) : (s.loadTx ch raw).tcd = s.tcd := rfl
@[simp] theorem State.loadTx_rxch (ch : BitVec 4) (raw : Bytes) : (s.loadTx ch raw).rxch = s.rxch := rfl
@[simp] theorem State.loadTx_txch (ch : BitVec 4) (raw : Bytes) : (s.loadTx ch raw).txch = ch := rfl
@[simp] theorem State.loadTx_raddr (ch : BitVec 4) (raw : Bytes) : (s.loadTx ch raw).raddr = s.raddr := rfl
@[simp] theorem State.loadTx_rmt (ch : BitVec 4) (raw : Bytes) : (s.loadTx ch raw).rmt = s.rmt := rfl
@[simp] theorem State.loadTx_rcd (ch : BitVec 4) (raw : Bytes) : (s.loadTx ch raw).rcd = s.rcd := rfl
@[simp] theorem State.loadTx_rplen (ch : BitVec 4) (raw : Bytes) : (s.loadTx ch raw).rplen = s.rplen := rfl
@[simp] theorem State.loadTx_rrssi (ch : BitVec 4) (raw : Bytes) : (s.loadTx ch raw).rrssi = s.rrssi := rfl
@[simp] theorem State.loadTx_sn (ch : BitVec 4) (raw : Bytes) : (s.loadTx ch raw).sn = s.sn := rfl
@[simp] theorem State.loadTx_sk (ch : BitVec 4) (raw : Bytes) : (s.loadTx ch raw).sk = s.sk := rfl
@[simp] theorem State.loadTx_smt (ch : BitVec 4) (raw : Bytes) : (s.loadTx ch raw).smt = s.smt := rfl
@[simp] theorem State.loadTx_slen (ch : BitVec 4) (raw : Bytes) : (s.loadTx ch raw).slen = s.slen := rfl
@[simp] theorem State.loadTx_rcap (ch : BitVec 4) (raw : Bytes) : (s.loadTx ch raw).rcap = s.rcap := rfl
@[simp] theorem State.loadTx_rlencap (ch : BitVec 4) (raw : Bytes) : (s.loadTx ch raw).rlencap = s.rlencap := rfl
@[simp] theorem State.loadTx_rslen (ch : BitVec 4) (raw : Bytes) : (s.loadTx ch raw).rslen = s.rslen := rfl
@[simp] theorem State.loadTx_rreads (ch : BitVec 4) (raw : Bytes) : (s.loadTx ch raw).rreads = s.rreads := rfl
@[simp] theorem State.loadTx_rpkts (ch : BitVec 4) (raw : Bytes) : (s.loadTx ch raw).rpkts = s.rpkts := rfl
@[simp] theorem State.loadTx_rlast (ch : BitVec 4) (raw : Bytes) : (s.loadTx ch raw).rlast = s.rlast := rfl
@[simp] theorem State.loadTx_phase (ch : BitVec 4) (raw : Bytes) : (s.loadTx ch raw).phase = s.phase := rfl
@[simp] theorem State.loadTx_cause (ch : BitVec 4) (raw : Bytes) : (s.loadTx ch raw).cause = s.cause := rfl
@[simp] theorem State.loadTx_txfv (ch : BitVec 4) (raw : Bytes) : (s.loadTx ch raw).txfv = true := rfl
@[simp] theorem State.loadTx_rxfv (ch : BitVec 4) (raw : Bytes) : (s.loadTx ch raw).rxfv = s.rxfv := rfl
@[simp] theorem State.loadTx_src (ch : BitVec 4) (raw : Bytes) : (s.loadTx ch raw).src = s.src := rfl
@[simp] theorem State.loadTx_lin (ch : BitVec 4) (raw : Bytes) : (s.loadTx ch raw).lin = s.lin := rfl
@[simp] theorem State.loadTx_rsb (ch : BitVec 4) (raw : Bytes) : (s.loadTx ch raw).rsb = s.rsb := rfl
@[simp] theorem State.loadTx_txf (ch : BitVec 4) (raw : Bytes) : (s.loadTx ch raw).txf = s.txf.storeSpan 0 raw := rfl
@[simp] theorem State.loadTx_rxf (ch : BitVec 4) (raw : Bytes) : (s.loadTx ch raw).rxf = s.rxf := rfl
@[simp] theorem State.loadTx_lout (ch : BitVec 4) (raw : Bytes) : (s.loadTx ch raw).lout = s.lout := rfl
@[simp] theorem State.loadTx_linkup (ch : BitVec 4) (raw : Bytes) : (s.loadTx ch raw).linkup = s.linkup := rfl
@[simp] theorem State.loadTx_inputs (ch : BitVec 4) (raw : Bytes) : (s.loadTx ch raw).inputs = s.inputs := rfl
@[simp] theorem State.loadTx_responses (ch : BitVec 4) (raw : Bytes) : (s.loadTx ch raw).responses = s.responses := rfl

@[simp] theorem State.linkWrites_ctrl (ws : List Bytes) : (s.linkWrites ws).ctrl = s.ctrl := rfl
@[simp] theorem State.linkWrites_sticky (ws : List Bytes) : (s.linkWrites ws).sticky = s.sticky := rfl
@[simp] theorem State.linkWrites_srclen (ws : List Bytes) : (s.linkWrites ws).srclen = s.srclen := rfl
@[simp] theorem State.linkWrites_linlen (ws : List Bytes) : (s.linkWrites ws).linlen = s.linlen := rfl
@[simp] theorem State.linkWrites_taddr (ws : List Bytes) : (s.linkWrites ws).taddr = s.taddr := rfl
@[simp] theorem State.linkWrites_tcd (ws : List Bytes) : (s.linkWrites ws).tcd = s.tcd := rfl
@[simp] theorem State.linkWrites_rxch (ws : List Bytes) : (s.linkWrites ws).rxch = s.rxch := rfl
@[simp] theorem State.linkWrites_txch (ws : List Bytes) : (s.linkWrites ws).txch = s.txch := rfl
@[simp] theorem State.linkWrites_raddr (ws : List Bytes) : (s.linkWrites ws).raddr = s.raddr := rfl
@[simp] theorem State.linkWrites_rmt (ws : List Bytes) : (s.linkWrites ws).rmt = s.rmt := rfl
@[simp] theorem State.linkWrites_rcd (ws : List Bytes) : (s.linkWrites ws).rcd = s.rcd := rfl
@[simp] theorem State.linkWrites_rplen (ws : List Bytes) : (s.linkWrites ws).rplen = s.rplen := rfl
@[simp] theorem State.linkWrites_rrssi (ws : List Bytes) : (s.linkWrites ws).rrssi = s.rrssi := rfl
@[simp] theorem State.linkWrites_sn (ws : List Bytes) : (s.linkWrites ws).sn = s.sn := rfl
@[simp] theorem State.linkWrites_sk (ws : List Bytes) : (s.linkWrites ws).sk = s.sk := rfl
@[simp] theorem State.linkWrites_smt (ws : List Bytes) : (s.linkWrites ws).smt = s.smt := rfl
@[simp] theorem State.linkWrites_slen (ws : List Bytes) : (s.linkWrites ws).slen = s.slen := rfl
@[simp] theorem State.linkWrites_rcap (ws : List Bytes) : (s.linkWrites ws).rcap = s.rcap := rfl
@[simp] theorem State.linkWrites_rlencap (ws : List Bytes) : (s.linkWrites ws).rlencap = s.rlencap := rfl
@[simp] theorem State.linkWrites_rslen (ws : List Bytes) : (s.linkWrites ws).rslen = s.rslen := rfl
@[simp] theorem State.linkWrites_rreads (ws : List Bytes) : (s.linkWrites ws).rreads = s.rreads := rfl
@[simp] theorem State.linkWrites_rpkts (ws : List Bytes) : (s.linkWrites ws).rpkts = s.rpkts := rfl
@[simp] theorem State.linkWrites_rlast (ws : List Bytes) : (s.linkWrites ws).rlast = s.rlast := rfl
@[simp] theorem State.linkWrites_phase (ws : List Bytes) : (s.linkWrites ws).phase = s.phase := rfl
@[simp] theorem State.linkWrites_cause (ws : List Bytes) : (s.linkWrites ws).cause = s.cause := rfl
@[simp] theorem State.linkWrites_txfv (ws : List Bytes) : (s.linkWrites ws).txfv = s.txfv := rfl
@[simp] theorem State.linkWrites_rxfv (ws : List Bytes) : (s.linkWrites ws).rxfv = s.rxfv := rfl
@[simp] theorem State.linkWrites_src (ws : List Bytes) : (s.linkWrites ws).src = s.src := rfl
@[simp] theorem State.linkWrites_lin (ws : List Bytes) : (s.linkWrites ws).lin = s.lin := rfl
@[simp] theorem State.linkWrites_rsb (ws : List Bytes) : (s.linkWrites ws).rsb = s.rsb := rfl
@[simp] theorem State.linkWrites_txf (ws : List Bytes) : (s.linkWrites ws).txf = s.txf := rfl
@[simp] theorem State.linkWrites_rxf (ws : List Bytes) : (s.linkWrites ws).rxf = s.rxf := rfl
@[simp] theorem State.linkWrites_lout (ws : List Bytes) : (s.linkWrites ws).lout = s.lout ++ ws := rfl
@[simp] theorem State.linkWrites_linkup (ws : List Bytes) : (s.linkWrites ws).linkup = s.linkup := rfl
@[simp] theorem State.linkWrites_inputs (ws : List Bytes) : (s.linkWrites ws).inputs = s.inputs := rfl
@[simp] theorem State.linkWrites_responses (ws : List Bytes) : (s.linkWrites ws).responses = s.responses := rfl

@[simp] theorem State.takeCommand_ctrl (up : Bool) (rest : List Input) : (s.takeCommand up rest).ctrl = s.ctrl := rfl
@[simp] theorem State.takeCommand_sticky (up : Bool) (rest : List Input) : (s.takeCommand up rest).sticky = s.sticky := rfl
@[simp] theorem State.takeCommand_srclen (up : Bool) (rest : List Input) : (s.takeCommand up rest).srclen = s.srclen := rfl
@[simp] theorem State.takeCommand_linlen (up : Bool) (rest : List Input) : (s.takeCommand up rest).linlen = s.linlen := rfl
@[simp] theorem State.takeCommand_taddr (up : Bool) (rest : List Input) : (s.takeCommand up rest).taddr = s.taddr := rfl
@[simp] theorem State.takeCommand_tcd (up : Bool) (rest : List Input) : (s.takeCommand up rest).tcd = s.tcd := rfl
@[simp] theorem State.takeCommand_rxch (up : Bool) (rest : List Input) : (s.takeCommand up rest).rxch = s.rxch := rfl
@[simp] theorem State.takeCommand_txch (up : Bool) (rest : List Input) : (s.takeCommand up rest).txch = s.txch := rfl
@[simp] theorem State.takeCommand_raddr (up : Bool) (rest : List Input) : (s.takeCommand up rest).raddr = s.raddr := rfl
@[simp] theorem State.takeCommand_rmt (up : Bool) (rest : List Input) : (s.takeCommand up rest).rmt = s.rmt := rfl
@[simp] theorem State.takeCommand_rcd (up : Bool) (rest : List Input) : (s.takeCommand up rest).rcd = s.rcd := rfl
@[simp] theorem State.takeCommand_rplen (up : Bool) (rest : List Input) : (s.takeCommand up rest).rplen = s.rplen := rfl
@[simp] theorem State.takeCommand_rrssi (up : Bool) (rest : List Input) : (s.takeCommand up rest).rrssi = s.rrssi := rfl
@[simp] theorem State.takeCommand_sn (up : Bool) (rest : List Input) : (s.takeCommand up rest).sn = s.sn := rfl
@[simp] theorem State.takeCommand_sk (up : Bool) (rest : List Input) : (s.takeCommand up rest).sk = s.sk := rfl
@[simp] theorem State.takeCommand_smt (up : Bool) (rest : List Input) : (s.takeCommand up rest).smt = s.smt := rfl
@[simp] theorem State.takeCommand_slen (up : Bool) (rest : List Input) : (s.takeCommand up rest).slen = s.slen := rfl
@[simp] theorem State.takeCommand_rcap (up : Bool) (rest : List Input) : (s.takeCommand up rest).rcap = s.rcap := rfl
@[simp] theorem State.takeCommand_rlencap (up : Bool) (rest : List Input) : (s.takeCommand up rest).rlencap = s.rlencap := rfl
@[simp] theorem State.takeCommand_rslen (up : Bool) (rest : List Input) : (s.takeCommand up rest).rslen = s.rslen := rfl
@[simp] theorem State.takeCommand_rreads (up : Bool) (rest : List Input) : (s.takeCommand up rest).rreads = s.rreads := rfl
@[simp] theorem State.takeCommand_rpkts (up : Bool) (rest : List Input) : (s.takeCommand up rest).rpkts = s.rpkts := rfl
@[simp] theorem State.takeCommand_rlast (up : Bool) (rest : List Input) : (s.takeCommand up rest).rlast = s.rlast := rfl
@[simp] theorem State.takeCommand_phase (up : Bool) (rest : List Input) : (s.takeCommand up rest).phase = s.phase := rfl
@[simp] theorem State.takeCommand_cause (up : Bool) (rest : List Input) : (s.takeCommand up rest).cause = s.cause := rfl
@[simp] theorem State.takeCommand_txfv (up : Bool) (rest : List Input) : (s.takeCommand up rest).txfv = s.txfv := rfl
@[simp] theorem State.takeCommand_rxfv (up : Bool) (rest : List Input) : (s.takeCommand up rest).rxfv = s.rxfv := rfl
@[simp] theorem State.takeCommand_src (up : Bool) (rest : List Input) : (s.takeCommand up rest).src = s.src := rfl
@[simp] theorem State.takeCommand_lin (up : Bool) (rest : List Input) : (s.takeCommand up rest).lin = s.lin := rfl
@[simp] theorem State.takeCommand_rsb (up : Bool) (rest : List Input) : (s.takeCommand up rest).rsb = s.rsb := rfl
@[simp] theorem State.takeCommand_txf (up : Bool) (rest : List Input) : (s.takeCommand up rest).txf = s.txf := rfl
@[simp] theorem State.takeCommand_rxf (up : Bool) (rest : List Input) : (s.takeCommand up rest).rxf = s.rxf := rfl
@[simp] theorem State.takeCommand_lout (up : Bool) (rest : List Input) : (s.takeCommand up rest).lout = s.lout := rfl
@[simp] theorem State.takeCommand_linkup (up : Bool) (rest : List Input) : (s.takeCommand up rest).linkup = up := rfl
@[simp] theorem State.takeCommand_inputs (up : Bool) (rest : List Input) : (s.takeCommand up rest).inputs = rest := rfl
@[simp] theorem State.takeCommand_responses (up : Bool) (rest : List Input) : (s.takeCommand up rest).responses = s.responses := rfl

@[simp] theorem State.acceptFrame_ctrl (d : Deframed) : (s.acceptFrame d).ctrl = s.ctrl := by
  unfold State.acceptFrame
  split <;> split <;> rfl
@[simp] theorem State.acceptFrame_srclen (d : Deframed) : (s.acceptFrame d).srclen = s.srclen := by
  unfold State.acceptFrame
  split <;> split <;> rfl
@[simp] theorem State.acceptFrame_linlen (d : Deframed) : (s.acceptFrame d).linlen = s.linlen := by
  unfold State.acceptFrame
  split <;> split <;> rfl
@[simp] theorem State.acceptFrame_taddr (d : Deframed) : (s.acceptFrame d).taddr = s.taddr := by
  unfold State.acceptFrame
  split <;> split <;> rfl
@[simp] theorem State.acceptFrame_tcd (d : Deframed) : (s.acceptFrame d).tcd = s.tcd := by
  unfold State.acceptFrame
  split <;> split <;> rfl
@[simp] theorem State.acceptFrame_rxch (d : Deframed) : (s.acceptFrame d).rxch = s.rxch := by
  unfold State.acceptFrame
  split <;> split <;> rfl
@[simp] theorem State.acceptFrame_txch (d : Deframed) : (s.acceptFrame d).txch = s.txch := by
  unfold State.acceptFrame
  split <;> split <;> rfl
@[simp] theorem State.acceptFrame_raddr (d : Deframed) : (s.acceptFrame d).raddr = s.raddr := by
  unfold State.acceptFrame
  split <;> split <;> rfl
@[simp] theorem State.acceptFrame_rmt (d : Deframed) : (s.acceptFrame d).rmt = s.rmt := by
  unfold State.acceptFrame
  split <;> split <;> rfl
@[simp] theorem State.acceptFrame_rcd (d : Deframed) : (s.acceptFrame d).rcd = s.rcd := by
  unfold State.acceptFrame
  split <;> split <;> rfl
@[simp] theorem State.acceptFrame_sn (d : Deframed) : (s.acceptFrame d).sn = s.sn := by
  unfold State.acceptFrame
  split <;> split <;> rfl
@[simp] theorem State.acceptFrame_sk (d : Deframed) : (s.acceptFrame d).sk = s.sk := by
  unfold State.acceptFrame
  split <;> split <;> rfl
@[simp] theorem State.acceptFrame_smt (d : Deframed) : (s.acceptFrame d).smt = s.smt := by
  unfold State.acceptFrame
  split <;> split <;> rfl
@[simp] theorem State.acceptFrame_slen (d : Deframed) : (s.acceptFrame d).slen = s.slen := by
  unfold State.acceptFrame
  split <;> split <;> rfl
@[simp] theorem State.acceptFrame_rcap (d : Deframed) : (s.acceptFrame d).rcap = s.rcap := by
  unfold State.acceptFrame
  split <;> split <;> rfl
@[simp] theorem State.acceptFrame_rlencap (d : Deframed) : (s.acceptFrame d).rlencap = s.rlencap := by
  unfold State.acceptFrame
  split <;> split <;> rfl
@[simp] theorem State.acceptFrame_rslen (d : Deframed) : (s.acceptFrame d).rslen = s.rslen := by
  unfold State.acceptFrame
  split <;> split <;> rfl
@[simp] theorem State.acceptFrame_rreads (d : Deframed) : (s.acceptFrame d).rreads = s.rreads := by
  unfold State.acceptFrame
  split <;> split <;> rfl
@[simp] theorem State.acceptFrame_rpkts (d : Deframed) : (s.acceptFrame d).rpkts = s.rpkts := by
  unfold State.acceptFrame
  split <;> split <;> rfl
@[simp] theorem State.acceptFrame_rlast (d : Deframed) : (s.acceptFrame d).rlast = s.rlast := by
  unfold State.acceptFrame
  split <;> split <;> rfl
@[simp] theorem State.acceptFrame_phase (d : Deframed) : (s.acceptFrame d).phase = s.phase := by
  unfold State.acceptFrame
  split <;> split <;> rfl
@[simp] theorem State.acceptFrame_cause (d : Deframed) : (s.acceptFrame d).cause = s.cause := by
  unfold State.acceptFrame
  split <;> split <;> rfl
@[simp] theorem State.acceptFrame_txfv (d : Deframed) : (s.acceptFrame d).txfv = s.txfv := by
  unfold State.acceptFrame
  split <;> split <;> rfl
@[simp] theorem State.acceptFrame_rxfv (d : Deframed) : (s.acceptFrame d).rxfv = true := by
  unfold State.acceptFrame
  split <;> split <;> rfl
@[simp] theorem State.acceptFrame_src (d : Deframed) : (s.acceptFrame d).src = s.src := by
  unfold State.acceptFrame
  split <;> split <;> rfl
@[simp] theorem State.acceptFrame_lin (d : Deframed) : (s.acceptFrame d).lin = s.lin := by
  unfold State.acceptFrame
  split <;> split <;> rfl
@[simp] theorem State.acceptFrame_rsb (d : Deframed) : (s.acceptFrame d).rsb = s.rsb := by
  unfold State.acceptFrame
  split <;> split <;> rfl
@[simp] theorem State.acceptFrame_txf (d : Deframed) : (s.acceptFrame d).txf = s.txf := by
  unfold State.acceptFrame
  split <;> split <;> rfl
@[simp] theorem State.acceptFrame_rxf (d : Deframed) : (s.acceptFrame d).rxf = s.rxf.storeSpan 0 d.frame.raw := by
  unfold State.acceptFrame
  split <;> split <;> rfl
@[simp] theorem State.acceptFrame_lout (d : Deframed) : (s.acceptFrame d).lout = s.lout := by
  unfold State.acceptFrame
  split <;> split <;> rfl
@[simp] theorem State.acceptFrame_linkup (d : Deframed) : (s.acceptFrame d).linkup = s.linkup := by
  unfold State.acceptFrame
  split <;> split <;> rfl
@[simp] theorem State.acceptFrame_inputs (d : Deframed) : (s.acceptFrame d).inputs = s.inputs := by
  unfold State.acceptFrame
  split <;> split <;> rfl
@[simp] theorem State.acceptFrame_responses (d : Deframed) : (s.acceptFrame d).responses = s.responses := by
  unfold State.acceptFrame
  split <;> split <;> rfl

@[simp] theorem State.takeHeader_ctrl (p : Bytes) : (s.takeHeader p).ctrl = s.ctrl := rfl
@[simp] theorem State.takeHeader_sticky (p : Bytes) : (s.takeHeader p).sticky = s.sticky := rfl
@[simp] theorem State.takeHeader_srclen (p : Bytes) : (s.takeHeader p).srclen = s.srclen := rfl
@[simp] theorem State.takeHeader_linlen (p : Bytes) : (s.takeHeader p).linlen = s.linlen := rfl
@[simp] theorem State.takeHeader_taddr (p : Bytes) : (s.takeHeader p).taddr = s.taddr := rfl
@[simp] theorem State.takeHeader_tcd (p : Bytes) : (s.takeHeader p).tcd = s.tcd := rfl
@[simp] theorem State.takeHeader_rxch (p : Bytes) : (s.takeHeader p).rxch = s.rxch := rfl
@[simp] theorem State.takeHeader_txch (p : Bytes) : (s.takeHeader p).txch = s.txch := rfl
@[simp] theorem State.takeHeader_raddr (p : Bytes) : (s.takeHeader p).raddr = un32 (headerParse p).1 := rfl
@[simp] theorem State.takeHeader_rmt (p : Bytes) : (s.takeHeader p).rmt = (headerParse p).2.1 := rfl
@[simp] theorem State.takeHeader_rcd (p : Bytes) : (s.takeHeader p).rcd = s.rcd := rfl
@[simp] theorem State.takeHeader_rplen (p : Bytes) : (s.takeHeader p).rplen = s.rplen := rfl
@[simp] theorem State.takeHeader_rrssi (p : Bytes) : (s.takeHeader p).rrssi = s.rrssi := rfl
@[simp] theorem State.takeHeader_sn (p : Bytes) : (s.takeHeader p).sn = s.sn := rfl
@[simp] theorem State.takeHeader_sk (p : Bytes) : (s.takeHeader p).sk = s.sk := rfl
@[simp] theorem State.takeHeader_smt (p : Bytes) : (s.takeHeader p).smt = s.smt := rfl
@[simp] theorem State.takeHeader_slen (p : Bytes) : (s.takeHeader p).slen = s.slen := rfl
@[simp] theorem State.takeHeader_rcap (p : Bytes) : (s.takeHeader p).rcap = s.rcap := rfl
@[simp] theorem State.takeHeader_rlencap (p : Bytes) : (s.takeHeader p).rlencap = s.rlencap := rfl
@[simp] theorem State.takeHeader_rslen (p : Bytes) : (s.takeHeader p).rslen = s.rslen := rfl
@[simp] theorem State.takeHeader_rreads (p : Bytes) : (s.takeHeader p).rreads = s.rreads := rfl
@[simp] theorem State.takeHeader_rpkts (p : Bytes) : (s.takeHeader p).rpkts = s.rpkts := rfl
@[simp] theorem State.takeHeader_rlast (p : Bytes) : (s.takeHeader p).rlast = s.rlast := rfl
@[simp] theorem State.takeHeader_phase (p : Bytes) : (s.takeHeader p).phase = s.phase := rfl
@[simp] theorem State.takeHeader_cause (p : Bytes) : (s.takeHeader p).cause = s.cause := rfl
@[simp] theorem State.takeHeader_txfv (p : Bytes) : (s.takeHeader p).txfv = s.txfv := rfl
@[simp] theorem State.takeHeader_rxfv (p : Bytes) : (s.takeHeader p).rxfv = s.rxfv := rfl
@[simp] theorem State.takeHeader_src (p : Bytes) : (s.takeHeader p).src = s.src := rfl
@[simp] theorem State.takeHeader_lin (p : Bytes) : (s.takeHeader p).lin = s.lin := rfl
@[simp] theorem State.takeHeader_rsb (p : Bytes) : (s.takeHeader p).rsb = s.rsb := rfl
@[simp] theorem State.takeHeader_txf (p : Bytes) : (s.takeHeader p).txf = s.txf := rfl
@[simp] theorem State.takeHeader_rxf (p : Bytes) : (s.takeHeader p).rxf = s.rxf := rfl
@[simp] theorem State.takeHeader_lout (p : Bytes) : (s.takeHeader p).lout = s.lout := rfl
@[simp] theorem State.takeHeader_linkup (p : Bytes) : (s.takeHeader p).linkup = s.linkup := rfl
@[simp] theorem State.takeHeader_inputs (p : Bytes) : (s.takeHeader p).inputs = s.inputs := rfl
@[simp] theorem State.takeHeader_responses (p : Bytes) : (s.takeHeader p).responses = s.responses := rfl

@[simp] theorem State.takeInfo_ctrl (p : Bytes) : (s.takeInfo p).ctrl = s.ctrl := rfl
@[simp] theorem State.takeInfo_sticky (p : Bytes) : (s.takeInfo p).sticky = s.sticky := rfl
@[simp] theorem State.takeInfo_srclen (p : Bytes) : (s.takeInfo p).srclen = s.srclen := rfl
@[simp] theorem State.takeInfo_linlen (p : Bytes) : (s.takeInfo p).linlen = s.linlen := rfl
@[simp] theorem State.takeInfo_taddr (p : Bytes) : (s.takeInfo p).taddr = s.taddr := rfl
@[simp] theorem State.takeInfo_tcd (p : Bytes) : (s.takeInfo p).tcd = s.tcd := rfl
@[simp] theorem State.takeInfo_rxch (p : Bytes) : (s.takeInfo p).rxch = s.rxch := rfl
@[simp] theorem State.takeInfo_txch (p : Bytes) : (s.takeInfo p).txch = s.txch := rfl
@[simp] theorem State.takeInfo_raddr (p : Bytes) : (s.takeInfo p).raddr = s.raddr := rfl
@[simp] theorem State.takeInfo_rmt (p : Bytes) : (s.takeInfo p).rmt = (infoParse p).2.1 := rfl
@[simp] theorem State.takeInfo_rcd (p : Bytes) : (s.takeInfo p).rcd = (infoParse p).1 := rfl
@[simp] theorem State.takeInfo_rplen (p : Bytes) : (s.takeInfo p).rplen = s.rplen := rfl
@[simp] theorem State.takeInfo_rrssi (p : Bytes) : (s.takeInfo p).rrssi = s.rrssi := rfl
@[simp] theorem State.takeInfo_sn (p : Bytes) : (s.takeInfo p).sn = s.sn := rfl
@[simp] theorem State.takeInfo_sk (p : Bytes) : (s.takeInfo p).sk = s.sk := rfl
@[simp] theorem State.takeInfo_smt (p : Bytes) : (s.takeInfo p).smt = s.smt := rfl
@[simp] theorem State.takeInfo_slen (p : Bytes) : (s.takeInfo p).slen = s.slen := rfl
@[simp] theorem State.takeInfo_rcap (p : Bytes) : (s.takeInfo p).rcap = s.rcap := rfl
@[simp] theorem State.takeInfo_rlencap (p : Bytes) : (s.takeInfo p).rlencap = s.rlencap := rfl
@[simp] theorem State.takeInfo_rslen (p : Bytes) : (s.takeInfo p).rslen = s.rslen := rfl
@[simp] theorem State.takeInfo_rreads (p : Bytes) : (s.takeInfo p).rreads = s.rreads := rfl
@[simp] theorem State.takeInfo_rpkts (p : Bytes) : (s.takeInfo p).rpkts = s.rpkts := rfl
@[simp] theorem State.takeInfo_rlast (p : Bytes) : (s.takeInfo p).rlast = s.rlast := rfl
@[simp] theorem State.takeInfo_phase (p : Bytes) : (s.takeInfo p).phase = s.phase := rfl
@[simp] theorem State.takeInfo_cause (p : Bytes) : (s.takeInfo p).cause = s.cause := rfl
@[simp] theorem State.takeInfo_txfv (p : Bytes) : (s.takeInfo p).txfv = s.txfv := rfl
@[simp] theorem State.takeInfo_rxfv (p : Bytes) : (s.takeInfo p).rxfv = s.rxfv := rfl
@[simp] theorem State.takeInfo_src (p : Bytes) : (s.takeInfo p).src = s.src := rfl
@[simp] theorem State.takeInfo_lin (p : Bytes) : (s.takeInfo p).lin = s.lin := rfl
@[simp] theorem State.takeInfo_rsb (p : Bytes) : (s.takeInfo p).rsb = s.rsb := rfl
@[simp] theorem State.takeInfo_txf (p : Bytes) : (s.takeInfo p).txf = s.txf := rfl
@[simp] theorem State.takeInfo_rxf (p : Bytes) : (s.takeInfo p).rxf = s.rxf := rfl
@[simp] theorem State.takeInfo_lout (p : Bytes) : (s.takeInfo p).lout = s.lout := rfl
@[simp] theorem State.takeInfo_linkup (p : Bytes) : (s.takeInfo p).linkup = s.linkup := rfl
@[simp] theorem State.takeInfo_inputs (p : Bytes) : (s.takeInfo p).inputs = s.inputs := rfl
@[simp] theorem State.takeInfo_responses (p : Bytes) : (s.takeInfo p).responses = s.responses := rfl

@[simp] theorem State.beginSplit_ctrl (mt : Byte) : (s.beginSplit mt).ctrl = s.ctrl := rfl
@[simp] theorem State.beginSplit_sticky (mt : Byte) : (s.beginSplit mt).sticky = s.sticky := rfl
@[simp] theorem State.beginSplit_srclen (mt : Byte) : (s.beginSplit mt).srclen = s.srclen := rfl
@[simp] theorem State.beginSplit_linlen (mt : Byte) : (s.beginSplit mt).linlen = s.linlen := rfl
@[simp] theorem State.beginSplit_taddr (mt : Byte) : (s.beginSplit mt).taddr = s.taddr := rfl
@[simp] theorem State.beginSplit_tcd (mt : Byte) : (s.beginSplit mt).tcd = s.tcd := rfl
@[simp] theorem State.beginSplit_rxch (mt : Byte) : (s.beginSplit mt).rxch = s.rxch := rfl
@[simp] theorem State.beginSplit_txch (mt : Byte) : (s.beginSplit mt).txch = s.txch := rfl
@[simp] theorem State.beginSplit_raddr (mt : Byte) : (s.beginSplit mt).raddr = s.raddr := rfl
@[simp] theorem State.beginSplit_rmt (mt : Byte) : (s.beginSplit mt).rmt = s.rmt := rfl
@[simp] theorem State.beginSplit_rcd (mt : Byte) : (s.beginSplit mt).rcd = s.rcd := rfl
@[simp] theorem State.beginSplit_rplen (mt : Byte) : (s.beginSplit mt).rplen = s.rplen := rfl
@[simp] theorem State.beginSplit_rrssi (mt : Byte) : (s.beginSplit mt).rrssi = s.rrssi := rfl
@[simp] theorem State.beginSplit_sn (mt : Byte) : (s.beginSplit mt).sn = BitVec.ofNat 17 (ceilDiv s.srclen.toNat 61) := rfl
@[simp] theorem State.beginSplit_sk (mt : Byte) : (s.beginSplit mt).sk = 0 := rfl
@[simp] theorem State.beginSplit_smt (mt : Byte) : (s.beginSplit mt).smt = mt := rfl
@[simp] theorem State.beginSplit_slen (mt : Byte) : (s.beginSplit mt).slen = s.srclen := rfl
@[simp] theorem State.beginSplit_rcap (mt : Byte) : (s.beginSplit mt).rcap = s.rcap := rfl
@[simp] theorem State.beginSplit_rlencap (mt : Byte) : (s.beginSplit mt).rlencap = s.rlencap := rfl
@[simp] theorem State.beginSplit_rslen (mt : Byte) : (s.beginSplit mt).rslen = s.rslen := rfl
@[simp] theorem State.beginSplit_rreads (mt : Byte) : (s.beginSplit mt).rreads = s.rreads := rfl
@[simp] theorem State.beginSplit_rpkts (mt : Byte) : (s.beginSplit mt).rpkts = s.rpkts := rfl
@[simp] theorem State.beginSplit_rlast (mt : Byte) : (s.beginSplit mt).rlast = s.rlast := rfl
@[simp] theorem State.beginSplit_phase (mt : Byte) : (s.beginSplit mt).phase = s.phase := rfl
@[simp] theorem State.beginSplit_cause (mt : Byte) : (s.beginSplit mt).cause = s.cause := rfl
@[simp] theorem State.beginSplit_txfv (mt : Byte) : (s.beginSplit mt).txfv = s.txfv := rfl
@[simp] theorem State.beginSplit_rxfv (mt : Byte) : (s.beginSplit mt).rxfv = s.rxfv := rfl
@[simp] theorem State.beginSplit_src (mt : Byte) : (s.beginSplit mt).src = s.src := rfl
@[simp] theorem State.beginSplit_lin (mt : Byte) : (s.beginSplit mt).lin = s.lin := rfl
@[simp] theorem State.beginSplit_rsb (mt : Byte) : (s.beginSplit mt).rsb = s.rsb := rfl
@[simp] theorem State.beginSplit_txf (mt : Byte) : (s.beginSplit mt).txf = s.txf := rfl
@[simp] theorem State.beginSplit_rxf (mt : Byte) : (s.beginSplit mt).rxf = s.rxf := rfl
@[simp] theorem State.beginSplit_lout (mt : Byte) : (s.beginSplit mt).lout = s.lout := rfl
@[simp] theorem State.beginSplit_linkup (mt : Byte) : (s.beginSplit mt).linkup = s.linkup := rfl
@[simp] theorem State.beginSplit_inputs (mt : Byte) : (s.beginSplit mt).inputs = s.inputs := rfl
@[simp] theorem State.beginSplit_responses (mt : Byte) : (s.beginSplit mt).responses = s.responses := rfl

@[simp] theorem State.produce_ctrl (ch : BitVec 4) (chunk : Bytes) : (s.produce ch chunk).ctrl = s.ctrl := rfl
@[simp] theorem State.produce_sticky (ch : BitVec 4) (chunk : Bytes) : (s.produce ch chunk).sticky = s.sticky := rfl
@[simp] theorem State.produce_srclen (ch : BitVec 4) (chunk : Bytes) : (s.produce ch chunk).srclen = s.srclen := rfl
@[simp] theorem State.produce_linlen (ch : BitVec 4) (chunk : Bytes) : (s.produce ch chunk).linlen = s.linlen := rfl
@[simp] theorem State.produce_taddr (ch : BitVec 4) (chunk : Bytes) : (s.produce ch chunk).taddr = s.taddr := rfl
@[simp] theorem State.produce_tcd (ch : BitVec 4) (chunk : Bytes) : (s.produce ch chunk).tcd = s.tcd := rfl
@[simp] theorem State.produce_rxch (ch : BitVec 4) (chunk : Bytes) : (s.produce ch chunk).rxch = s.rxch := rfl
@[simp] theorem State.produce_txch (ch : BitVec 4) (chunk : Bytes) : (s.produce ch chunk).txch = ch := rfl
@[simp] theorem State.produce_raddr (ch : BitVec 4) (chunk : Bytes) : (s.produce ch chunk).raddr = s.raddr := rfl
@[simp] theorem State.produce_rmt (ch : BitVec 4) (chunk : Bytes) : (s.produce ch chunk).rmt = s.rmt := rfl
@[simp] theorem State.produce_rcd (ch : BitVec 4) (chunk : Bytes) : (s.produce ch chunk).rcd = s.rcd := rfl
@[simp] theorem State.produce_rplen (ch : BitVec 4) (chunk : Bytes) : (s.produce ch chunk).rplen = s.rplen := rfl
@[simp] theorem State.produce_rrssi (ch : BitVec 4) (chunk : Bytes) : (s.produce ch chunk).rrssi = s.rrssi := rfl
@[simp] theorem State.produce_sn (ch : BitVec 4) (chunk : Bytes) : (s.produce ch chunk).sn = s.sn := rfl
@[simp] theorem State.produce_sk (ch : BitVec 4) (chunk : Bytes) : (s.produce ch chunk).sk = BitVec.ofNat 17 (s.sk.toNat + 1) := rfl
@[simp] theorem State.produce_smt (ch : BitVec 4) (chunk : Bytes) : (s.produce ch chunk).smt = s.smt := rfl
@[simp] theorem State.produce_slen (ch : BitVec 4) (chunk : Bytes) : (s.produce ch chunk).slen = s.slen := rfl
@[simp] theorem State.produce_rcap (ch : BitVec 4) (chunk : Bytes) : (s.produce ch chunk).rcap = s.rcap := rfl
@[simp] theorem State.produce_rlencap (ch : BitVec 4) (chunk : Bytes) : (s.produce ch chunk).rlencap = s.rlencap := rfl
@[simp] theorem State.produce_rslen (ch : BitVec 4) (chunk : Bytes) : (s.produce ch chunk).rslen = s.rslen := rfl
@[simp] theorem State.produce_rreads (ch : BitVec 4) (chunk : Bytes) : (s.produce ch chunk).rreads = s.rreads := rfl
@[simp] theorem State.produce_rpkts (ch : BitVec 4) (chunk : Bytes) : (s.produce ch chunk).rpkts = s.rpkts := rfl
@[simp] theorem State.produce_rlast (ch : BitVec 4) (chunk : Bytes) : (s.produce ch chunk).rlast = s.rlast := rfl
@[simp] theorem State.produce_phase (ch : BitVec 4) (chunk : Bytes) : (s.produce ch chunk).phase = s.phase := rfl
@[simp] theorem State.produce_cause (ch : BitVec 4) (chunk : Bytes) : (s.produce ch chunk).cause = s.cause := rfl
@[simp] theorem State.produce_txfv (ch : BitVec 4) (chunk : Bytes) : (s.produce ch chunk).txfv = true := rfl
@[simp] theorem State.produce_rxfv (ch : BitVec 4) (chunk : Bytes) : (s.produce ch chunk).rxfv = s.rxfv := rfl
@[simp] theorem State.produce_src (ch : BitVec 4) (chunk : Bytes) : (s.produce ch chunk).src = s.src := rfl
@[simp] theorem State.produce_lin (ch : BitVec 4) (chunk : Bytes) : (s.produce ch chunk).lin = s.lin := rfl
@[simp] theorem State.produce_rsb (ch : BitVec 4) (chunk : Bytes) : (s.produce ch chunk).rsb = s.rsb := rfl
@[simp] theorem State.produce_txf (ch : BitVec 4) (chunk : Bytes) : (s.produce ch chunk).txf = s.txf.storeSpan 0 (pad 64 (infoPayload s.nextCountdown s.smt chunk)) := rfl
@[simp] theorem State.produce_rxf (ch : BitVec 4) (chunk : Bytes) : (s.produce ch chunk).rxf = s.rxf := rfl
@[simp] theorem State.produce_lout (ch : BitVec 4) (chunk : Bytes) : (s.produce ch chunk).lout = s.lout := rfl
@[simp] theorem State.produce_linkup (ch : BitVec 4) (chunk : Bytes) : (s.produce ch chunk).linkup = s.linkup := rfl
@[simp] theorem State.produce_inputs (ch : BitVec 4) (chunk : Bytes) : (s.produce ch chunk).inputs = s.inputs := rfl
@[simp] theorem State.produce_responses (ch : BitVec 4) (chunk : Bytes) : (s.produce ch chunk).responses = s.responses := rfl

@[simp] theorem State.beginTransfer_ctrl : s.beginTransfer.ctrl = s.ctrl := rfl
@[simp] theorem State.beginTransfer_sticky : s.beginTransfer.sticky = s.sticky := rfl
@[simp] theorem State.beginTransfer_srclen : s.beginTransfer.srclen = s.srclen := rfl
@[simp] theorem State.beginTransfer_linlen : s.beginTransfer.linlen = s.linlen := rfl
@[simp] theorem State.beginTransfer_taddr : s.beginTransfer.taddr = s.taddr := rfl
@[simp] theorem State.beginTransfer_tcd : s.beginTransfer.tcd = s.tcd := rfl
@[simp] theorem State.beginTransfer_rxch : s.beginTransfer.rxch = s.rxch := rfl
@[simp] theorem State.beginTransfer_txch : s.beginTransfer.txch = s.txch := rfl
@[simp] theorem State.beginTransfer_raddr : s.beginTransfer.raddr = s.raddr := rfl
@[simp] theorem State.beginTransfer_rmt : s.beginTransfer.rmt = s.rmt := rfl
@[simp] theorem State.beginTransfer_rcd : s.beginTransfer.rcd = s.rcd := rfl
@[simp] theorem State.beginTransfer_rplen : s.beginTransfer.rplen = s.rplen := rfl
@[simp] theorem State.beginTransfer_rrssi : s.beginTransfer.rrssi = s.rrssi := rfl
@[simp] theorem State.beginTransfer_sn : s.beginTransfer.sn = s.sn := rfl
@[simp] theorem State.beginTransfer_sk : s.beginTransfer.sk = s.sk := rfl
@[simp] theorem State.beginTransfer_smt : s.beginTransfer.smt = s.smt := rfl
@[simp] theorem State.beginTransfer_slen : s.beginTransfer.slen = s.slen := rfl
@[simp] theorem State.beginTransfer_rcap : s.beginTransfer.rcap = s.rcap := rfl
@[simp] theorem State.beginTransfer_rlencap : s.beginTransfer.rlencap = s.rlencap := rfl
@[simp] theorem State.beginTransfer_rslen : s.beginTransfer.rslen = 0 := rfl
@[simp] theorem State.beginTransfer_rreads : s.beginTransfer.rreads = 0 := rfl
@[simp] theorem State.beginTransfer_rpkts : s.beginTransfer.rpkts = 0 := rfl
@[simp] theorem State.beginTransfer_rlast : s.beginTransfer.rlast = 0 := rfl
@[simp] theorem State.beginTransfer_phase : s.beginTransfer.phase = .active := rfl
@[simp] theorem State.beginTransfer_cause : s.beginTransfer.cause = .none := rfl
@[simp] theorem State.beginTransfer_txfv : s.beginTransfer.txfv = s.txfv := rfl
@[simp] theorem State.beginTransfer_rxfv : s.beginTransfer.rxfv = s.rxfv := rfl
@[simp] theorem State.beginTransfer_src : s.beginTransfer.src = s.src := rfl
@[simp] theorem State.beginTransfer_lin : s.beginTransfer.lin = s.lin := rfl
@[simp] theorem State.beginTransfer_rsb : s.beginTransfer.rsb = s.rsb := rfl
@[simp] theorem State.beginTransfer_txf : s.beginTransfer.txf = s.txf := rfl
@[simp] theorem State.beginTransfer_rxf : s.beginTransfer.rxf = s.rxf := rfl
@[simp] theorem State.beginTransfer_lout : s.beginTransfer.lout = s.lout := rfl
@[simp] theorem State.beginTransfer_linkup : s.beginTransfer.linkup = s.linkup := rfl
@[simp] theorem State.beginTransfer_inputs : s.beginTransfer.inputs = s.inputs := rfl
@[simp] theorem State.beginTransfer_responses : s.beginTransfer.responses = s.responses := rfl

@[simp] theorem State.endTransfer_ctrl (c : Cause) : (s.endTransfer c).ctrl = s.ctrl := rfl
@[simp] theorem State.endTransfer_sticky (c : Cause) : (s.endTransfer c).sticky = s.sticky := rfl
@[simp] theorem State.endTransfer_srclen (c : Cause) : (s.endTransfer c).srclen = s.srclen := rfl
@[simp] theorem State.endTransfer_linlen (c : Cause) : (s.endTransfer c).linlen = s.linlen := rfl
@[simp] theorem State.endTransfer_taddr (c : Cause) : (s.endTransfer c).taddr = s.taddr := rfl
@[simp] theorem State.endTransfer_tcd (c : Cause) : (s.endTransfer c).tcd = s.tcd := rfl
@[simp] theorem State.endTransfer_rxch (c : Cause) : (s.endTransfer c).rxch = s.rxch := rfl
@[simp] theorem State.endTransfer_txch (c : Cause) : (s.endTransfer c).txch = s.txch := rfl
@[simp] theorem State.endTransfer_raddr (c : Cause) : (s.endTransfer c).raddr = s.raddr := rfl
@[simp] theorem State.endTransfer_rmt (c : Cause) : (s.endTransfer c).rmt = s.rmt := rfl
@[simp] theorem State.endTransfer_rcd (c : Cause) : (s.endTransfer c).rcd = s.rcd := rfl
@[simp] theorem State.endTransfer_rplen (c : Cause) : (s.endTransfer c).rplen = s.rplen := rfl
@[simp] theorem State.endTransfer_rrssi (c : Cause) : (s.endTransfer c).rrssi = s.rrssi := rfl
@[simp] theorem State.endTransfer_sn (c : Cause) : (s.endTransfer c).sn = s.sn := rfl
@[simp] theorem State.endTransfer_sk (c : Cause) : (s.endTransfer c).sk = s.sk := rfl
@[simp] theorem State.endTransfer_smt (c : Cause) : (s.endTransfer c).smt = s.smt := rfl
@[simp] theorem State.endTransfer_slen (c : Cause) : (s.endTransfer c).slen = s.slen := rfl
@[simp] theorem State.endTransfer_rcap (c : Cause) : (s.endTransfer c).rcap = s.rcap := rfl
@[simp] theorem State.endTransfer_rlencap (c : Cause) : (s.endTransfer c).rlencap = s.rlencap := rfl
@[simp] theorem State.endTransfer_rslen (c : Cause) : (s.endTransfer c).rslen = s.rslen := rfl
@[simp] theorem State.endTransfer_rreads (c : Cause) : (s.endTransfer c).rreads = s.rreads := rfl
@[simp] theorem State.endTransfer_rpkts (c : Cause) : (s.endTransfer c).rpkts = s.rpkts := rfl
@[simp] theorem State.endTransfer_rlast (c : Cause) : (s.endTransfer c).rlast = s.rlast := rfl
@[simp] theorem State.endTransfer_phase (c : Cause) : (s.endTransfer c).phase = .ended := rfl
@[simp] theorem State.endTransfer_cause (c : Cause) : (s.endTransfer c).cause = c := rfl
@[simp] theorem State.endTransfer_txfv (c : Cause) : (s.endTransfer c).txfv = s.txfv := rfl
@[simp] theorem State.endTransfer_rxfv (c : Cause) : (s.endTransfer c).rxfv = s.rxfv := rfl
@[simp] theorem State.endTransfer_src (c : Cause) : (s.endTransfer c).src = s.src := rfl
@[simp] theorem State.endTransfer_lin (c : Cause) : (s.endTransfer c).lin = s.lin := rfl
@[simp] theorem State.endTransfer_rsb (c : Cause) : (s.endTransfer c).rsb = s.rsb := rfl
@[simp] theorem State.endTransfer_txf (c : Cause) : (s.endTransfer c).txf = s.txf := rfl
@[simp] theorem State.endTransfer_rxf (c : Cause) : (s.endTransfer c).rxf = s.rxf := rfl
@[simp] theorem State.endTransfer_lout (c : Cause) : (s.endTransfer c).lout = s.lout := rfl
@[simp] theorem State.endTransfer_linkup (c : Cause) : (s.endTransfer c).linkup = s.linkup := rfl
@[simp] theorem State.endTransfer_inputs (c : Cause) : (s.endTransfer c).inputs = s.inputs := rfl
@[simp] theorem State.endTransfer_responses (c : Cause) : (s.endTransfer c).responses = s.responses := rfl

@[simp] theorem State.countRead_ctrl : s.countRead.ctrl = s.ctrl := rfl
@[simp] theorem State.countRead_sticky : s.countRead.sticky = s.sticky := rfl
@[simp] theorem State.countRead_srclen : s.countRead.srclen = s.srclen := rfl
@[simp] theorem State.countRead_linlen : s.countRead.linlen = s.linlen := rfl
@[simp] theorem State.countRead_taddr : s.countRead.taddr = s.taddr := rfl
@[simp] theorem State.countRead_tcd : s.countRead.tcd = s.tcd := rfl
@[simp] theorem State.countRead_rxch : s.countRead.rxch = s.rxch := rfl
@[simp] theorem State.countRead_txch : s.countRead.txch = s.txch := rfl
@[simp] theorem State.countRead_raddr : s.countRead.raddr = s.raddr := rfl
@[simp] theorem State.countRead_rmt : s.countRead.rmt = s.rmt := rfl
@[simp] theorem State.countRead_rcd : s.countRead.rcd = s.rcd := rfl
@[simp] theorem State.countRead_rplen : s.countRead.rplen = s.rplen := rfl
@[simp] theorem State.countRead_rrssi : s.countRead.rrssi = s.rrssi := rfl
@[simp] theorem State.countRead_sn : s.countRead.sn = s.sn := rfl
@[simp] theorem State.countRead_sk : s.countRead.sk = s.sk := rfl
@[simp] theorem State.countRead_smt : s.countRead.smt = s.smt := rfl
@[simp] theorem State.countRead_slen : s.countRead.slen = s.slen := rfl
@[simp] theorem State.countRead_rcap : s.countRead.rcap = s.rcap := rfl
@[simp] theorem State.countRead_rlencap : s.countRead.rlencap = s.rlencap := rfl
@[simp] theorem State.countRead_rslen : s.countRead.rslen = s.rslen := rfl
@[simp] theorem State.countRead_rreads : s.countRead.rreads = satSucc s.rreads := rfl
@[simp] theorem State.countRead_rpkts : s.countRead.rpkts = s.rpkts := rfl
@[simp] theorem State.countRead_rlast : s.countRead.rlast = s.rlast := rfl
@[simp] theorem State.countRead_phase : s.countRead.phase = s.phase := rfl
@[simp] theorem State.countRead_cause : s.countRead.cause = s.cause := rfl
@[simp] theorem State.countRead_txfv : s.countRead.txfv = s.txfv := rfl
@[simp] theorem State.countRead_rxfv : s.countRead.rxfv = s.rxfv := rfl
@[simp] theorem State.countRead_src : s.countRead.src = s.src := rfl
@[simp] theorem State.countRead_lin : s.countRead.lin = s.lin := rfl
@[simp] theorem State.countRead_rsb : s.countRead.rsb = s.rsb := rfl
@[simp] theorem State.countRead_txf : s.countRead.txf = s.txf := rfl
@[simp] theorem State.countRead_rxf : s.countRead.rxf = s.rxf := rfl
@[simp] theorem State.countRead_lout : s.countRead.lout = s.lout := rfl
@[simp] theorem State.countRead_linkup : s.countRead.linkup = s.linkup := rfl
@[simp] theorem State.countRead_inputs : s.countRead.inputs = s.inputs := rfl
@[simp] theorem State.countRead_responses : s.countRead.responses = s.responses := rfl

@[simp] theorem State.append_ctrl (p : Bytes) : (s.append p).ctrl = s.ctrl := rfl
@[simp] theorem State.append_sticky (p : Bytes) : (s.append p).sticky = s.sticky := rfl
@[simp] theorem State.append_srclen (p : Bytes) : (s.append p).srclen = s.srclen := rfl
@[simp] theorem State.append_linlen (p : Bytes) : (s.append p).linlen = s.linlen := rfl
@[simp] theorem State.append_taddr (p : Bytes) : (s.append p).taddr = s.taddr := rfl
@[simp] theorem State.append_tcd (p : Bytes) : (s.append p).tcd = s.tcd := rfl
@[simp] theorem State.append_rxch (p : Bytes) : (s.append p).rxch = s.rxch := rfl
@[simp] theorem State.append_txch (p : Bytes) : (s.append p).txch = s.txch := rfl
@[simp] theorem State.append_raddr (p : Bytes) : (s.append p).raddr = s.raddr := rfl
@[simp] theorem State.append_rmt (p : Bytes) : (s.append p).rmt = (infoParse p).2.1 := rfl
@[simp] theorem State.append_rcd (p : Bytes) : (s.append p).rcd = (infoParse p).1 := rfl
@[simp] theorem State.append_rplen (p : Bytes) : (s.append p).rplen = s.rplen := rfl
@[simp] theorem State.append_rrssi (p : Bytes) : (s.append p).rrssi = s.rrssi := rfl
@[simp] theorem State.append_sn (p : Bytes) : (s.append p).sn = s.sn := rfl
@[simp] theorem State.append_sk (p : Bytes) : (s.append p).sk = s.sk := rfl
@[simp] theorem State.append_smt (p : Bytes) : (s.append p).smt = s.smt := rfl
@[simp] theorem State.append_slen (p : Bytes) : (s.append p).slen = s.slen := rfl
@[simp] theorem State.append_rcap (p : Bytes) : (s.append p).rcap = s.rcap := rfl
@[simp] theorem State.append_rlencap (p : Bytes) : (s.append p).rlencap = s.rlencap := rfl
@[simp] theorem State.append_rslen (p : Bytes) : (s.append p).rslen = BitVec.ofNat 22 (s.rslen.toNat + s.kept) := rfl
@[simp] theorem State.append_rreads (p : Bytes) : (s.append p).rreads = s.rreads := rfl
@[simp] theorem State.append_rpkts (p : Bytes) : (s.append p).rpkts = satSucc s.rpkts := rfl
@[simp] theorem State.append_rlast (p : Bytes) : (s.append p).rlast = (infoParse p).1 := rfl
@[simp] theorem State.append_phase (p : Bytes) : (s.append p).phase = s.phase := rfl
@[simp] theorem State.append_cause (p : Bytes) : (s.append p).cause = s.cause := rfl
@[simp] theorem State.append_txfv (p : Bytes) : (s.append p).txfv = s.txfv := rfl
@[simp] theorem State.append_rxfv (p : Bytes) : (s.append p).rxfv = s.rxfv := rfl
@[simp] theorem State.append_src (p : Bytes) : (s.append p).src = s.src := rfl
@[simp] theorem State.append_lin (p : Bytes) : (s.append p).lin = s.lin := rfl
@[simp] theorem State.append_rsb (p : Bytes) : (s.append p).rsb = s.rsb.storeSpan s.rslen.toNat ((infoParse p).2.2.take s.kept) := rfl
@[simp] theorem State.append_txf (p : Bytes) : (s.append p).txf = s.txf := rfl
@[simp] theorem State.append_rxf (p : Bytes) : (s.append p).rxf = s.rxf := rfl
@[simp] theorem State.append_lout (p : Bytes) : (s.append p).lout = s.lout := rfl
@[simp] theorem State.append_linkup (p : Bytes) : (s.append p).linkup = s.linkup := rfl
@[simp] theorem State.append_inputs (p : Bytes) : (s.append p).inputs = s.inputs := rfl
@[simp] theorem State.append_responses (p : Bytes) : (s.append p).responses = s.responses := rfl

@[simp] theorem State.resetBlock_ctrl : s.resetBlock.ctrl = State.reset.ctrl := rfl
@[simp] theorem State.resetBlock_sticky : s.resetBlock.sticky = State.reset.sticky := rfl
@[simp] theorem State.resetBlock_srclen : s.resetBlock.srclen = State.reset.srclen := rfl
@[simp] theorem State.resetBlock_linlen : s.resetBlock.linlen = State.reset.linlen := rfl
@[simp] theorem State.resetBlock_taddr : s.resetBlock.taddr = State.reset.taddr := rfl
@[simp] theorem State.resetBlock_tcd : s.resetBlock.tcd = State.reset.tcd := rfl
@[simp] theorem State.resetBlock_rxch : s.resetBlock.rxch = State.reset.rxch := rfl
@[simp] theorem State.resetBlock_txch : s.resetBlock.txch = State.reset.txch := rfl
@[simp] theorem State.resetBlock_raddr : s.resetBlock.raddr = State.reset.raddr := rfl
@[simp] theorem State.resetBlock_rmt : s.resetBlock.rmt = State.reset.rmt := rfl
@[simp] theorem State.resetBlock_rcd : s.resetBlock.rcd = State.reset.rcd := rfl
@[simp] theorem State.resetBlock_rplen : s.resetBlock.rplen = State.reset.rplen := rfl
@[simp] theorem State.resetBlock_rrssi : s.resetBlock.rrssi = State.reset.rrssi := rfl
@[simp] theorem State.resetBlock_sn : s.resetBlock.sn = State.reset.sn := rfl
@[simp] theorem State.resetBlock_sk : s.resetBlock.sk = State.reset.sk := rfl
@[simp] theorem State.resetBlock_smt : s.resetBlock.smt = State.reset.smt := rfl
@[simp] theorem State.resetBlock_slen : s.resetBlock.slen = State.reset.slen := rfl
@[simp] theorem State.resetBlock_rcap : s.resetBlock.rcap = State.reset.rcap := rfl
@[simp] theorem State.resetBlock_rlencap : s.resetBlock.rlencap = State.reset.rlencap := rfl
@[simp] theorem State.resetBlock_rslen : s.resetBlock.rslen = State.reset.rslen := rfl
@[simp] theorem State.resetBlock_rreads : s.resetBlock.rreads = State.reset.rreads := rfl
@[simp] theorem State.resetBlock_rpkts : s.resetBlock.rpkts = State.reset.rpkts := rfl
@[simp] theorem State.resetBlock_rlast : s.resetBlock.rlast = State.reset.rlast := rfl
@[simp] theorem State.resetBlock_phase : s.resetBlock.phase = State.reset.phase := rfl
@[simp] theorem State.resetBlock_cause : s.resetBlock.cause = State.reset.cause := rfl
@[simp] theorem State.resetBlock_txfv : s.resetBlock.txfv = State.reset.txfv := rfl
@[simp] theorem State.resetBlock_rxfv : s.resetBlock.rxfv = State.reset.rxfv := rfl
@[simp] theorem State.resetBlock_src : s.resetBlock.src = State.reset.src := rfl
@[simp] theorem State.resetBlock_lin : s.resetBlock.lin = State.reset.lin := rfl
@[simp] theorem State.resetBlock_rsb : s.resetBlock.rsb = State.reset.rsb := rfl
@[simp] theorem State.resetBlock_txf : s.resetBlock.txf = State.reset.txf := rfl
@[simp] theorem State.resetBlock_rxf : s.resetBlock.rxf = State.reset.rxf := rfl
@[simp] theorem State.resetBlock_lout : s.resetBlock.lout = State.reset.lout := rfl
@[simp] theorem State.resetBlock_linkup : s.resetBlock.linkup = s.linkup := rfl
@[simp] theorem State.resetBlock_inputs : s.resetBlock.inputs = s.inputs := rfl
@[simp] theorem State.resetBlock_responses : s.resetBlock.responses = s.responses := rfl

@[simp] theorem State.writeReg_sticky (r : Reg) (v : Word) : (s.writeReg r v).sticky = s.sticky := by cases r <;> rfl
@[simp] theorem State.writeReg_txch (r : Reg) (v : Word) : (s.writeReg r v).txch = s.txch := by cases r <;> rfl
@[simp] theorem State.writeReg_raddr (r : Reg) (v : Word) : (s.writeReg r v).raddr = s.raddr := by cases r <;> rfl
@[simp] theorem State.writeReg_rmt (r : Reg) (v : Word) : (s.writeReg r v).rmt = s.rmt := by cases r <;> rfl
@[simp] theorem State.writeReg_rcd (r : Reg) (v : Word) : (s.writeReg r v).rcd = s.rcd := by cases r <;> rfl
@[simp] theorem State.writeReg_rplen (r : Reg) (v : Word) : (s.writeReg r v).rplen = s.rplen := by cases r <;> rfl
@[simp] theorem State.writeReg_rrssi (r : Reg) (v : Word) : (s.writeReg r v).rrssi = s.rrssi := by cases r <;> rfl
@[simp] theorem State.writeReg_sn (r : Reg) (v : Word) : (s.writeReg r v).sn = s.sn := by cases r <;> rfl
@[simp] theorem State.writeReg_sk (r : Reg) (v : Word) : (s.writeReg r v).sk = s.sk := by cases r <;> rfl
@[simp] theorem State.writeReg_smt (r : Reg) (v : Word) : (s.writeReg r v).smt = s.smt := by cases r <;> rfl
@[simp] theorem State.writeReg_slen (r : Reg) (v : Word) : (s.writeReg r v).slen = s.slen := by cases r <;> rfl
@[simp] theorem State.writeReg_rslen (r : Reg) (v : Word) : (s.writeReg r v).rslen = s.rslen := by cases r <;> rfl
@[simp] theorem State.writeReg_rreads (r : Reg) (v : Word) : (s.writeReg r v).rreads = s.rreads := by cases r <;> rfl
@[simp] theorem State.writeReg_rpkts (r : Reg) (v : Word) : (s.writeReg r v).rpkts = s.rpkts := by cases r <;> rfl
@[simp] theorem State.writeReg_rlast (r : Reg) (v : Word) : (s.writeReg r v).rlast = s.rlast := by cases r <;> rfl
@[simp] theorem State.writeReg_phase (r : Reg) (v : Word) : (s.writeReg r v).phase = s.phase := by cases r <;> rfl
@[simp] theorem State.writeReg_cause (r : Reg) (v : Word) : (s.writeReg r v).cause = s.cause := by cases r <;> rfl
@[simp] theorem State.writeReg_txfv (r : Reg) (v : Word) : (s.writeReg r v).txfv = s.txfv := by cases r <;> rfl
@[simp] theorem State.writeReg_rxfv (r : Reg) (v : Word) : (s.writeReg r v).rxfv = s.rxfv := by cases r <;> rfl
@[simp] theorem State.writeReg_src (r : Reg) (v : Word) : (s.writeReg r v).src = s.src := by cases r <;> rfl
@[simp] theorem State.writeReg_lin (r : Reg) (v : Word) : (s.writeReg r v).lin = s.lin := by cases r <;> rfl
@[simp] theorem State.writeReg_rsb (r : Reg) (v : Word) : (s.writeReg r v).rsb = s.rsb := by cases r <;> rfl
@[simp] theorem State.writeReg_txf (r : Reg) (v : Word) : (s.writeReg r v).txf = s.txf := by cases r <;> rfl
@[simp] theorem State.writeReg_rxf (r : Reg) (v : Word) : (s.writeReg r v).rxf = s.rxf := by cases r <;> rfl
@[simp] theorem State.writeReg_lout (r : Reg) (v : Word) : (s.writeReg r v).lout = s.lout := by cases r <;> rfl
@[simp] theorem State.writeReg_linkup (r : Reg) (v : Word) : (s.writeReg r v).linkup = s.linkup := by cases r <;> rfl
@[simp] theorem State.writeReg_inputs (r : Reg) (v : Word) : (s.writeReg r v).inputs = s.inputs := by cases r <;> rfl
@[simp] theorem State.writeReg_responses (r : Reg) (v : Word) : (s.writeReg r v).responses = s.responses := by cases r <;> rfl

@[simp] theorem State.hostStore_ctrl (sp : Space) (a : Nat) (b : Byte) : (s.hostStore sp a b).ctrl = s.ctrl := by cases sp <;> rfl
@[simp] theorem State.hostStore_sticky (sp : Space) (a : Nat) (b : Byte) : (s.hostStore sp a b).sticky = s.sticky := by cases sp <;> rfl
@[simp] theorem State.hostStore_srclen (sp : Space) (a : Nat) (b : Byte) : (s.hostStore sp a b).srclen = s.srclen := by cases sp <;> rfl
@[simp] theorem State.hostStore_linlen (sp : Space) (a : Nat) (b : Byte) : (s.hostStore sp a b).linlen = s.linlen := by cases sp <;> rfl
@[simp] theorem State.hostStore_taddr (sp : Space) (a : Nat) (b : Byte) : (s.hostStore sp a b).taddr = s.taddr := by cases sp <;> rfl
@[simp] theorem State.hostStore_tcd (sp : Space) (a : Nat) (b : Byte) : (s.hostStore sp a b).tcd = s.tcd := by cases sp <;> rfl
@[simp] theorem State.hostStore_rxch (sp : Space) (a : Nat) (b : Byte) : (s.hostStore sp a b).rxch = s.rxch := by cases sp <;> rfl
@[simp] theorem State.hostStore_txch (sp : Space) (a : Nat) (b : Byte) : (s.hostStore sp a b).txch = s.txch := by cases sp <;> rfl
@[simp] theorem State.hostStore_raddr (sp : Space) (a : Nat) (b : Byte) : (s.hostStore sp a b).raddr = s.raddr := by cases sp <;> rfl
@[simp] theorem State.hostStore_rmt (sp : Space) (a : Nat) (b : Byte) : (s.hostStore sp a b).rmt = s.rmt := by cases sp <;> rfl
@[simp] theorem State.hostStore_rcd (sp : Space) (a : Nat) (b : Byte) : (s.hostStore sp a b).rcd = s.rcd := by cases sp <;> rfl
@[simp] theorem State.hostStore_rplen (sp : Space) (a : Nat) (b : Byte) : (s.hostStore sp a b).rplen = s.rplen := by cases sp <;> rfl
@[simp] theorem State.hostStore_rrssi (sp : Space) (a : Nat) (b : Byte) : (s.hostStore sp a b).rrssi = s.rrssi := by cases sp <;> rfl
@[simp] theorem State.hostStore_sn (sp : Space) (a : Nat) (b : Byte) : (s.hostStore sp a b).sn = s.sn := by cases sp <;> rfl
@[simp] theorem State.hostStore_sk (sp : Space) (a : Nat) (b : Byte) : (s.hostStore sp a b).sk = s.sk := by cases sp <;> rfl
@[simp] theorem State.hostStore_smt (sp : Space) (a : Nat) (b : Byte) : (s.hostStore sp a b).smt = s.smt := by cases sp <;> rfl
@[simp] theorem State.hostStore_slen (sp : Space) (a : Nat) (b : Byte) : (s.hostStore sp a b).slen = s.slen := by cases sp <;> rfl
@[simp] theorem State.hostStore_rcap (sp : Space) (a : Nat) (b : Byte) : (s.hostStore sp a b).rcap = s.rcap := by cases sp <;> rfl
@[simp] theorem State.hostStore_rlencap (sp : Space) (a : Nat) (b : Byte) : (s.hostStore sp a b).rlencap = s.rlencap := by cases sp <;> rfl
@[simp] theorem State.hostStore_rslen (sp : Space) (a : Nat) (b : Byte) : (s.hostStore sp a b).rslen = s.rslen := by cases sp <;> rfl
@[simp] theorem State.hostStore_rreads (sp : Space) (a : Nat) (b : Byte) : (s.hostStore sp a b).rreads = s.rreads := by cases sp <;> rfl
@[simp] theorem State.hostStore_rpkts (sp : Space) (a : Nat) (b : Byte) : (s.hostStore sp a b).rpkts = s.rpkts := by cases sp <;> rfl
@[simp] theorem State.hostStore_rlast (sp : Space) (a : Nat) (b : Byte) : (s.hostStore sp a b).rlast = s.rlast := by cases sp <;> rfl
@[simp] theorem State.hostStore_phase (sp : Space) (a : Nat) (b : Byte) : (s.hostStore sp a b).phase = s.phase := by cases sp <;> rfl
@[simp] theorem State.hostStore_cause (sp : Space) (a : Nat) (b : Byte) : (s.hostStore sp a b).cause = s.cause := by cases sp <;> rfl
@[simp] theorem State.hostStore_txfv (sp : Space) (a : Nat) (b : Byte) : (s.hostStore sp a b).txfv = s.txfv := by cases sp <;> rfl
@[simp] theorem State.hostStore_rxfv (sp : Space) (a : Nat) (b : Byte) : (s.hostStore sp a b).rxfv = s.rxfv := by cases sp <;> rfl
@[simp] theorem State.hostStore_rsb (sp : Space) (a : Nat) (b : Byte) : (s.hostStore sp a b).rsb = s.rsb := by cases sp <;> rfl
@[simp] theorem State.hostStore_txf (sp : Space) (a : Nat) (b : Byte) : (s.hostStore sp a b).txf = s.txf := by cases sp <;> rfl
@[simp] theorem State.hostStore_rxf (sp : Space) (a : Nat) (b : Byte) : (s.hostStore sp a b).rxf = s.rxf := by cases sp <;> rfl
@[simp] theorem State.hostStore_lout (sp : Space) (a : Nat) (b : Byte) : (s.hostStore sp a b).lout = s.lout := by cases sp <;> rfl
@[simp] theorem State.hostStore_linkup (sp : Space) (a : Nat) (b : Byte) : (s.hostStore sp a b).linkup = s.linkup := by cases sp <;> rfl
@[simp] theorem State.hostStore_inputs (sp : Space) (a : Nat) (b : Byte) : (s.hostStore sp a b).inputs = s.inputs := by cases sp <;> rfl
@[simp] theorem State.hostStore_responses (sp : Space) (a : Nat) (b : Byte) : (s.hostStore sp a b).responses = s.responses := by cases sp <;> rfl

/-- Reporting a refusal sets `ILL` (R184). -/
theorem State.flagCode_of_refusal (c : Code) (h : c.isRefusal = true) : s.flagCode c = s.setFlag .ill := by
  cases c <;> first | rfl | exact absurd h (by decide)

@[simp] theorem State.flagCode_sticky (c : Code) :
    (s.flagCode c).sticky = match c.flag with | none => s.sticky | some f => s.sticky ||| f.mask := by
  cases c <;> rfl

@[simp] theorem State.acceptFrame_sticky (d : Deframed) :
    (s.acceptFrame d).sticky = if d.excess then s.sticky ||| Flag.mask .rxx else s.sticky := by
  unfold State.acceptFrame
  split <;> split <;> rfl

@[simp] theorem State.acceptFrame_rplen (d : Deframed) :
    (s.acceptFrame d).rplen = match d.envelope with | none => s.rplen | some e => e.1 := by
  unfold State.acceptFrame
  split <;> split <;> simp_all

@[simp] theorem State.acceptFrame_rrssi (d : Deframed) :
    (s.acceptFrame d).rrssi = match d.envelope with | none => s.rrssi | some e => e.2 := by
  unfold State.acceptFrame
  split <;> split <;> simp_all

/-- The mask of each flag (R25). -/
@[simp] theorem Flag.mask_fts : Flag.mask .fts = 0x01 := rfl
@[simp] theorem Flag.mask_ptl : Flag.mask .ptl = 0x02 := rfl
@[simp] theorem Flag.mask_ict : Flag.mask .ict = 0x04 := rfl
@[simp] theorem Flag.mask_lna : Flag.mask .lna = 0x08 := rfl
@[simp] theorem Flag.mask_bmk : Flag.mask .bmk = 0x10 := rfl
@[simp] theorem Flag.mask_rxx : Flag.mask .rxx = 0x20 := rfl
@[simp] theorem Flag.mask_ill : Flag.mask .ill = 0x40 := rfl

end Sys2Proof.Machine
end

