-- ==== Sys2Proof/Laws/Ops.lean ====
section
/-! SUPPORT. For each shared operation, what it can do: the lemmas a proof cites instead of unfolding the operation. -/

namespace Sys2Proof.Machine

/-! ### Responding and reporting -/

@[simp] theorem respond_eq (c : Code) (d : Word) (s : State) : respond c d s = .next (s.answer c d) := rfl

@[simp] theorem raise_eq (c : Code) (d : Word) (s : State) : raise c d s = .next ((s.flagCode c).answer c d) := rfl

/-- A refusal sets `ILL`, answers 0 and does nothing else (R184). -/
theorem refuse_eq {c : Code} (h : c.isRefusal = true) (s : State) :
    refuse c s = .next ((s.setFlag .ill).answer c 0) := by
  rw [refuse, raise_eq, State.flagCode_of_refusal s c h]

/-- The state after a refusal, field by field (R184). -/
theorem refuse_state {c : Code} (h : c.isRefusal = true) (s : State) :
    refuse c s = .next { s with sticky := s.sticky ||| 0x40, responses := s.responses ++ [⟨c, 0⟩] } :=
  refuse_eq h s

/-! ### Memory spans -/

theorem srcSpan_of_le {s : State} {a n : Nat} (h : a + n ≤ Config.bufcap) : s.srcSpan a n = some (s.src.span a n) := by
  exact if_pos h

theorem srcSpan_eq_some {s : State} {a n : Nat} {b : Bytes} (h : s.srcSpan a n = some b) :
    a + n ≤ Config.bufcap ∧ b = s.src.span a n := by
  unfold State.srcSpan at h
  split at h
  · rename_i hle
    exact ⟨hle, (Option.some.inj h).symm⟩
  · cases h

theorem linRead_of_le {s : State} (h : s.linlen.toNat ≤ Config.rxmax) :
    s.linRead = some (s.lin.span 0 s.linlen.toNat) := by
  exact if_pos (by simpa [inSpace, spaceSize] using h)

theorem linRead_eq_some {s : State} {b : Bytes} (h : s.linRead = some b) :
    s.linlen.toNat ≤ Config.rxmax ∧ b = s.lin.span 0 s.linlen.toNat := by
  unfold State.linRead at h
  split at h
  · rename_i hle
    exact ⟨by simpa [inSpace, spaceSize] using hle, (Option.some.inj h).symm⟩
  · cases h

/-! ### Encoding a payload -/

theorem encodePayload_of_le {ch : BitVec 4} {p : Bytes} {s : State} (h : p.length ≤ 64) :
    encodePayload ch p s = .next ((s.loadTx ch (pad 64 p)).answer .ok (BitVec.ofNat 32 p.length)) := by
  have : ¬ p.length > 64 := by omega
  simp [encodePayload, frameEncode, Config.frameLen, this]

theorem encodePayload_of_gt {ch : BitVec 4} {p : Bytes} {s : State} (h : 64 < p.length) :
    encodePayload ch p s = .next ((s.setFlag .ptl).answer .payloadTooLarge (BitVec.ofNat 32 p.length)) := by
  simp [encodePayload, frameEncode, Config.frameLen, h, State.flagCode, Code.flag]

/-- Everything `encodePayload` can do. -/
theorem encodePayload_cases {ch : BitVec 4} {p : Bytes} {s t : State} (h : encodePayload ch p s = .next t) :
    (p.length ≤ 64 ∧ t = (s.loadTx ch (pad 64 p)).answer .ok (BitVec.ofNat 32 p.length)) ∨
    (64 < p.length ∧ t = (s.setFlag .ptl).answer .payloadTooLarge (BitVec.ofNat 32 p.length)) := by
  by_cases hp : p.length ≤ 64
  · rw [encodePayload_of_le hp] at h
    exact .inl ⟨hp, (Host.Outcome.next.inj h).symm⟩
  · rw [encodePayload_of_gt (by omega)] at h
    exact .inr ⟨by omega, (Host.Outcome.next.inj h).symm⟩

/-! ### Deframing a read -/

theorem ctrl_one_or_zero (s : State) : s.ctrl = 1 ∨ s.ctrl = 0 := by
  have := s.ctrl.isLt
  rcases Nat.lt_or_ge s.ctrl.toNat 1 with h | h
  · exact .inr (BitVec.eq_of_toNat_eq (by simp; omega))
  · exact .inl (BitVec.eq_of_toNat_eq (by simp; omega))

/-- Every read is of exactly one kind: a frame, too short, or a wrong marker (R103). -/
theorem read_cases (s : State) : s.hasFrame ∨ s.hasShortRead ∨ s.hasBadMarker := by
  unfold State.hasFrame State.hasShortRead State.hasBadMarker
  rcases ctrl_one_or_zero s with hc | hc
  · by_cases hm : s.markerAt
    · by_cases hl : 68 ≤ s.linlen.toNat
      · exact .inl (.inl ⟨hc, hl, hm⟩)
      · exact .inr (.inl (.inr ⟨hc, by omega, hm⟩))
    · by_cases hl : 64 ≤ s.linlen.toNat
      · exact .inr (.inr ⟨hc, hl, hm⟩)
      · exact .inr (.inl (.inl (by omega)))
  · by_cases hl : 64 ≤ s.linlen.toNat
    · exact .inl (.inr ⟨hc, hl⟩)
    · exact .inr (.inl (.inl (by omega)))

theorem env_of_ctrl_one {s : State} (h : s.ctrl = 1) : s.env = true := by rw [State.env, h]; rfl

theorem env_of_ctrl_zero {s : State} (h : s.ctrl = 0) : s.env = false := by rw [State.env, h]; rfl

/-- What deframing gives for a read that holds a frame. -/
def State.deframed (s : State) : Deframed where
  frame := { direction := .rx, channel := s.rxch, payloadLength := 64, raw := s.lin.span s.payloadAt 64 }
  excess := s.hasExcess
  envelope := if s.ctrl = 1 then some (s.readByte .lin 2, s.readByte .lin 3) else none

theorem slice_span (m : Memory) (n a b : Nat) (h : b ≤ n) : slice (m.span 0 n) a b = m.span a (b - a) := by
  refine ext_byteAt ?_ fun i hi => ?_
  · rw [length_slice, Memory.length_span, Memory.length_span]; omega
  · rw [length_slice, Memory.length_span] at hi
    rw [byteAt_slice, Memory.byteAt_span, Memory.byteAt_span, if_pos (by omega), if_pos (by omega), if_pos (by omega)]
    congr 1
    omega

theorem byteAt_lin (s : State) {i : Nat} (h : i < s.linlen.toNat) :
    byteAt (s.lin.span 0 s.linlen.toNat) i = s.readByte .lin i := by
  rw [Memory.byteAt_span, if_pos h, Nat.zero_add]
  rfl

theorem deframe_of_hasFrame {s : State} (h : s.hasFrame) :
    deframe s.env s.rxch (s.lin.span 0 s.linlen.toNat) = .ok s.deframed := by
  rcases h with ⟨hc, hl, hm⟩ | ⟨hc, hl⟩
  · have e1 : ¬ s.linlen.toNat < 64 := by omega
    have e2 : ¬ (min (s.linlen.toNat - 4) (s.linlen.toNat - 4) < 64) := by omega
    rw [deframe, env_of_ctrl_one hc, envStrip]
    simp only [if_true, Memory.length_span, e1, if_false]
    rw [byteAt_lin s (by omega), byteAt_lin s (by omega), byteAt_lin s (by omega), byteAt_lin s (by omega)]
    rw [if_neg (by simp [Config.marker0, Config.marker1, hm.1, hm.2])]
    simp only [frameDecode, Config.frameLen, length_slice, Memory.length_span]
    rw [if_neg e2]
    simp only [State.deframed, State.payloadAt, hc, if_true, State.hasExcess]
    congr 3
    · rw [slice_span _ _ _ _ (Nat.le_refl _)]
      rw [slice, List.drop_zero, Nat.sub_zero]
      refine ext_byteAt ?_ fun i hi => ?_
      · simp; omega
      · simp at hi
        rw [byteAt_take, Memory.byteAt_span, Memory.byteAt_span, if_pos (by omega), if_pos (by omega), if_pos (by omega)]
    · simp; omega
  · have e1 : ¬ s.linlen.toNat < 64 := by omega
    rw [deframe, env_of_ctrl_zero hc]
    simp only [frameDecode, Config.frameLen, Memory.length_span, e1, if_false, Bool.false_eq_true]
    simp only [State.deframed, State.payloadAt, hc, State.hasExcess]
    congr 3
    · rw [slice_span _ _ _ _ (by omega)]
      rfl

theorem deframe_of_hasShortRead {s : State} (h : s.hasShortRead) :
    deframe s.env s.rxch (s.lin.span 0 s.linlen.toNat) = .error .frameTooShort := by
  rcases ctrl_one_or_zero s with hc | hc
  · rw [deframe, env_of_ctrl_one hc, envStrip]
    by_cases e1 : s.linlen.toNat < 64
    · simp [e1]
    · rcases h with h | ⟨_, hl, hm⟩
      · omega
      · have e2 : min (s.linlen.toNat - 4) (s.linlen.toNat - 4) < 64 := by omega
        simp only [if_true, Memory.length_span, e1, if_false]
        rw [byteAt_lin s (by omega), byteAt_lin s (by omega)]
        rw [if_neg (by simp [Config.marker0, Config.marker1, hm.1, hm.2])]
        simp only [frameDecode, Config.frameLen, length_slice, Memory.length_span]
        rw [if_pos e2]
  · rcases h with h | ⟨h, _⟩
    · simp [deframe, env_of_ctrl_zero hc, frameDecode, Config.frameLen, h]
    · exact absurd (hc.symm.trans h) (by decide)

theorem deframe_of_hasBadMarker {s : State} (h : s.hasBadMarker) :
    deframe s.env s.rxch (s.lin.span 0 s.linlen.toNat) = .error .badMarker := by
  obtain ⟨hc, hl, hm⟩ := h
  have e1 : ¬ s.linlen.toNat < 64 := by omega
  rw [deframe, env_of_ctrl_one hc, envStrip]
  simp only [if_true, Memory.length_span, e1, if_false]
  rw [byteAt_lin s (by omega), byteAt_lin s (by omega)]
  rw [if_pos]
  by_cases h0 : s.readByte .lin 0 = 0x23
  · exact .inr fun h1 => hm ⟨h0, h1⟩
  · exact .inl h0

@[simp] theorem length_deframed_raw (s : State) : s.deframed.frame.raw.length = 64 := by simp [State.deframed]

/-- The state after a frame was taken from LIN into RXF, field by field. -/
theorem acceptFrame_deframed (s u : State) (hs : u.sticky = s.sticky) (hp : u.rplen = s.rplen)
    (hr : u.rrssi = s.rrssi) :
    u.acceptFrame s.deframed =
      { u with rxf := u.rxf.storeSpan 0 (s.lin.span s.payloadAt 64), rxfv := true, sticky := s.stickyAfterRead,
               rplen := s.rplenAfterRead, rrssi := s.rrssiAfterRead } := by
  unfold State.stickyAfterRead State.rplenAfterRead State.rrssiAfterRead State.acceptFrame
  rw [← hs, ← hp, ← hr, show s.deframed.excess = s.hasExcess from rfl]
  by_cases hc : s.ctrl = 1
  · rw [show s.deframed.envelope = some (s.readByte .lin 2, s.readByte .lin 3) from if_pos hc]
    simp only [if_pos hc]
    by_cases hx : s.hasExcess = true
    · simp only [hx, if_true, State.setFlag, Flag.mask_rxx, State.deframed]
    · simp only [hx, Bool.false_eq_true, if_false, State.deframed]
  · rw [show s.deframed.envelope = none from if_neg hc]
    simp only [if_neg hc]
    by_cases hx : s.hasExcess = true
    · simp only [hx, if_true, State.setFlag, Flag.mask_rxx, State.deframed]
    · simp only [hx, Bool.false_eq_true, if_false, State.deframed]

/-! ### The tracker -/

/-- Everything the read-cap test can do. -/
theorem testReadCap_cases {s t : State} (h : testReadCap s = .next t) :
    ((s.rcap ≠ 0 ∧ s.rreads.toNat ≥ s.rcap.toNat) ∧
      t = (((s.endTransfer .readCap).setFlag .ict).answer .incompleteTransfer (s.endTransfer .readCap).rstate)) ∨
    (¬ (s.rcap ≠ 0 ∧ s.rreads.toNat ≥ s.rcap.toNat) ∧ t = s.answer .ok s.rstate) := by
  unfold testReadCap at h
  split at h
  · rename_i hc; exact .inl ⟨hc, (Host.Outcome.next.inj h).symm⟩
  · rename_i hc; exact .inr ⟨hc, (Host.Outcome.next.inj h).symm⟩

/-- The read-cap test always answers. -/
theorem testReadCap_next (s : State) : ∃ t, testReadCap s = .next t := by
  unfold testReadCap
  split
  · exact ⟨_, rfl⟩
  · exact ⟨_, rfl⟩

/-- Everything `pushPacket` can do. -/
theorem pushPacket_cases {p : Bytes} {s t : State} (h : pushPacket p s = .next t) :
    s.rslen.toNat + s.kept ≤ Config.bufcap ∧
    (((infoParse p).1 = 0 ∧
        t = (((s.append p).endTransfer .terminal).answer .ok ((s.append p).endTransfer .terminal).rstate)) ∨
     ((infoParse p).1 ≠ 0 ∧ (s.append p).rslen.toNat ≥ (s.append p).rlencap.toNat ∧
        t = ((((s.append p).endTransfer .lenCap).setFlag .ict).answer .incompleteTransfer
              ((s.append p).endTransfer .lenCap).rstate)) ∨
     ((infoParse p).1 ≠ 0 ∧ (s.append p).rslen.toNat < (s.append p).rlencap.toNat ∧
        testReadCap (s.append p) = .next t)) := by
  unfold pushPacket at h
  split at h
  · cases h
  · rename_i hin
    refine ⟨Decidable.not_not.1 hin, ?_⟩
    split at h
    · rename_i hz; exact .inl ⟨hz, (Host.Outcome.next.inj h).symm⟩
    · rename_i hz
      split at h
      · rename_i hl; exact .inr (.inl ⟨hz, hl, (Host.Outcome.next.inj h).symm⟩)
      · rename_i hl; exact .inr (.inr ⟨hz, by omega, h⟩)

/-- `pushPacket` answers whenever the bytes it keeps fit in RSB. -/
theorem pushPacket_next {p : Bytes} {s : State} (h : s.rslen.toNat + s.kept ≤ Config.bufcap) :
    ∃ t, pushPacket p s = .next t := by
  unfold pushPacket
  rw [if_neg (show ¬ ¬ inSpace .rsb s.rslen.toNat s.kept from not_not.2 h)]
  split
  · exact ⟨_, rfl⟩
  · split
    · exact ⟨_, rfl⟩
    · exact testReadCap_next _

/-- The bytes kept never pass the length cap nor, with a legal cap, the buffer (R61). -/
theorem kept_le {s : State} (h1 : s.rslen.toNat ≤ Config.bufcap) (h2 : s.rlencap.toNat ≤ Config.bufcap) :
    s.rslen.toNat + s.kept ≤ Config.bufcap := by
  unfold State.kept State.room
  omega

/-! ### The register space -/

theorem regOf_number (r : Reg) : regOf r.number = some r := by cases r <;> rfl

theorem number_of_regOf {csr : BitVec 8} {r : Reg} (h : regOf csr = some r) : csr = r.number := by
  have all : ∀ n : Fin 256, ∀ q, regOf (BitVec.ofFin n) = some q → BitVec.ofFin n = q.number := by
    intro n q h
    have := (show ∀ n : Fin 256, (regOf (BitVec.ofFin n)).all (fun q => BitVec.ofFin n == q.number) = true by
      decide +kernel) n
    rw [h] at this
    simpa using this
  exact all csr.toFin r h

end Sys2Proof.Machine
end

