-- ==== Sys2Proof/Laws/Exec.lean ====
section
/-! SUPPORT. One inversion lemma for each meaning that branches: if it answers `next t`, one of these cases holds. The
lemmas `refusal` and `report` name the two states a turned-away command can leave. -/

namespace Sys2Proof.Machine

/-- The state a refusal leaves (R184). -/
def State.refusal (s : State) (c : Code) : State := (s.setFlag .ill).answer c 0

/-- The state an error that sets flag `f` and nothing else leaves (R181, R187). -/
def State.report (s : State) (f : Flag) (c : Code) (d : Word) : State := (s.setFlag f).answer c d

theorem refuse_refusal {c : Code} (h : c.isRefusal = true) (s : State) : refuse c s = .next (s.refusal c) :=
  refuse_eq h s

theorem next_inj {s t : State} (h : (Host.Outcome.next s : Result) = .next t) : t = s :=
  (Host.Outcome.next.inj h).symm

theorem refuse_inj {c : Code} {s t : State} (hc : c.isRefusal = true) (h : refuse c s = .next t) : t = s.refusal c := by
  rw [refuse_refusal hc] at h
  exact next_inj h

theorem execCsrr_cases {csr : BitVec 8} {s t : State} (h : execCsrr csr s = .next t) :
    t = s.refusal .badCsr ∨ ∃ r, regOf csr = some r ∧ t = s.answer .ok (s.readReg r) := by
  unfold execCsrr at h
  split at h
  · exact .inl (refuse_inj rfl h)
  · rename_i r hr
    exact .inr ⟨r, hr, next_inj h⟩

theorem execCsrw_cases {csr : BitVec 8} {v : Word} {s t : State} (h : execCsrw csr v s = .next t) :
    (∃ c, c.isRefusal = true ∧ t = s.refusal c) ∨
    (csr = 0x01 ∧ t = (s.clearFlags v).answer .ok (s.clearFlags v).status) ∨
    (∃ r, r.access = .rw ∧ r.legal v ∧ t = (s.writeReg r v).answer .ok v) := by
  unfold execCsrw at h
  split at h
  · exact .inl ⟨.badCsr, rfl, refuse_inj rfl h⟩
  · rename_i r hr
    split at h
    · rename_i ha
      have : r = .status := by cases r <;> first | rfl | cases ha
      subst this
      exact .inr (.inl ⟨number_of_regOf hr, next_inj h⟩)
    · exact .inl ⟨.readOnly, rfl, refuse_inj rfl h⟩
    · rename_i ha
      unfold writeLegal at h
      split at h
      · rename_i hl
        exact .inr (.inr ⟨r, ha, hl, next_inj h⟩)
      · exact .inl ⟨.badValue, rfl, refuse_inj rfl h⟩

theorem execLdb_cases {sp : Space} {addr : BitVec 22} {s t : State} (h : execLdb sp addr s = .next t) :
    t = s.refusal .badAddr ∨ t = s.answer .ok ((s.readByte sp addr.toNat).setWidth 32) := by
  unfold execLdb at h
  split at h
  · exact .inr (next_inj h)
  · exact .inl (refuse_inj rfl h)

theorem execStb_cases {sp : Space} {addr : BitVec 22} {w : Word} {s t : State} (h : execStb sp addr w s = .next t) :
    (∃ c, c.isRefusal = true ∧ t = s.refusal c) ∨
    (hostWritable sp = true ∧ addr.toNat < spaceSize sp ∧
      t = (s.hostStore sp addr.toNat (w.extractLsb' 0 8)).answer .ok w) := by
  unfold execStb at h
  split at h
  · exact .inl ⟨.readOnly, rfl, refuse_inj rfl h⟩
  · rename_i hw
    split at h
    · exact .inl ⟨.badAddr, rfl, refuse_inj rfl h⟩
    · rename_i ha
      split at h
      · exact .inl ⟨.badValue, rfl, refuse_inj rfl h⟩
      · exact .inr ⟨by simpa using hw, Decidable.not_not.1 ha, next_inj h⟩

/-- The payload FENC, HENC or IENC would encode, laid out around the first SRCLEN bytes of SRC. -/
theorem encode_cases {ch : BitVec 4} {layout : Bytes → Bytes} {s t : State}
    (h : (match s.srcSpan 0 s.srclen.toNat with
      | none => (.fault .outsideSpace : Result)
      | some p => encodePayload ch (layout p) s) = .next t) :
    s.srclen.toNat ≤ Config.bufcap ∧
    (((layout (s.src.span 0 s.srclen.toNat)).length ≤ 64 ∧
      t = (s.loadTx ch (pad 64 (layout (s.src.span 0 s.srclen.toNat)))).answer .ok
            (BitVec.ofNat 32 (layout (s.src.span 0 s.srclen.toNat)).length)) ∨
     (64 < (layout (s.src.span 0 s.srclen.toNat)).length ∧
      t = s.report .ptl .payloadTooLarge (BitVec.ofNat 32 (layout (s.src.span 0 s.srclen.toNat)).length))) := by
  split at h
  · cases h
  · rename_i p hp
    obtain ⟨hle, rfl⟩ := srcSpan_eq_some hp
    exact ⟨by omega, encodePayload_cases h⟩

theorem execFenc_cases {ch : BitVec 4} {s t : State} (h : execFenc ch s = .next t) :
    s.srclen.toNat ≤ Config.bufcap ∧
    (((s.src.span 0 s.srclen.toNat).length ≤ 64 ∧
      t = (s.loadTx ch (pad 64 (s.src.span 0 s.srclen.toNat))).answer .ok
            (BitVec.ofNat 32 (s.src.span 0 s.srclen.toNat).length)) ∨
     (64 < (s.src.span 0 s.srclen.toNat).length ∧
      t = s.report .ptl .payloadTooLarge (BitVec.ofNat 32 (s.src.span 0 s.srclen.toNat).length))) :=
  encode_cases (layout := id) h

theorem execHenc_cases {ch : BitVec 4} {mt : Byte} {s t : State} (h : execHenc ch mt s = .next t) :
    s.srclen.toNat ≤ Config.bufcap ∧
    (((headerPayload (le32 s.taddr) mt (s.src.span 0 s.srclen.toNat)).length ≤ 64 ∧
      t = (s.loadTx ch (pad 64 (headerPayload (le32 s.taddr) mt (s.src.span 0 s.srclen.toNat)))).answer .ok
            (BitVec.ofNat 32 (headerPayload (le32 s.taddr) mt (s.src.span 0 s.srclen.toNat)).length)) ∨
     (64 < (headerPayload (le32 s.taddr) mt (s.src.span 0 s.srclen.toNat)).length ∧
      t = s.report .ptl .payloadTooLarge
            (BitVec.ofNat 32 (headerPayload (le32 s.taddr) mt (s.src.span 0 s.srclen.toNat)).length))) :=
  encode_cases (layout := headerPayload (le32 s.taddr) mt) h

theorem execIenc_cases {ch : BitVec 4} {mt : Byte} {s t : State} (h : execIenc ch mt s = .next t) :
    s.srclen.toNat ≤ Config.bufcap ∧
    (((infoPayload s.tcd mt (s.src.span 0 s.srclen.toNat)).length ≤ 64 ∧
      t = (s.loadTx ch (pad 64 (infoPayload s.tcd mt (s.src.span 0 s.srclen.toNat)))).answer .ok
            (BitVec.ofNat 32 (infoPayload s.tcd mt (s.src.span 0 s.srclen.toNat)).length)) ∨
     (64 < (infoPayload s.tcd mt (s.src.span 0 s.srclen.toNat)).length ∧
      t = s.report .ptl .payloadTooLarge
            (BitVec.ofNat 32 (infoPayload s.tcd mt (s.src.span 0 s.srclen.toNat)).length))) :=
  encode_cases (layout := infoPayload s.tcd mt) h

theorem execFtx_cases {s t : State} (h : execFtx s = .next t) :
    (s.txfv = false ∧ t = s.refusal .noFrame) ∨ (s.linkup = false ∧ t = s.report .lna .linkUnavailable 0) ∨
    (s.txfv = true ∧ s.linkup = true ∧ t = (s.linkWrites (txWrites s.txFrameRecord)).answer .ok 64) := by
  unfold execFtx at h
  split at h
  · rename_i hv
    exact .inl ⟨hv, refuse_inj rfl h⟩
  · rename_i hv
    split at h
    · rename_i hl
      exact .inr (.inl ⟨hl, next_inj h⟩)
    · rename_i hl
      exact .inr (.inr ⟨by simpa using hv, by simpa using hl, next_inj h⟩)

theorem execFdec_cases {s t : State} (h : execFdec s = .next t) :
    (s.linkup = false ∧ t = s.report .lna .linkUnavailable 0) ∨
    (s.linkup = true ∧ s.linlen.toNat ≤ Config.rxmax ∧
      ((s.hasShortRead ∧ t = s.report .fts .frameTooShort (s.linlen.setWidth 32)) ∨
       (s.hasBadMarker ∧ t = s.report .bmk .badMarker (markerFound (s.lin.span 0 s.linlen.toNat))) ∨
       (s.hasFrame ∧ t = (s.acceptFrame s.deframed).answer .ok 64))) := by
  unfold execFdec at h
  split at h
  · rename_i hl
    exact .inl ⟨hl, next_inj h⟩
  · rename_i hl
    cases hb : s.linRead with
    | none => rw [hb] at h; cases h
    | some b =>
      rw [hb] at h
      obtain ⟨hle, rfl⟩ := linRead_eq_some hb
      refine .inr ⟨by simpa using hl, hle, ?_⟩
      rcases read_cases s with hk | hk | hk
      · simp only [deframe_of_hasFrame hk] at h
        exact .inr (.inr ⟨hk, next_inj h⟩)
      · simp only [deframe_of_hasShortRead hk] at h
        exact .inl ⟨hk, next_inj h⟩
      · simp only [deframe_of_hasBadMarker hk] at h
        exact .inr (.inl ⟨hk, next_inj h⟩)

theorem execHdec_cases {s t : State} (h : execHdec s = .next t) :
    (s.rxfv = false ∧ t = s.refusal .noFrame) ∨
    (s.rxfv = true ∧ t = (s.takeHeader s.rxFrame).answer .ok (un32 (headerParse s.rxFrame).1)) := by
  unfold execHdec at h
  split at h
  · rename_i hv
    exact .inl ⟨hv, refuse_inj rfl h⟩
  · rename_i hv
    exact .inr ⟨by simpa using hv, next_inj h⟩

theorem execIdec_cases {s t : State} (h : execIdec s = .next t) :
    (s.rxfv = false ∧ t = s.refusal .noFrame) ∨
    (s.rxfv = true ∧ t = (s.takeInfo s.rxFrame).answer .ok ((infoParse s.rxFrame).1.setWidth 32)) := by
  unfold execIdec at h
  split at h
  · rename_i hv
    exact .inl ⟨hv, refuse_inj rfl h⟩
  · rename_i hv
    exact .inr ⟨by simpa using hv, next_inj h⟩

theorem execSnxt_cases {ch : BitVec 4} {s t : State} (h : execSnxt ch s = .next t) :
    (s.sn.toNat ≤ s.sk.toNat ∧ t = s.refusal .notActive) ∨
    (s.sk.toNat < s.sn.toNat ∧
      t = (s.produce ch (s.src.span s.sliceLo (s.sliceHi - s.sliceLo))).answer .ok (s.nextCountdown.setWidth 32)) := by
  unfold execSnxt at h
  split at h
  · rename_i ha
    exact .inl ⟨by simpa [State.splitActive] using ha, refuse_inj rfl h⟩
  · rename_i ha
    split at h
    · cases h
    · rename_i chunk hc
      obtain ⟨_, rfl⟩ := srcSpan_eq_some hc
      exact .inr ⟨by simpa [State.splitActive] using ha, next_inj h⟩

/-- What RPSH does with a read once it is counted, by the kind of the read (R154). `u` is the state with the read
counted, `s` the state before. -/
theorem execRpsh_cases {s t : State} (h : execRpsh s = .next t) :
    (s.phase ≠ .active ∧ t = s.refusal .notActive) ∨
    (s.phase = .active ∧ s.linkup = false ∧ t = s.report .lna .linkUnavailable 0) ∨
    (s.phase = .active ∧ s.linkup = true ∧ s.linlen.toNat ≤ Config.rxmax ∧
      ((s.hasShortRead ∧
          t = (((s.countRead.setFlag .fts).endTransfer .short).answer .ok
                ((s.countRead.setFlag .fts).endTransfer .short).rstate)) ∨
       (s.hasBadMarker ∧ testReadCap (s.countRead.setFlag .bmk) = .next t) ∨
       (s.hasFrame ∧ Config.sent (s.lin.span s.payloadAt 64) = true ∧
          t = (((s.countRead.acceptFrame s.deframed).endTransfer .sentinel).answer .ok
                ((s.countRead.acceptFrame s.deframed).endTransfer .sentinel).rstate)) ∨
       (s.hasFrame ∧ Config.sent (s.lin.span s.payloadAt 64) = false ∧
          pushPacket (s.lin.span s.payloadAt 64) (s.countRead.acceptFrame s.deframed) = .next t))) := by
  unfold execRpsh at h
  split at h
  · rename_i hp
    exact .inl ⟨hp, refuse_inj rfl h⟩
  · rename_i hp
    have hp : s.phase = .active := Decidable.not_not.1 hp
    split at h
    · rename_i hl
      exact .inr (.inl ⟨hp, hl, next_inj h⟩)
    · rename_i hl
      cases hb : s.linRead with
      | none => rw [hb] at h; cases h
      | some b =>
        rw [hb] at h
        obtain ⟨hle, rfl⟩ := linRead_eq_some hb
        refine .inr (.inr ⟨hp, by simpa using hl, hle, ?_⟩)
        simp only [pushRead, show s.countRead.env = s.env from rfl, show s.countRead.rxch = s.rxch from rfl] at h
        rcases read_cases s with hk | hk | hk
        · simp only [deframe_of_hasFrame hk] at h
          split at h
          · rename_i hsent
            exact .inr (.inr (.inl ⟨hk, hsent, next_inj h⟩))
          · rename_i hsent
            exact .inr (.inr (.inr ⟨hk, Bool.eq_false_iff.2 hsent, h⟩))
        · simp only [deframe_of_hasShortRead hk] at h
          exact .inl ⟨hk, next_inj h⟩
        · simp only [deframe_of_hasBadMarker hk] at h
          exact .inr (.inl ⟨hk, h⟩)

/-- The state with the read in LIN counted and its frame taken into RXF (R154). -/
def State.taken (s : State) : State := s.countRead.acceptFrame s.deframed

/-- The payload of the read in LIN (R103). -/
def State.readPayload (s : State) : Bytes := s.lin.span s.payloadAt 64

/-- The state an end of the transfer with OK leaves (R154). -/
def State.stopped (s : State) (c : Cause) : State := (s.endTransfer c).answer .ok (s.endTransfer c).rstate

/-- The state an end of the transfer on a cap leaves (R154). -/
def State.capped (s : State) (c : Cause) : State :=
  ((s.endTransfer c).setFlag .ict).answer .incompleteTransfer (s.endTransfer c).rstate

/-- The read cap is reached (R154). -/
def State.readCapReached (s : State) : Prop := s.rcap ≠ 0 ∧ s.rreads.toNat ≥ s.rcap.toNat

/-- Everything RPSH can do: the rows of R152's table, each with its next state. -/
theorem execRpsh_outcomes {s t : State} (h : execRpsh s = .next t) :
    (s.phase ≠ .active ∧ t = s.refusal .notActive) ∨
    (s.phase = .active ∧ s.linkup = false ∧ t = s.report .lna .linkUnavailable 0) ∨
    (s.phase = .active ∧ s.linkup = true ∧ s.linlen.toNat ≤ Config.rxmax ∧
      ((s.hasShortRead ∧ t = (s.countRead.setFlag .fts).stopped .short) ∨
       (s.hasBadMarker ∧ s.countRead.readCapReached ∧ t = (s.countRead.setFlag .bmk).capped .readCap) ∨
       (s.hasBadMarker ∧ ¬ s.countRead.readCapReached ∧
          t = (s.countRead.setFlag .bmk).answer .ok s.rstate) ∨
       (s.hasFrame ∧ Config.sent s.readPayload = true ∧ t = s.taken.stopped .sentinel) ∨
       (s.hasFrame ∧ Config.sent s.readPayload = false ∧ s.rslen.toNat + s.kept ≤ Config.bufcap ∧
          ((s.taken.append s.readPayload).rlast = 0 ∧ t = (s.taken.append s.readPayload).stopped .terminal ∨
           (s.taken.append s.readPayload).rlast ≠ 0 ∧
             (s.taken.append s.readPayload).rlencap.toNat ≤ (s.taken.append s.readPayload).rslen.toNat ∧
             t = (s.taken.append s.readPayload).capped .lenCap ∨
           (s.taken.append s.readPayload).rlast ≠ 0 ∧
             (s.taken.append s.readPayload).rslen.toNat < (s.taken.append s.readPayload).rlencap.toNat ∧
             s.countRead.readCapReached ∧ t = (s.taken.append s.readPayload).capped .readCap ∨
           (s.taken.append s.readPayload).rlast ≠ 0 ∧
             (s.taken.append s.readPayload).rslen.toNat < (s.taken.append s.readPayload).rlencap.toNat ∧
             ¬ s.countRead.readCapReached ∧
             t = (s.taken.append s.readPayload).answer .ok (s.taken.append s.readPayload).rstate)))) := by
  have hcap : (s.taken.append s.readPayload).readCapReached ↔ s.countRead.readCapReached := by
    simp [State.readCapReached, State.taken]
  have hkept : s.taken.kept = s.kept := by simp [State.kept, State.room, State.taken]
  rcases execRpsh_cases h with h | h | ⟨hp, hl, hle, h | ⟨hk, h⟩ | h | ⟨hk, hs, h⟩⟩
  · exact .inl h
  · exact .inr (.inl h)
  · exact .inr (.inr ⟨hp, hl, hle, .inl h⟩)
  · rcases testReadCap_cases h with ⟨hc, h⟩ | ⟨hc, h⟩
    · exact .inr (.inr ⟨hp, hl, hle, .inr (.inl ⟨hk, hc, h⟩)⟩)
    · exact .inr (.inr ⟨hp, hl, hle, .inr (.inr (.inl ⟨hk, hc, h⟩))⟩)
  · exact .inr (.inr ⟨hp, hl, hle, .inr (.inr (.inr (.inl h)))⟩)
  · obtain ⟨hin, h⟩ := pushPacket_cases h
    refine .inr (.inr ⟨hp, hl, hle, .inr (.inr (.inr (.inr ⟨hk, hs, ?_, ?_⟩)))⟩)
    · have : s.taken.rslen.toNat + s.taken.kept ≤ Config.bufcap := hin
      rwa [hkept, show s.taken.rslen = s.rslen by simp [State.taken]] at this
    · rcases h with ⟨hz, h⟩ | ⟨hz, hc, h⟩ | ⟨hz, hc, h⟩
      · exact .inl ⟨hz, h⟩
      · exact .inr (.inl ⟨hz, hc, h⟩)
      · rcases testReadCap_cases h with ⟨hr, h⟩ | ⟨hr, h⟩
        · exact .inr (.inr (.inl ⟨hz, hc, hcap.1 hr, h⟩))
        · exact .inr (.inr (.inr ⟨hz, hc, fun hn => hr (hcap.2 hn), h⟩))

/-- STB of a byte inside a space the host writes answers (R174). -/
theorem execStb_next {sp : Space} {addr : BitVec 22} {w : Word} (s : State) (hw : hostWritable sp = true)
    (ha : addr.toNat < spaceSize sp) (hb : w.toNat < 256) :
    execStb sp addr w s = .next ((s.hostStore sp addr.toNat (w.extractLsb' 0 8)).answer .ok w) := by
  have h8 : ¬ w.extractLsb' 8 24 ≠ 0 := not_not.2 <| BitVec.eq_of_toNat_eq <| by
    rw [BitVec.extractLsb'_toNat, Nat.shiftRight_eq_div_pow, Nat.div_eq_of_lt hb]; rfl
  unfold execStb
  rw [if_neg (by simp [hw]), if_neg (show ¬ ¬ addrInSpace sp addr from not_not.2 ha), if_neg h8]
  rfl

/-- STB of one byte `b` of a byte string (R89). -/
theorem execStb_byte {sp : Space} (s : State) {a : Nat} (b : Byte) (hw : hostWritable sp = true)
    (ha : a < spaceSize sp) (h22 : a < 4194304) :
    execStb sp (BitVec.ofNat 22 a) (b.setWidth 32) s =
      .next ((s.hostStore sp a b).answer .ok (b.setWidth 32)) := by
  have hb := b.isLt
  have e : (BitVec.ofNat 22 a).toNat = a := by rw [BitVec.toNat_ofNat]; omega
  have eb : (b.setWidth 32).extractLsb' 0 8 = b := by
    apply BitVec.eq_of_getLsbD_eq
    intro i hi
    simp [hi]; omega
  rw [execStb_next s hw (by rw [e]; exact ha) (by rw [BitVec.toNat_setWidth]; omega), e, eb]

/-- CSRW of a legal value to a register of class RW answers it (R172). -/
theorem execCsrw_next {r : Reg} {v : Word} (s : State) (hr : r.access = .rw) (hv : v.toNat ≤ r.maxValue) :
    execCsrw r.number v s = .next ((s.writeReg r v).answer .ok v) := by
  unfold execCsrw
  rw [regOf_number]
  simp only [hr, writeLegal]
  exact if_pos hv

/-- RPSH answers whenever the read lies in LIN and the bytes kept fit in RSB (R61, R181). -/
theorem execRpsh_next {s : State} (h1 : s.linlen.toNat ≤ Config.rxmax) (h2 : s.rslen.toNat + s.kept ≤ Config.bufcap) :
    ∃ t, execRpsh s = .next t := by
  unfold execRpsh
  split
  · exact ⟨_, refuse_refusal rfl s⟩
  · split
    · exact ⟨_, rfl⟩
    · rw [linRead_of_le h1]
      simp only [pushRead]
      split
      · exact ⟨_, rfl⟩
      · exact testReadCap_next _
      · split
        · exact ⟨_, rfl⟩
        · apply pushPacket_next
          simpa [State.kept, State.room] using h2

/-- FDEC answers whenever the read lies in LIN. -/
theorem execFdec_next {s : State} (h : s.linlen.toNat ≤ Config.rxmax) : ∃ t, execFdec s = .next t := by
  unfold execFdec
  split
  · exact ⟨_, rfl⟩
  · rw [linRead_of_le h]
    simp only
    split <;> exact ⟨_, rfl⟩

/-- The three kinds of read exclude each other (R103). -/
theorem read_kinds_exclusive {s : State} (h : s.hasFrame) : ¬ s.hasShortRead ∧ ¬ s.hasBadMarker := by
  unfold State.hasFrame at h
  unfold State.hasShortRead State.hasBadMarker
  rcases h with ⟨h, h2, h3⟩ | ⟨h, h2⟩
  · simp [h, h2, h3]; omega
  · simp [h]; omega

end Sys2Proof.Machine
end

