-- ==== Sys2Proof/Laws/PerInstr.lean ====
section
/-! SUPPORT. Statements made for every instruction, one lemma for each constructor. -/

namespace Sys2Proof.Laws.EncodeFits

/-- The command word an instruction encodes to is a well-formed instance of a row of the opcode map (R83). -/
def Statement (i : Instr) : Prop := ∃ row ∈ opcodeMap, (encode i).1 &&& row.1 = row.2

theorem nop : Statement .nop := ⟨(0xFFFFFFFF, 0x00000000), by decide, rfl⟩

theorem csrr (csr : BitVec 8) : Statement (.csrr csr) := ⟨(0xFF00FFFF, 0x01000000), by decide, mask_packR 0x01 csr⟩

theorem csrw (csr : BitVec 8) (value : Word) : Statement (.csrw csr value) :=
  ⟨(0xFF00FFFF, 0x02000000), by decide, mask_packR 0x02 csr⟩

theorem ldb (sp : Space) (addr : BitVec 22) : Statement (.ldb sp addr) :=
  ⟨(0xFF000000, 0x03000000), by decide, mask_packL 0x03 sp addr⟩

theorem stb (sp : Space) (addr : BitVec 22) (wdata : Word) : Statement (.stb sp addr wdata) :=
  ⟨(0xFF000000, 0x04000000), by decide, mask_packL 0x04 sp addr⟩

theorem srst : Statement .srst := ⟨(0xFFFFFFFF, 0x0F000000), by decide, rfl⟩

theorem fenc (ch : BitVec 4) : Statement (.fenc ch) := ⟨(0xFF0FFFFF, 0x10000000), by decide, mask_packC 0x10 ch⟩

theorem ftx : Statement .ftx := ⟨(0xFFFFFFFF, 0x11000000), by decide, rfl⟩

theorem fdec : Statement .fdec := ⟨(0xFFFFFFFF, 0x12000000), by decide, rfl⟩

theorem henc (ch : BitVec 4) (mt : Byte) : Statement (.henc ch mt) :=
  ⟨(0xFF0FFF00, 0x20000000), by decide, mask_packCM 0x20 ch mt⟩

theorem hdec : Statement .hdec := ⟨(0xFFFFFFFF, 0x21000000), by decide, rfl⟩

theorem ienc (ch : BitVec 4) (mt : Byte) : Statement (.ienc ch mt) :=
  ⟨(0xFF0FFF00, 0x22000000), by decide, mask_packCM 0x22 ch mt⟩

theorem idec : Statement .idec := ⟨(0xFFFFFFFF, 0x23000000), by decide, rfl⟩

theorem sbeg (mt : Byte) : Statement (.sbeg mt) := ⟨(0xFFFFFF00, 0x30000000), by decide, mask_packM 0x30 mt⟩

theorem snxt (ch : BitVec 4) : Statement (.snxt ch) := ⟨(0xFF0FFFFF, 0x31000000), by decide, mask_packC 0x31 ch⟩

theorem rbeg : Statement .rbeg := ⟨(0xFFFFFFFF, 0x40000000), by decide, rfl⟩

theorem rpsh : Statement .rpsh := ⟨(0xFFFFFFFF, 0x41000000), by decide, rfl⟩

end Sys2Proof.Laws.EncodeFits
end

