-- ==== Sys2Proof/Laws/Sequence.lean ====
section
/-! SUPPORT. Running lists of operations: joining two lists, and the byte stores of LDLIN and LDSRC
(spec/30_encoding.md R89). -/

namespace Sys2Proof.Machine

@[simp] theorem answeredOk_answer (s : State) (d : Word) : (s.answer .ok d).answeredOk = true := by
  simp [State.answeredOk]

theorem execAll_append (xs ys : List Instr) (s t : State) (h : execAll xs s = .next t) :
    execAll (xs ++ ys) s = execAll ys t := by
  induction xs generalizing s with
  | nil =>
    cases next_inj h
    rfl
  | cons i xs ih =>
    simp only [List.cons_append, execAll] at h ⊢
    cases he : exec i s with
    | next u =>
      simp only [he] at h ⊢
      exact ih u h
    | fault r => simp only [he] at h; cases h
    | refused r => simp only [he] at h; cases h

/-- The responses of the stores of a byte string. -/
def storeResponses (b : Bytes) : List Response := b.map fun v => { code := .ok, rdata := v.setWidth 32 }

/-- The state after the bytes of `b` were stored from address `a` of a space the host writes. -/
def State.storedBytes (s : State) (sp : Space) (a : Nat) (b : Bytes) : State :=
  match sp with
  | .src => { s with src := s.src.storeSpan a b, responses := s.responses ++ storeResponses b }
  | .lin => { s with lin := s.lin.storeSpan a b, responses := s.responses ++ storeResponses b }
  | .rsb => s
  | .fb => s

theorem storedBytes_cons {sp : Space} (hw : hostWritable sp = true) (s : State) (a : Nat) (v : Byte) (b : Bytes) :
    ((s.hostStore sp a v).answer .ok (v.setWidth 32)).storedBytes sp (a + 1) b = s.storedBytes sp a (v :: b) := by
  cases sp <;>
    first
    | (exact absurd hw (by decide))
    | simp [State.storedBytes, State.answer, State.hostStore, Memory.storeSpan, storeResponses]

theorem storedBytes_nil {sp : Space} (hw : hostWritable sp = true) (s : State) (a : Nat) : s.storedBytes sp a [] = s := by
  cases sp <;> first | (exact absurd hw (by decide)) | simp [State.storedBytes, Memory.storeSpan, storeResponses]

/-- A byte string stored by STB after STB inside its space, then what follows. -/
theorem execAll_storeBytes {sp : Space} (hw : hostWritable sp = true) (b : Bytes) (a : Nat) (s : State)
    (h : a + b.length ≤ spaceSize sp) (h22 : spaceSize sp ≤ 4194304) (tail : List Instr) :
    execAll (storeBytes sp a b ++ tail) s = execAll tail (s.storedBytes sp a b) := by
  induction b generalizing a s with
  | nil => rw [storedBytes_nil hw]; rfl
  | cons v b ih =>
    simp only [List.length_cons] at h
    simp only [storeBytes, List.cons_append, execAll, exec]
    rw [execStb_byte s v hw (by omega) (by omega)]
    simp only
    rw [ih (a + 1) _ (by omega), storedBytes_cons hw]

/-- The same for the operations of a pseudo-instruction: every one of them answers OK. -/
theorem runSequence_storeBytes {sp : Space} (hw : hostWritable sp = true) (b : Bytes) (a : Nat) (s : State)
    (h : a + b.length ≤ spaceSize sp) (h22 : spaceSize sp ≤ 4194304) (tail : List Instr) :
    runSequence (storeBytes sp a b ++ tail) s = runSequence tail (s.storedBytes sp a b) := by
  induction b generalizing a s with
  | nil => rw [storedBytes_nil hw]; rfl
  | cons v b ih =>
    simp only [List.length_cons] at h
    simp only [storeBytes, List.cons_append, runSequence, exec]
    rw [execStb_byte s v hw (by omega) (by omega)]
    simp only [answeredOk_answer, if_true]
    rw [ih (a + 1) _ (by omega), storedBytes_cons hw]

end Sys2Proof.Machine
end

