-- ==== Sys2Proof/Machine/Assembly.lean ====
section
/-! DEFINITION. The assembler notation of spec/30_encoding.md R88: reading one line as an operation, writing an operation
as a line, and the listing form of commands and responses. No operation of the block depends on it. -/

namespace Sys2Proof.Machine

/-- The names of the registers (R24 to R47). -/
def registerNames : List (String × Reg) :=
  [("CTRL", .ctrl), ("STATUS", .status), ("SRCLEN", .srclen), ("LINLEN", .linlen), ("TADDR", .taddr), ("TCD", .tcd),
   ("RXCH", .rxch), ("TXCH", .txch), ("RADDR", .raddr), ("RMT", .rmt), ("RCD", .rcd), ("RPLEN", .rplen)] ++
  [("RRSSI", .rrssi), ("SN", .sn), ("SK", .sk), ("SMT", .smt), ("SLEN", .slen), ("RCAP", .rcap),
   ("RLENCAP", .rlencap), ("RSLEN", .rslen), ("RREADS", .rreads), ("RPKTS", .rpkts), ("RLAST", .rlast),
   ("RSTATE", .rstate)]

/-- The names of the spaces (R60). -/
def spaceNames : List (String × Space) := [("SRC", .src), ("LIN", .lin), ("RSB", .rsb), ("FB", .fb)]

/-- The operations of format N by mnemonic (R83). -/
def plainMnemonics : List (String × Instr) :=
  [("NOP", .nop), ("SRST", .srst), ("FTX", .ftx), ("FDEC", .fdec), ("HDEC", .hdec), ("IDEC", .idec), ("RBEG", .rbeg),
   ("RPSH", .rpsh)]

/-- The first entry of a table whose name is `cs`. -/
def named {α : Type} (table : List (String × α)) (cs : List Char) : Option α :=
  (table.find? (fun e => e.1.toList == cs)).map (·.2)

/-- The hexadecimal digits. -/
def digitChars : List Char := "0123456789ABCDEF".toList

/-- The value of a digit, letters in either case. -/
def digitValue (c : Char) : Option Nat :=
  match digitChars.findIdx? (· == c) with
  | some d => some d
  | none => ("0123456789abcdef".toList).findIdx? (· == c)

/-- A number from its digits, the most significant first. -/
def digitsValue (base : Nat) : List Char → Nat → Option Nat
  | [], acc => some acc
  | c :: rest, acc =>
    match digitValue c with
    | none => none
    | some d => if d < base then digitsValue base rest (acc * base + d) else none

/-- A decimal or `0x` hexadecimal number. -/
def numberOf : List Char → Option Nat
  | [] => none
  | '0' :: 'x' :: c :: rest => digitsValue 16 (c :: rest) 0
  | cs => digitsValue 10 cs 0

/-- An operand of `w` bits. -/
def operandOf (w : Nat) (cs : List Char) : Option (BitVec w) :=
  match numberOf cs with
  | none => none
  | some n => if n < 2 ^ w then some (BitVec.ofNat w n) else none

/-- A register by name or by number. -/
def registerOperand (cs : List Char) : Option (BitVec 8) :=
  match named registerNames cs with
  | some r => some r.number
  | none => operandOf 8 cs

/-- A space by name or by number. -/
def spaceOperand (cs : List Char) : Option Space :=
  match named spaceNames cs with
  | some sp => some sp
  | none => (operandOf 2 cs).map spaceOf

/-- Without the blanks at either end. -/
def trimmed (cs : List Char) : List Char :=
  ((cs.dropWhile (· == ' ')).reverse.dropWhile (· == ' ')).reverse

/-- Cut at the commas. -/
def cutAtCommas : List Char → List (List Char)
  | [] => [[]]
  | c :: rest =>
    if c = ',' then [] :: cutAtCommas rest
    else match cutAtCommas rest with
      | [] => [[c]]
      | first :: others => (c :: first) :: others

/-- The operands of a line after its mnemonic. -/
def operandsOf (cs : List Char) : List (List Char) :=
  if trimmed cs = [] then [] else (cutAtCommas cs).map trimmed

/-- The operation with a mnemonic and operands, in the operand order of R88. -/
def operationOf (word : List Char) : List (List Char) → Option Instr
  | [] => named plainMnemonics word
  | [a] =>
    if word = "CSRR".toList then (registerOperand a).map .csrr
    else if word = "FENC".toList then (operandOf 4 a).map .fenc
    else if word = "SBEG".toList then (operandOf 8 a).map .sbeg
    else if word = "SNXT".toList then (operandOf 4 a).map .snxt
    else none
  | [a, b] =>
    if word = "CSRW".toList then (registerOperand a).bind fun r => (operandOf 32 b).map (.csrw r)
    else if word = "LDB".toList then (spaceOperand a).bind fun sp => (operandOf 22 b).map (.ldb sp)
    else if word = "HENC".toList then (operandOf 4 a).bind fun ch => (operandOf 8 b).map (.henc ch)
    else if word = "IENC".toList then (operandOf 4 a).bind fun ch => (operandOf 8 b).map (.ienc ch)
    else none
  | [a, b, c] =>
    if word = "STB".toList then
      (spaceOperand a).bind fun sp => (operandOf 22 b).bind fun addr => (operandOf 32 c).map (.stb sp addr)
    else none
  | _ => none

/-- Read one line (R88): a comment starts with a semicolon. -/
def assembleLine (line : String) : Option Instr :=
  let body := trimmed (line.toList.takeWhile (· != ';'))
  let word := body.takeWhile (· != ' ')
  operationOf word (operandsOf (body.drop word.length))

/-- The name of a space (R60). -/
def Space.text : Space → String
  | .src => "SRC"
  | .lin => "LIN"
  | .rsb => "RSB"
  | .fb => "FB"

/-- An unsigned number in decimal. -/
def decimal {w : Nat} (v : BitVec w) : String := toString v.toNat

/-- Write an operation as a line (R88), numbers in decimal. -/
def assemblyText : Instr → String
  | .nop => "NOP"
  | .csrr csr => "CSRR " ++ decimal csr
  | .csrw csr value => "CSRW " ++ decimal csr ++ ", " ++ decimal value
  | .ldb sp addr => "LDB " ++ Space.text sp ++ ", " ++ decimal addr
  | .stb sp addr wdata => "STB " ++ Space.text sp ++ ", " ++ decimal addr ++ ", " ++ decimal wdata
  | .srst => "SRST"
  | .fenc ch => "FENC " ++ decimal ch
  | .ftx => "FTX"
  | .fdec => "FDEC"
  | .henc ch mt => "HENC " ++ decimal ch ++ ", " ++ decimal mt
  | .hdec => "HDEC"
  | .ienc ch mt => "IENC " ++ decimal ch ++ ", " ++ decimal mt
  | .idec => "IDEC"
  | .sbeg mt => "SBEG " ++ decimal mt
  | .snxt ch => "SNXT " ++ decimal ch
  | .rbeg => "RBEG"
  | .rpsh => "RPSH"

/-- `n` in `k` hexadecimal digits. -/
def hexDigits : Nat → Nat → List Char
  | 0, _ => []
  | k + 1, n => hexDigits k (n / 16) ++ [digitChars.getD (n % 16) '0']

/-- A command as listings show it: `cmd wdata`, 8 digits each (R88). -/
def commandListing (i : Instr) : List Char :=
  hexDigits 8 (encode i).1.toNat ++ [' '] ++ hexDigits 8 (encode i).2.toNat

/-- A response as listings show it: `-> code rdata` (R88). -/
def responseListing (r : Response) : List Char :=
  "-> ".toList ++ hexDigits 2 r.code.num.toNat ++ [' '] ++ hexDigits 8 r.rdata.toNat

end Sys2Proof.Machine
end

