-- ==== Sys2Proof/Tests/Slice0.lean ====
section
/-! SUPPORT. Tests. Words and results come from the examples and vectors of spec/ (named in each comment), witnesses show
states that meet the hypotheses of the statements. -/

namespace Sys2Proof.Tests

open Sys2Proof.Machine

/-- The next state of an outcome. -/
def after (r : Result) : Option State :=
  match r with
  | .next t => some t
  | .fault _ => none
  | .refused _ => none

/-- What `f` finds in the next state of `i` at `s`. -/
def look {α : Type} (i : Instr) (s : State) (f : State → α) : Option α := (after (exec i s)).map f

/-- Reset, with the bytes `b` at the start of SRC and `SRCLEN = n`. -/
def srcState (b : Bytes) (n : BitVec 22) : State :=
  { State.reset with src := Memory.storeSpan [] 0 b, srclen := n }

/-- Reset, with the bytes `b` at the start of LIN and `LINLEN = n`. -/
def linState (b : Bytes) (n : BitVec 22) : State :=
  { State.reset with lin := Memory.storeSpan [] 0 b, linlen := n }

/-- Reset, with a frame that starts with the bytes `b` in RXF. -/
def rxState (b : Bytes) : State := { State.reset with rxf := Memory.storeSpan [] 0 b, rxfv := true }

/-! ### Decoding: words written out from the formats of R81 and R82 -/

/-- R83, R170: format N, `op = 0x00`. -/
theorem test_decode_nop : decode 0b00000000000000000000000000000000 0xFFFFFFFF = .ok .nop := by decide

/-- R171: format R, `op = 0x01`, `csr = 0x18`. -/
theorem test_decode_csrr : decode 0b00000001000110000000000000000000 0 = .ok (.csrr 0x18) := by decide

/-- R172: format W, `op = 0x02`, `csr = 0x04`, the value in `wdata`. -/
theorem test_decode_csrw : decode 0b00000010000001000000000000000000 0x04030201 = .ok (.csrw 0x04 0x04030201) := by
  decide

/-- R173: format L, `op = 0x03`, `sp = 2`, `addr = 60`. -/
theorem test_decode_ldb : decode 0b00000011100000000000000000111100 0 = .ok (.ldb .rsb 60) := by decide

/-- File 95, 2.5: `LDB SRC, 0x3CFFFF` is 033CFFFF and `LDB FB, 127` is 03C0007F. -/
theorem test_decode_ldb_ends :
    decode 0x033CFFFF 0 = .ok (.ldb .src 0x3CFFFF) ∧ decode 0x03C0007F 0 = .ok (.ldb .fb 127) := by decide

/-- R174: format S, `op = 0x04`, `sp = 1`, `addr = 0`, the byte in `wdata`. -/
theorem test_decode_stb : decode 0b00000100010000000000000000000000 0x23 = .ok (.stb .lin 0 0x23) := by decide

/-- R175: format N, `op = 0x0F`. -/
theorem test_decode_srst : decode 0b00001111000000000000000000000000 0 = .ok .srst := by decide

/-- R105: format C, `op = 0x10`, `ch = 5`. -/
theorem test_decode_fenc : decode 0b00010000010100000000000000000000 0 = .ok (.fenc 5) := by decide

/-- R106: format N, `op = 0x11`. -/
theorem test_decode_ftx : decode 0b00010001000000000000000000000000 0 = .ok .ftx := by decide

/-- R107: format N, `op = 0x12`. -/
theorem test_decode_fdec : decode 0b00010010000000000000000000000000 0 = .ok .fdec := by decide

/-- File 95, T33: format CM, `op = 0x20`, `ch = 3`, `mt = 5`. -/
theorem test_decode_henc : decode 0b00100000001100000000000000000101 0 = .ok (.henc 3 5) := by decide

/-- R126: format N, `op = 0x21`. -/
theorem test_decode_hdec : decode 0b00100001000000000000000000000000 0 = .ok .hdec := by decide

/-- R127: format CM, `op = 0x22`, `ch = 1`, `mt = 2`. -/
theorem test_decode_ienc : decode 0b00100010000100000000000000000010 0 = .ok (.ienc 1 2) := by decide

/-- R128: format N, `op = 0x23`. -/
theorem test_decode_idec : decode 0b00100011000000000000000000000000 0 = .ok .idec := by decide

/-- File 95, T43: format M, `op = 0x30`, `mt = 9`. -/
theorem test_decode_sbeg : decode 0b00110000000000000000000000001001 0 = .ok (.sbeg 9) := by decide

/-- File 95, P3: format C, `op = 0x31`, `ch = 4`. -/
theorem test_decode_snxt : decode 0b00110001010000000000000000000000 0 = .ok (.snxt 4) := by decide

/-- R153: format N, `op = 0x40`. -/
theorem test_decode_rbeg : decode 0b01000000000000000000000000000000 0 = .ok .rbeg := by decide

/-- R154: format N, `op = 0x41`. -/
theorem test_decode_rpsh : decode 0b01000001000000000000000000000000 0 = .ok .rpsh := by decide

/-- File 95, 2.5: the illegal opcodes 0x05, 0x42, 0xFF. -/
theorem test_decode_illegal :
    decode 0x05000000 0 = .bad .illegalOp ∧ decode 0x42000000 0 = .bad .illegalOp ∧
    decode 0xFF000000 0 = .bad .illegalOp := by decide

/-- File 95, 2.5: reserved bits that are 1. -/
theorem test_decode_reserved :
    decode 0x00000001 0 = .bad .rsvdNonzero ∧ decode 0x10500001 0 = .bad .rsvdNonzero ∧
    decode 0x10010000 0 = .bad .rsvdNonzero ∧ decode 0x30000100 0 = .bad .rsvdNonzero ∧
    decode 0x20000106 0 = .bad .rsvdNonzero ∧ decode 0x01180001 0 = .bad .rsvdNonzero ∧
    decode 0x0F000001 0 = .bad .rsvdNonzero := by decide

/-- A table word: the command word in its low 32 bits, the data word above them. -/
theorem test_table_word :
    decodeTableWord 64 0x0000002304400000 = some (.stb .lin 0 0x23) ∧
    decodeTableWord 32 0x10500000 = some (.fenc 5) ∧ decodeTableWord 32 0x05000000 = none := by decide

/-- The presented table word is the next command a step takes. -/
theorem test_fetch_word :
    (State.reset.withFetchWord 64 0x0403020102040000).inputs = [.command true 0x02040000 0x04030201] := by decide

/-! ### Well-formedness -/

/-- R82, file 95, 2.5: 0x0D and 0x20 name no register, and STB's data word must be a byte. -/
theorem test_ill_formed :
    (Instr.csrr 0x0D).wellFormed = false ∧ (Instr.csrw 0x20 1).wellFormed = false ∧
    (Instr.stb .src 0 0x100).wellFormed = false := by decide

/-- The same operations with legal operands. -/
theorem test_well_formed :
    (Instr.csrr 0x0C).wellFormed = true ∧ (Instr.csrw 0x1E 1).wellFormed = true ∧
    (Instr.stb .src 0 0xFF).wellFormed = true := by decide

set_option Elab.async false

/-! ### One step each -/

/-- R170. -/
theorem test_nop : look .nop State.reset (·.responses) = some [⟨.ok, 0⟩] := by decide +kernel

/-- R171's example: after reset RCAP reads 10. -/
theorem test_csrr_rcap : look (.csrr 0x18) State.reset (·.responses) = some [⟨.ok, 0x0A⟩] := by decide +kernel

/-- File 95, 2.5: STATUS with ILL set and the link up reads 0x10040. -/
theorem test_csrr_status :
    look (.csrr 0x01) (State.reset.setFlag .ill) (·.responses) = some [⟨.ok, 0x10040⟩] := by decide +kernel

/-- R172's example. -/
theorem test_csrw_taddr :
    look (.csrw 0x04 0x04030201) State.reset (fun t => (t.taddr, t.responses)) =
      some (0x04030201, [⟨.ok, 0x04030201⟩]) := by decide +kernel

/-- File 95, T38. -/
theorem test_csrw_bad_value :
    look (.csrw 0x05 0x10000) State.reset (fun t => (t.tcd, t.responses)) = some (0, [⟨.badValue, 0⟩]) := by
  decide +kernel

/-- File 95, 2.5: RXF byte `i` stands at FB address `64 + i` (R51). -/
theorem test_ldb_fb :
    look (.ldb .fb 65) (rxState [1, 2, 3]) (·.responses) = some [⟨.ok, 2⟩] := by decide +kernel

/-- File 95, 2.5: `LDB FB, 128`. -/
theorem test_ldb_bad_addr : look (.ldb .fb 128) State.reset (·.responses) = some [⟨.badAddr, 0⟩] := by decide +kernel

/-- R174's example: `STB SRC, 2, 0x03`. -/
theorem test_stb :
    look (.stb .src 2 0x03) State.reset (fun t => (t.src, t.responses)) = some ([(2, 3)], [⟨.ok, 3⟩]) := by
  decide +kernel

/-- File 95, 2.5: READ_ONLY is tested before BAD_ADDR. -/
theorem test_stb_order : look (.stb .fb 500 1) State.reset (·.responses) = some [⟨.readOnly, 0⟩] := by decide +kernel

/-- File 95, 2.5: SRST clears LIN and the lengths (R175). -/
theorem test_srst :
    look .srst (linState [0xFF] 1) (fun t => (t.lin, t.linlen, t.ctrl, t.responses)) =
      some ([], 0, 1, [⟨.ok, 0⟩]) := by decide +kernel

/-- File 95, T3: zeros on the right. -/
theorem test_fenc :
    look (.fenc 5) (srcState [1, 2, 3, 4] 3) (fun t => (t.txFrame, t.txch, t.txfv, t.responses)) =
      some ([1, 2, 3] ++ zeros 61, 5, true, [⟨.ok, 3⟩]) := by decide +kernel

/-- File 95, T6: 65 bytes do not fit. -/
theorem test_fenc_long :
    look (.fenc 5) (srcState [1] 65) (fun t => (t.txf, t.sticky, t.responses)) =
      some ([], 0x02, [⟨.payloadTooLarge, 0x41⟩]) := by decide +kernel

/-- File 95, T9: the three writes. -/
theorem test_ftx :
    look .ftx { State.reset with txf := [(0, 1)], txch := 5, txfv := true } (fun t => (t.lout.length, t.lout[1]?,
      t.lout[2]?, t.responses)) = some (3, some [0x05, 0x40], some ([1] ++ zeros 63), [⟨.ok, 0x40⟩]) := by decide +kernel

/-- File 95, T7. -/
theorem test_ftx_no_frame :
    look .ftx State.reset (fun t => (t.lout, t.sticky, t.responses)) = some ([], 0x40, [⟨.noFrame, 0⟩]) := by
  decide +kernel

/-- File 95, T16. -/
theorem test_fdec :
    look .fdec (linState [0x23, 0x52, 0x40, 0xB0, 0xAA] 68) (fun t => (t.rxf, t.rplen, t.rrssi, t.status, t.responses)) =
      some ([(0, 0xAA)], 0x40, 0xB0, 0x50000, [⟨.ok, 0x40⟩]) := by decide +kernel

/-- File 95, T15: a right first marker byte and a wrong second one, 67 bytes. -/
theorem test_fdec_bad_marker :
    look .fdec (linState [0x23, 0x53, 0x40, 0xB0, 0xAA] 67) (fun t => (t.rxfv, t.sticky, t.responses)) =
      some (false, 0x10, [⟨.badMarker, 0x5323⟩]) := by decide +kernel

/-- File 95, T33. -/
theorem test_henc :
    look (.henc 3 5) { srcState [0xC1, 0x46, 0xDB, 0x2D] 4 with taddr := 0xDDCCBBAA }
      (fun t => (t.txFrame, t.txch, t.responses)) =
      some ([0xAA, 0xBB, 0xCC, 0xDD, 0x05, 0xC1, 0x46, 0xDB, 0x2D] ++ zeros 55, 3, [⟨.ok, 9⟩]) := by decide +kernel

/-- File 95, T32b. -/
theorem test_henc_long :
    look (.henc 0 6) (srcState [] 60) (fun t => (t.txfv, t.status, t.responses)) =
      some (false, 0x10002, [⟨.payloadTooLarge, 0x41⟩]) := by decide +kernel

/-- File 95, T39c. -/
theorem test_hdec :
    look .hdec (rxState [1, 2, 3, 4, 6]) (fun t => (t.raddr, t.rmt, t.rcd, t.responses)) =
      some (0x04030201, 6, 0, [⟨.ok, 0x04030201⟩]) := by decide +kernel

/-- File 95, T35. -/
theorem test_ienc :
    look (.ienc 1 2) { srcState [0xAA, 0xBB] 2 with tcd := 300 } (fun t => (t.txFrame, t.txch, t.responses)) =
      some ([0x2C, 0x01, 0x02, 0xAA, 0xBB] ++ zeros 59, 1, [⟨.ok, 5⟩]) := by decide +kernel

/-- File 95, T37. -/
theorem test_ienc_long :
    look (.ienc 1 2) { srcState [] 62 with tcd := 1 } (fun t => (t.txfv, t.responses)) =
      some (false, [⟨.payloadTooLarge, 0x41⟩]) := by decide +kernel

/-- File 95, T39d. -/
theorem test_idec :
    look .idec (rxState [1, 2, 3, 4, 6]) (fun t => (t.rcd, t.rmt, t.raddr, t.responses)) =
      some (513, 3, 0, [⟨.ok, 0x201⟩]) := by decide +kernel

/-- R142's example. -/
theorem test_sbeg :
    look (.sbeg 1) (srcState [] 260) (fun t => (t.slen, t.sn, t.sk, t.smt, t.responses)) =
      some (260, 5, 0, 1, [⟨.ok, 5⟩]) := by decide +kernel

/-- File 95, 2.3: the longest contents give 65536 packets. -/
theorem test_sbeg_longest :
    look (.sbeg 1) (srcState [] 3997696) (fun t => (t.sn, t.responses)) = some (0x10000, [⟨.ok, 65536⟩]) := by
  decide +kernel

/-- File 95, T45: the last packet of 62 bytes. -/
theorem test_snxt_last :
    look (.snxt 2) { srcState (zeros 61 ++ [0x3D, 0x77]) 63 with slen := 62, sn := 2, sk := 1, smt := 9 }
      (fun t => (t.txFrame, t.sk, t.txch, t.responses)) =
      some ([0, 0, 9, 0x3D] ++ zeros 60, 2, 2, [⟨.ok, 0⟩]) := by decide +kernel

/-- File 95, T46. -/
theorem test_snxt_refused :
    look (.snxt 2) { srcState [] 62 with slen := 62, sn := 2, sk := 2 } (fun t => (t.txf, t.responses)) =
      some ([], [⟨.notActive, 0⟩]) := by decide +kernel

/-- File 95, T64: RBEG keeps RCD, RMT and RSB. -/
theorem test_rbeg :
    look .rbeg { State.reset with rslen := 61, rreads := 1, rpkts := 1, rlast := 7, rcd := 7, rmt := 9, rsb := [(0, 0x40)],
                                  phase := .ended, cause := .short }
      (fun t => (t.rsb, t.rstate, t.rslen, t.rlast, t.rcd)) = some ([(0, 0x40)], 0x01, 0, 0, 7) := by decide +kernel

/-- File 95, T60: an empty read ends the transfer; T53: a wrong marker on the read that reaches the read cap. -/
theorem test_rpsh_discards :
    look .rpsh { State.reset with phase := .active } (fun t => (t.rreads, t.rpkts, t.sticky, t.rstate, t.responses)) =
      some (1, 0, 0x01, 0x22, [⟨.ok, 0x22⟩]) ∧
    look .rpsh { linState [0x23, 0x58, 0x40, 0x80] 68 with phase := .active, rreads := 1, rcap := 2, rslen := 61 }
      (fun t => (t.rreads, t.rslen, t.sticky, t.responses)) =
      some (2, 61, 0x14, [⟨.incompleteTransfer, 0x42⟩]) := by decide +kernel

/-- File 95, second reads of T55 and T56 (every chunk byte is 0x66 here): the chunk is cut to the room left, byte 99 is
its 39th, byte 100 stays 0, and the length cap ends the transfer; countdown 0 wins over both caps. -/
theorem test_rpsh_caps :
    (after (pushPacket ([4, 0, 1] ++ List.replicate 61 0x66)
        { State.reset with phase := .active, rreads := 2, rcap := 0, rlencap := 100, rslen := 61, rpkts := 1 })).map
      (fun t => (t.rslen, t.rlast, [t.rsb.byte 99, t.rsb.byte 100], t.responses)) =
      some (100, 4, [0x66, 0], [⟨.incompleteTransfer, 0x52⟩]) ∧
    (after (pushPacket ([0, 0, 1] ++ List.replicate 61 0x66)
        { State.reset with phase := .active, rreads := 2, rcap := 2, rlencap := 100, rslen := 61, rpkts := 1 })).map
      (fun t => (t.rslen, t.rstate, t.sticky, t.responses)) =
      some (100, 0x12, 0, [⟨.ok, 0x12⟩]) := by decide +kernel

/-! ### The notation of R88 -/

/-- Lines of file 95 (P1, P2, 2.5), a register by number, a space by number, a comment. -/
theorem test_assemble :
    assembleLine "FENC 5 ; encode" = some (.fenc 5) ∧ assembleLine "CSRW TADDR, 0x04030201" = some (.csrw 0x04 0x04030201) ∧
    assembleLine "CSRR 0x1F" = some (.csrr 0x1F) ∧ assembleLine "STB LIN, 127, 0xFF" = some (.stb .lin 127 0xFF) ∧
    assembleLine "LDB 3, 128" = some (.ldb .fb 128) ∧ assembleLine "HENC 3, 5" = some (.henc 3 5) ∧
    assembleLine "RPSH" = some .rpsh ∧ assembleLine "FENC 16" = none := by decide +kernel

/-- The listing forms of R88 on R105's example, and a line written back. -/
theorem test_listing :
    commandListing (.fenc 5) = "10500000 00000000".toList ∧
    responseListing ⟨.payloadTooLarge, 65⟩ = "-> 02 00000041".toList ∧
    assembleLine (assemblyText (.ienc 1 2)) = some (.ienc 1 2) := by decide +kernel

/-! ### Witnesses: for each statement with hypotheses, a state and operands that meet them, clause by clause -/

/-- Reset, with the commands `cs` presented. -/
def portState (cs : List Input) : State := { State.reset with inputs := cs }

/-- A state with an active transfer, the read of `linState b n` and an active split of 62 bytes whose first packet was
produced. -/
def activeState (b : Bytes) (n : BitVec 22) : State :=
  { linState b n with phase := .active, slen := 62, sn := 2, sk := 1 }

/-- The four envelope bytes of file 95's reads. -/
def envelope : Bytes := [0x23, 0x52, 0x40, 0xB0]

theorem nil_within (size : Nat) : Memory.within [] size := Memory.within_nil size

/-- The address just below a bound that 22 bits hold. -/
theorem last_address {n : Nat} (h1 : 0 < n) (h2 : n ≤ 4194304) : (BitVec.ofNat 22 (n - 1)).toNat = n - 1 := by
  rw [BitVec.toNat_ofNat]; omega

/-- A number that 32 bits hold. -/
theorem word_of_nat {n : Nat} (h : n < 4294967296) : (BitVec.ofNat 32 n).toNat = n := by
  rw [BitVec.toNat_ofNat]; omega

/-- EncodeDecodeAgree. -/
theorem witness_encode_decode_agree : decode 0x20300005 0xFFFFFFFF = .ok (.henc 3 5) := by decide

/-- DecodableWordsAreTheRows, second part. -/
theorem witness_decodable_rows :
    (0xFF0FFF00, 0x22000000) ∈ opcodeMap ∧ (0x22F000FF : Word) &&& 0xFF0FFF00 = 0x22000000 := by decide

/-- CommandDecodingOrder: its presented command, and a word for each of the three clauses. -/
theorem witness_command_decoding_order :
    (portState [.command true 0x05000000 0]).inputs = .command true 0x05000000 0 :: [] ∧
    (¬ ∃ row ∈ opcodeMap, fieldOp 0x05000000 = fieldOp row.2) ∧
    ((∃ row ∈ opcodeMap, fieldOp 0x00000001 = fieldOp row.2) ∧
      ¬ ∃ row ∈ opcodeMap, (0x00000001 : Word) &&& row.1 = row.2) ∧
    ∃ row ∈ opcodeMap, (0x41000000 : Word) &&& row.1 = row.2 := by decide

/-- StepRunsDecodedCommand. -/
theorem witness_step_runs_decoded_command :
    (portState [.command false 0x11000000 7, .reset]).inputs = .command false 0x11000000 7 :: [.reset] ∧
    decode 0x11000000 7 = .ok .ftx := by decide

/-- StepWithoutInputRests and ResetEventEqualsSrst. -/
theorem witness_step_inputs :
    (portState []).inputs = [] ∧ (portState [.reset, .reset]).inputs = .reset :: [.reset] := by decide

/-- PresentedCommandsRun. -/
theorem witness_presented_commands_run :
    ([.fenc 5, .ftx] : List Instr) ≠ [] ∧
    (portState [.command true 0x10500000 0, .command true 0x11000000 0]).inputs =
      [Instr.fenc 5, .ftx].map (fun i => Input.command true (encode i).1 (encode i).2) := by decide

/-- CsrrReadsEachRegister: the first and the last register of its list. -/
theorem witness_csrr :
    (0x00, 1) ∈ (srcState [] 5).plainRegisters ∧ (0x02, 5) ∈ (srcState [] 5).plainRegisters ∧
    (0x1D, 0) ∈ (srcState [] 5).plainRegisters := by
  exact ⟨List.mem_cons_self, by simp [State.plainRegisters, srcState], by simp [State.plainRegisters, srcState, State.reset]⟩

/-- ResetValues, its first clause: a register that is none of the four exceptions. -/
theorem witness_reset_values :
    Reg.rstate ≠ .ctrl ∧ Reg.rstate ≠ .status ∧ Reg.rstate ≠ .rcap ∧ Reg.rstate ≠ .rlencap := by decide

/-- UnlistedRegisterRefused: the numbers next to the listed ranges, and the last one. -/
theorem witness_unlisted :
    (0x0D : BitVec 8) ∉ registerNumbers ∧ (0x14 : BitVec 8) ∉ registerNumbers ∧ (0x1F : BitVec 8) ∉ registerNumbers ∧
    (0xFF : BitVec 8) ∉ registerNumbers := by decide

/-- CsrwStoresLegalValue: the largest legal value of each register. -/
theorem witness_csrw_legal :
    (1 : Word).toNat ≤ 1 ∧ (BitVec.ofNat 32 Config.bufcap).toNat ≤ Config.bufcap ∧
    (BitVec.ofNat 32 Config.rxmax).toNat ≤ Config.rxmax ∧ (65535 : Word).toNat ≤ 65535 ∧ (15 : Word).toNat ≤ 15 := by
  have h1 := bufcap_le
  have h2 := rxmax_le
  rw [word_of_nat (by omega), word_of_nat (by omega)]
  exact ⟨by decide, Nat.le_refl _, Nat.le_refl _, by decide, by decide⟩

/-- CsrwRefusals: the least illegal value of each register, and a read-only register. -/
theorem witness_csrw_refusals :
    (0x00, true) ∈ illegalValues 2 ∧ (0x02, true) ∈ illegalValues (BitVec.ofNat 32 (Config.bufcap + 1)) ∧
    (0x03, true) ∈ illegalValues (BitVec.ofNat 32 (Config.rxmax + 1)) ∧ (0x05, true) ∈ illegalValues 65536 ∧
    (0x06, true) ∈ illegalValues 16 ∧ (0x18, true) ∈ illegalValues 65536 ∧
    (0x19, true) ∈ illegalValues (BitVec.ofNat 32 (Config.bufcap + 1)) ∧ 0x1E ∈ readOnlyRegisters := by
  have h1 := bufcap_le
  have h2 := rxmax_le
  have e1 : (BitVec.ofNat 32 (Config.bufcap + 1)).toNat = Config.bufcap + 1 := word_of_nat (by omega)
  have e2 : (BitVec.ofNat 32 (Config.rxmax + 1)).toNat = Config.rxmax + 1 := word_of_nat (by omega)
  unfold illegalValues
  simp only [e1, e2]
  refine ⟨?_, ?_, ?_, ?_, ?_, ?_, ?_, by decide⟩ <;> simp

/-- LdbReadsByte and StbStoresOneByte: the last address of SRC, LIN and RSB, both ends of TXF and RXF. -/
theorem witness_ldb :
    (BitVec.ofNat 22 (Config.bufcap - 1)).toNat < Config.bufcap ∧
    (BitVec.ofNat 22 (Config.rxmax - 1)).toNat < Config.rxmax ∧ (63 : BitVec 22).toNat < 64 ∧
    (64 ≤ (64 : BitVec 22).toNat ∧ (127 : BitVec 22).toNat < 128) ∧ State.reset.src.wf ∧ State.reset.lin.wf ∧
    (255 : Word).toNat < 256 := by
  have h1 := bufcap_le
  have h2 := rxmax_le
  have h3 := bufcap_ge
  have h4 := rxmax_ge
  rw [last_address (by omega) (by omega), last_address (by omega) (by omega)]
  exact ⟨by omega, by omega, by decide, by decide, (nil_within 0).1, (nil_within 0).1, by decide⟩

/-- LdbReadsByte's and StbRefusals' clauses out of the space: the first address beyond each; StbRefusals' last clause:
the least word that is no byte. -/
theorem witness_beyond :
    Config.bufcap ≤ (BitVec.ofNat 22 Config.bufcap).toNat ∧ Config.rxmax ≤ (BitVec.ofNat 22 Config.rxmax).toNat ∧
    128 ≤ (128 : BitVec 22).toNat ∧ 256 ≤ (256 : Word).toNat ∧ (0 : BitVec 22).toNat < Config.bufcap ∧
    (0 : BitVec 22).toNat < Config.rxmax ∧ (Space.rsb = .rsb ∨ Space.rsb = .fb) := by
  have h1 := bufcap_le
  have h2 := rxmax_le
  have h3 := bufcap_ge
  have h4 := rxmax_ge
  refine ⟨?_, ?_, by decide, by decide, ?_, ?_, by decide⟩
  · rw [BitVec.toNat_ofNat]; omega
  · rw [BitVec.toNat_ofNat]; omega
  · show 0 < Config.bufcap; omega
  · show 0 < Config.rxmax; omega

/-- LoadsDeliverBytes: as many bytes as each buffer holds. -/
theorem witness_loads :
    (zeros Config.bufcap).length ≤ Config.bufcap ∧ (zeros Config.rxmax).length ≤ Config.rxmax ∧ State.reset.src.wf ∧
    State.reset.lin.wf := by
  exact ⟨by simp, by simp, (nil_within 0).1, (nil_within 0).1⟩

/-- FencEncodesPayload, HencBuildsHeader, IencBuildsPacket: the longest payload that fits each. -/
theorem witness_encode :
    (srcState [1] 64).txf.wf ∧ (srcState [1] 64).srclen.toNat ≤ 64 ∧ (srcState [1] 59).srclen.toNat ≤ 59 ∧
    (srcState [1] 61).srclen.toNat ≤ 61 := by
  exact ⟨(nil_within 0).1, by decide, by decide, by decide⟩

/-- LongPayloadRejected: the shortest payload that does not fit each. -/
theorem witness_long_payload :
    (srcState [1] 65).srclen.toNat ≤ Config.bufcap ∧ 64 < (srcState [1] 65).srclen.toNat ∧
    59 < (srcState [1] 60).srclen.toNat ∧ 61 < (srcState [1] 62).srclen.toNat := by
  have := bufcap_ge
  refine ⟨?_, by decide, by decide, by decide⟩
  show 65 ≤ _
  omega

/-- FtxSendsThreeWrites, LinkDownFails, NoFrameRefused. -/
theorem witness_ftx :
    ({ State.reset with txfv := true } : State).txfv = true ∧ State.reset.linkup = true ∧
    ({ State.reset with txfv := true, linkup := false, phase := .active } : State).linkup = false ∧
    ({ State.reset with linkup := false, phase := .active } : State).phase = .active ∧
    State.reset.txfv = false ∧ State.reset.rxfv = false := by decide

/-- FdecTakesFrame: the shortest read with an envelope, and the shortest bare one. -/
theorem witness_fdec_frame :
    (linState envelope 68).linkup = true ∧ (linState envelope 68).linlen.toNat ≤ Config.rxmax ∧
    (linState envelope 68).rxf.wf ∧ (linState envelope 68).hasFrame ∧
    ({ linState [] 64 with ctrl := 0 } : State).hasFrame := by
  have := rxmax_ge
  refine ⟨by decide, ?_, (nil_within 0).1, by decide, by decide⟩
  show 68 ≤ _
  omega

/-- FdecRejectsRead: 63 bytes, 67 bytes with the marker, 64 bytes without. -/
theorem witness_fdec_rejects :
    (linState [] 63).linkup = true ∧ (linState envelope 67).linlen.toNat ≤ Config.rxmax ∧
    (linState [] 63).hasShortRead ∧ (linState envelope 67).hasShortRead ∧ (linState [0x23, 0x53] 64).hasBadMarker := by
  have := rxmax_ge
  refine ⟨by decide, ?_, by decide, by decide, by decide⟩
  show 67 ≤ _
  omega

/-- The memories of `srcState` and of `linState` with bytes inside the space are in form. -/
theorem src_memory_form {b : Bytes} (n : BitVec 22) (h : b.length ≤ Config.bufcap) : MemoryInv (srcState b n) :=
  ⟨Memory.within_storeSpan (nil_within _) (by omega), nil_within _, nil_within _, nil_within _, nil_within _⟩

theorem lin_memory_form {b : Bytes} (n : BitVec 22) (h : b.length ≤ Config.rxmax) : MemoryInv (linState b n) :=
  ⟨nil_within _, Memory.within_storeSpan (nil_within _) (by omega), nil_within _, nil_within _, nil_within _⟩

/-- LoopBackReturnsFrame. -/
theorem witness_loop_back :
    MemoryInv (srcState [1, 2] 64) ∧ (srcState [1, 2] 64).srclen.toNat ≤ 64 ∧ (srcState [1, 2] 64).linkup = true := by
  have := bufcap_ge
  exact ⟨src_memory_form 64 (by simp only [List.length_cons, List.length_nil]; omega), by decide, by decide⟩

/-- HdecParsesHeader, IdecParsesPacket. -/
theorem witness_parse : (rxState [1, 2, 3, 4, 6]).rxfv = true := by decide

/-- LayoutsRoundTrip: the longest body, the longest chunk, a 64-byte payload. -/
theorem witness_layouts :
    ([1, 2, 3, 4] : Bytes).length = 4 ∧ (zeros 59).length ≤ 59 ∧ (zeros 61).length ≤ 61 ∧ (zeros 64).length = 64 := by
  decide

/-- MessageTypesClassified: the suggested instance of D15 is a legal table. -/
theorem witness_message_types :
    mtcodeLegal (fun t => match t with
      | .wod => 1 | .scienceImage => 2 | .scienceThermoAndCurrent => 3 | .groundStationCommand => 4 | .time => 5
      | .pong => 6 | .debug => 7) := by
  refine ⟨fun t u h => ?_, rfl⟩
  cases t <;> cases u <;> first | rfl | exact absurd h (by decide)

/-- SplitCountsDown, its clause on packets: the first and the last packet of 62 bytes. -/
theorem witness_split_packets :
    (split 9 (zeros 62)).map (·.countdown) = [1, 0] ∧ (split 9 (zeros 61)).map (·.countdown) = [0] := by
  decide +kernel

/-- A split of 62 bytes whose first packet was produced has the invariant R56 (1). -/
theorem witness_split_inv (b : Bytes) (n : BitVec 22) : SplitInv (activeState b n) :=
  ⟨by show 1 ≤ 2; decide, by show 2 ≤ 65536; decide, by show 2 = ceilDiv 62 61; decide⟩

/-- SnxtProducesPacket: the last packet of the split. -/
theorem witness_snxt :
    SplitInv (activeState [] 0) ∧ (activeState [] 0).slen.toNat ≤ Config.bufcap ∧ (activeState [] 0).txf.wf ∧
    (activeState [] 0).sk.toNat < (activeState [] 0).sn.toNat := by
  have := bufcap_ge
  refine ⟨witness_split_inv [] 0, ?_, (nil_within 0).1, by decide⟩
  show 62 ≤ _
  omega

/-- SnxtRefusedWithoutSplit. -/
theorem witness_snxt_refused : State.reset.sn.toNat ≤ State.reset.sk.toNat := by decide

/-- SplitRunAgreesWithSplit, first part: two packets, one SNXT and one FTX between SBEG and the last SNXT; second part. -/
theorem witness_split_run :
    (srcState [1] 62).srclen.toNat ≤ Config.bufcap ∧ (srcState [1] 62).txf.wf ∧
    (∀ i ∈ [Instr.snxt 0, .ftx], leavesSplit i = true) ∧
    [Instr.snxt 0, .ftx].countP isSnxt < ceilDiv (srcState [1] 62).srclen.toNat 61 ∧
    (∃ t, execAll (.sbeg 9 :: [Instr.snxt 0, .ftx] ++ [.snxt 3]) (srcState [1] 62) = .next t) ∧
    (srcState [1] 62).linkup = true := by
  have h := bufcap_ge
  refine ⟨?_, (nil_within 0).1, by decide, by decide, ?_, by decide⟩
  · show 62 ≤ _
    omega
  · have e : ∀ r : Result, (after r).isSome = true → ∃ t, r = .next t := by
      intro r hr
      cases r with
      | next t => exact ⟨t, rfl⟩
      | fault _ => cases hr
      | refused _ => cases hr
    exact e _ (by decide +kernel)

/-- RpshRefusedUnlessActive. -/
theorem witness_rpsh_refused :
    State.reset.phase = .idle ∧ ({ State.reset with phase := .ended } : State).phase = .ended := by decide

/-- RpshShortReadEnds and RpshBadMarkerDiscards. -/
theorem witness_rpsh_discards :
    (activeState [] 63).phase = .active ∧ (activeState [] 63).cause = .none ∧ (activeState [] 63).linkup = true ∧
    (activeState [] 63).linlen.toNat ≤ Config.rxmax ∧ (activeState [] 63).hasShortRead ∧
    (activeState [0x23, 0x58] 64).hasBadMarker := by
  have := rxmax_ge
  refine ⟨by decide, by decide, by decide, ?_, by decide, by decide⟩
  show 63 ≤ _
  omega

/-- RpshTakesFrame. -/
theorem witness_rpsh_frame :
    (activeState envelope 68).phase = .active ∧ (activeState envelope 68).cause = .none ∧
    (activeState envelope 68).linkup = true ∧ (activeState envelope 68).linlen.toNat ≤ Config.rxmax ∧
    (activeState envelope 68).hasFrame ∧ (activeState envelope 68).rslen.toNat ≤ Config.bufcap ∧
    (activeState envelope 68).rlencap.toNat ≤ Config.bufcap ∧ MemoryInv (activeState envelope 68) := by
  have h1 := rxmax_ge
  have h2 := bufcap_ge
  have h3 := bufcap_le
  have hm := lin_memory_form (b := envelope) 68 (by show 4 ≤ _; omega)
  refine ⟨by decide, by decide, by decide, ?_, by decide, Nat.zero_le _, ?_, ⟨hm.1, hm.2, hm.3, hm.4, hm.5⟩⟩
  · show 68 ≤ _
    omega
  · show (BitVec.ofNat 22 Config.bufcap).toNat ≤ _
    rw [BitVec.toNat_ofNat]; omega

/-- TrackerMoves, OneResponsePerOperation, FlagsAndValidBitsPersist, BufferWriters: an operation that answers. -/
theorem witness_answers : ∃ t, exec .rbeg State.reset = .next t ∧ Instr.rbeg ≠ .srst := ⟨_, rfl, by decide⟩

/-- RefusalChangesNothing. -/
theorem witness_refusal :
    ∃ t, exec .ftx State.reset = .next t ∧ t.responses = State.reset.responses ++ [⟨.noFrame, 0⟩] ∧
      0x20 ≤ Code.noFrame.num.toNat := ⟨_, rfl, rfl, by decide⟩

/-- ErrorChangesItsFlagOnly. -/
theorem witness_error :
    ∃ t, Instr.fdec ≠ .rpsh ∧ exec .fdec { State.reset with linkup := false } = .next t ∧
      t.responses = State.reset.responses ++ [⟨.linkUnavailable, 0⟩] ∧ 0x01 ≤ Code.linkUnavailable.num.toNat ∧
      Code.linkUnavailable.num.toNat ≤ 0x10 := ⟨_, by decide, rfl, rfl, by decide, by decide⟩

/-- LossFreeTransferReassembles: two packets, at the first and at the last; a cap of 62 cuts the last chunk. -/
theorem witness_loss_free :
    MemoryInv { State.reset with rlencap := 62 } ∧ State.reset.linkup = true ∧
    ({ State.reset with rlencap := 62 } : State).rlencap.toNat ≤ Config.bufcap ∧ (zeros 62).length ≤ 3997696 ∧
    ceilDiv (zeros 62).length 61 ≤ State.reset.rcap.toNat ∧ 61 * (ceilDiv (zeros 62).length 61 - 1) + 1 ≤ 62 ∧
    1 ≤ 2 ∧ 2 ≤ ceilDiv (zeros 62).length 61 := by
  have h := bufcap_ge
  refine ⟨⟨nil_within _, nil_within _, nil_within _, nil_within _, nil_within _⟩, by decide, ?_, by decide, by decide,
    by decide, by decide, by decide⟩
  show 62 ≤ _
  omega

/-- ReassembleSplitRoundTrip. -/
theorem witness_round_trip : (zeros 62).length ≤ 3997696 := by decide

/-- FlowsCommute. -/
theorem witness_flows :
    ∃ t u, inboundOp .rbeg = true ∧ outboundOp .ftx = true ∧ exec .rbeg State.reset = .next t ∧ exec .ftx t = .next u :=
  ⟨_, _, by decide, by decide, rfl, rfl⟩

/-- StepKeepsInvariant, StepKeepsMemoryForm, LegalStateNeverStops: a state with an active transfer, an active split and a
read in LIN. -/
theorem witness_invariants :
    Inv (activeState envelope 68) ∧ MemoryInv (activeState envelope 68) ∧
    step (activeState envelope 68) = .next (activeState envelope 68) := by
  have h1 := rxmax_ge
  have h2 := bufcap_ge
  have h3 := bufcap_le
  refine ⟨⟨witness_split_inv _ _, ⟨Nat.zero_le _, fun _ => Nat.zero_le _, Nat.zero_le _, by decide, by decide⟩,
    ⟨rfl, fun j h => absurd h (Nat.not_lt_zero _), fun j h => absurd h (Nat.not_lt_zero _),
      fun j h => absurd h (Nat.not_lt_zero _)⟩, ⟨Nat.zero_le _, ?_, ?_, ?_⟩⟩, witness_rpsh_frame.2.2.2.2.2.2.2, rfl⟩
  · show 68 ≤ _
    omega
  · show 62 ≤ _
    omega
  · exact witness_rpsh_frame.2.2.2.2.2.2.1

end Sys2Proof.Tests
end

section
/-! The reset state of R55: what each register and each memory byte reads after reset. -/

namespace Sys2Proof.Machine

/-! ### Reset values of the memories and of the register with an open value -/

@[simp] theorem State.reset_src : State.reset.src = [] := rfl
@[simp] theorem State.reset_lin : State.reset.lin = [] := rfl
@[simp] theorem State.reset_rsb : State.reset.rsb = [] := rfl
@[simp] theorem State.reset_txf : State.reset.txf = [] := rfl
@[simp] theorem State.reset_rxf : State.reset.rxf = [] := rfl

/-- The bound of R6 on `BUFCAP` is what makes it fit the 22 bits of RLENCAP. -/
theorem State.toNat_reset_rlencap : State.reset.rlencap.toNat = Config.bufcap := by
  have hcap : Config.bufcap < 2 ^ 22 := lt_of_le_of_lt bufcap_le (by decide)
  exact (BitVec.toNat_ofNat _ _).trans (Nat.mod_eq_of_lt hcap)

/-! ### Reading registers and memory bytes of the reset state -/

theorem State.reset_readReg_eq_zero (r : Reg) (hctrl : r ≠ .ctrl) (hstatus : r ≠ .status) (hrcap : r ≠ .rcap)
    (hrlencap : r ≠ .rlencap) : State.reset.readReg r = 0 := by
  cases r with
  | ctrl => exact absurd rfl hctrl
  | status => exact absurd rfl hstatus
  | rcap => exact absurd rfl hrcap
  | rlencap => exact absurd rfl hrlencap
  | _ => rfl

theorem State.toNat_reset_readReg_rlencap : (State.reset.readReg .rlencap).toNat = Config.bufcap :=
  calc (State.reset.readReg .rlencap).toNat
      = State.reset.rlencap.toNat := BitVec.toNat_setWidth_of_le (by decide)
    _ = Config.bufcap := State.toNat_reset_rlencap

theorem State.reset_readByte (sp : Space) (a : Nat) : State.reset.readByte sp a = 0 := by
  cases sp with
  | src | lin | rsb => simp [State.readByte]
  | fb => by_cases h : a < 64 <;> simp [State.readByte, h]

/-- Settles O9: RLENCAP by the bound of R6, the registers by cases, the memories because none lists a byte. -/
theorem resetValues : Obligations.ResetValues := by
  unfold Obligations.ResetValues
  exact ⟨State.reset_readReg_eq_zero, rfl, rfl, State.toNat_reset_readReg_rlencap, rfl, rfl, rfl, rfl,
    State.reset_readByte⟩

end Sys2Proof.Machine
end

section
/-! The decoding order of R84: the opcode selects the row of R83, the reserved bits decide between its operation and
`RSVD_NONZERO`, and only then the operation's own rule runs. -/

namespace Sys2Proof

/-! ### The opcode of a word and the rows of the opcode map -/

theorem fieldOp_and (v w : Word) : fieldOp (v &&& w) = fieldOp v &&& fieldOp w := BitVec.extractLsb'_and

/-- No row masks out a bit of the opcode (R83). -/
theorem fieldOp_mask_of_mem_opcodeMap :
    ∀ row ∈ opcodeMap, fieldOp row.1 = BitVec.allOnes 8 := by
  intro row hrow
  fin_cases hrow <;> rfl

/-- A well-formed instance of a row has the row's opcode. -/
theorem fieldOp_eq_of_match {cmd : Word} {row : Word × Word} (hrow : row ∈ opcodeMap) (hmatch : cmd &&& row.1 = row.2) :
    fieldOp cmd = fieldOp row.2 := by
  rw [← hmatch, fieldOp_and, fieldOp_mask_of_mem_opcodeMap row hrow, BitVec.and_allOnes]

/-- No two rows share an opcode (R83). -/
theorem nodup_opcodes : (opcodeMap.map fun row => fieldOp row.2).Nodup := by decide

/-! ### What the decoder answers -/

theorem checked_of_match {cmd mask pattern : Word} (h : cmd &&& mask = pattern) (i : Instr) :
    checked cmd mask pattern i = .ok i := if_pos h

theorem checked_of_mismatch {cmd mask pattern : Word} (h : cmd &&& mask ≠ pattern) (i : Instr) :
    checked cmd mask pattern i = .bad .rsvdNonzero := if_neg h

/-- Everything the decoder can do: check the reserved bits of a row with the word's opcode, or find no such row. -/
theorem decode_cases (cmd wdata : Word) :
    (∃ row i, decode cmd wdata = checked cmd row.1 row.2 i ∧ row ∈ opcodeMap ∧ fieldOp cmd = fieldOp row.2) ∨
      decode cmd wdata = .bad .illegalOp ∧ ∀ row ∈ opcodeMap, fieldOp cmd ≠ fieldOp row.2 := by
  unfold decode
  split
  case h_18 =>
    refine .inr ⟨rfl, fun row hrow hop => ?_⟩
    simp only [hop] at *
    fin_cases hrow <;> contradiction
  all_goals exact .inl ⟨(_, _), _, rfl, by decide, BitVec.eq_of_toNat_eq ‹_›⟩

/-- Step (1) of R84. -/
theorem decode_of_opcode_not_in_map {cmd : Word} (hop : ¬ ∃ row ∈ opcodeMap, fieldOp cmd = fieldOp row.2) (wdata : Word) :
    decode cmd wdata = .bad .illegalOp := by
  obtain ⟨row, _, _, hrow, hrowop⟩ | ⟨hdec, _⟩ := decode_cases cmd wdata
  · exact absurd ⟨row, hrow, hrowop⟩ hop
  · exact hdec

/-- The decoder checks the reserved bits of a row with the word's opcode, whenever the map has one. -/
theorem decode_of_opcode_in_map {cmd : Word} (hop : ∃ row ∈ opcodeMap, fieldOp cmd = fieldOp row.2) (wdata : Word) :
    ∃ row ∈ opcodeMap, fieldOp cmd = fieldOp row.2 ∧ ∃ i, decode cmd wdata = checked cmd row.1 row.2 i := by
  obtain ⟨row, i, hdec, hrow, hrowop⟩ | ⟨_, hnone⟩ := decode_cases cmd wdata
  · exact ⟨row, hrow, hrowop, i, hdec⟩
  · obtain ⟨row, hrow, hrowop⟩ := hop
    exact absurd hrowop (hnone row hrow)

/-- Step (2) of R84. -/
theorem decode_of_reserved_bit {cmd : Word} (hop : ∃ row ∈ opcodeMap, fieldOp cmd = fieldOp row.2)
    (hmatch : ¬ ∃ row ∈ opcodeMap, cmd &&& row.1 = row.2) (wdata : Word) : decode cmd wdata = .bad .rsvdNonzero := by
  obtain ⟨row, hrow, _, i, hdec⟩ := decode_of_opcode_in_map hop wdata
  have hmismatch : cmd &&& row.1 ≠ row.2 := fun h => hmatch ⟨row, hrow, h⟩
  rw [hdec, checked_of_mismatch hmismatch]

/-- What passes steps (1) and (2) of R84 is an operation. -/
theorem decode_of_match {cmd : Word} (hmatch : ∃ row ∈ opcodeMap, cmd &&& row.1 = row.2) (wdata : Word) :
    ∃ i, decode cmd wdata = .ok i := by
  obtain ⟨q, hq, hqmatch⟩ := hmatch
  have hqop : fieldOp cmd = fieldOp q.2 := fieldOp_eq_of_match hq hqmatch
  obtain ⟨row, hrow, hrowop, i, hdec⟩ := decode_of_opcode_in_map ⟨q, hq, hqop⟩ wdata
  have hrowq : row = q := List.inj_on_of_nodup_map nodup_opcodes hrow hq (hrowop.symm.trans hqop)
  exact ⟨i, by rw [hdec, hrowq, checked_of_match hqmatch]⟩

end Sys2Proof

namespace Sys2Proof.Machine

/-! ### What a step does with a presented command -/

theorem isRefusal_refusalCode (e : DecodeError) : (refusalCode e).isRefusal = true := by cases e <;> rfl

section
variable {s : State} {up : Bool} {cmd wdata : Word} {rest : List Input}

/-- A command the decoder refuses only sets `ILL`, answers 0 and leaves the port (R84, R184). -/
theorem step_of_decode_bad (hin : s.inputs = .command up cmd wdata :: rest) {e : DecodeError}
    (hdec : decode cmd wdata = .bad e) :
    step s = .next { s with linkup := up, inputs := rest, sticky := s.sticky ||| 0x40,
                            responses := s.responses ++ [⟨refusalCode e, 0⟩] } := by
  simp only [step, hin, hdec]
  exact refuse_state (isRefusal_refusalCode e) (s.takeCommand up rest)

/-- A command that decodes performs its operation in the state the port leaves (R13, R67). -/
theorem step_of_decode_ok (hin : s.inputs = .command up cmd wdata :: rest) {i : Instr}
    (hdec : decode cmd wdata = .ok i) : step s = exec i { s with linkup := up, inputs := rest } := by
  simp only [step, hin, hdec, State.takeCommand]

end

/-- Settles O4: the decoder's answer in each clause, carried through the step. -/
theorem commandDecodingOrder : Obligations.CommandDecodingOrder := by
  unfold Obligations.CommandDecodingOrder
  intro s up cmd wdata rest hin
  refine ⟨fun hop => ?illegalOp, fun hop hmatch => ?rsvdNonzero, fun hmatch => ?operation⟩
  case illegalOp => exact step_of_decode_bad hin (decode_of_opcode_not_in_map hop wdata)
  case rsvdNonzero => exact step_of_decode_bad hin (decode_of_reserved_bit hop hmatch wdata)
  case operation =>
    obtain ⟨i, hdec⟩ := decode_of_match hmatch wdata
    exact ⟨i, hdec, step_of_decode_ok hin hdec⟩

end Sys2Proof.Machine
end

section
/-! FENC of a payload that fits a frame (R105, R100): TXF afterwards reads the payload, then zeros (R108). -/

namespace Sys2Proof.Machine

/-- Filling TXF with a padded payload: the payload, zeros up to the frame's end, and nothing beyond it. -/
theorem byte_loadTx_pad {s : State} (hwf : s.txf.wf) (ch : BitVec 4) {p : Bytes} (hp : p.length ≤ 64) (a : Nat) :
    (s.loadTx ch (pad 64 p)).txf.byte a =
      if a < p.length then byteAt p a else if a < 64 then 0 else s.txf.byte a := by
  have hbyte : (s.loadTx ch (pad 64 p)).txf.byte a = if a < 64 then byteAt p a else s.txf.byte a := by
    simp [Memory.byte_storeSpan hwf, length_pad_of_le hp, byteAt_pad]
  rw [hbyte]
  by_cases hin : a < p.length
  · rw [if_pos hin, if_pos (by omega)]
  · rw [if_neg hin, byteAt_of_length_le (by omega)]

/-- FENC with SRCLEN inside SRC encodes the first SRCLEN bytes of SRC (R105). -/
theorem exec_fenc_of_srclen_le {s : State} (h : s.srclen.toNat ≤ Config.bufcap) (ch : BitVec 4) :
    exec (.fenc ch) s = encodePayload ch (s.src.span 0 s.srclen.toNat) s := by
  have hspan : s.srcSpan 0 s.srclen.toNat = some (s.src.span 0 s.srclen.toNat) := srcSpan_of_le (by omega)
  simp only [exec, execFenc, hspan]

/-- The state FENC leaves when the payload fits a frame (R105). -/
theorem exec_fenc_of_fits {s : State} (h : s.srclen.toNat ≤ 64) (ch : BitVec 4) :
    exec (.fenc ch) s = .next
      ((s.loadTx ch (pad 64 (s.src.span 0 s.srclen.toNat))).answer .ok (s.srclen.setWidth 32)) := by
  have hcap := bufcap_ge
  have hlen : (s.src.span 0 s.srclen.toNat).length ≤ 64 := (Memory.length_span ..).trans_le h
  rw [exec_fenc_of_srclen_le (by omega), encodePayload_of_le hlen, Memory.length_span, BitVec.ofNat_toNat]

/-- Settles O24: FENC's next state, its TXF read byte by byte. -/
theorem fencEncodesPayload : Obligations.FencEncodesPayload := by
  unfold Obligations.FencEncodesPayload
  intro ch s hwf hfits
  refine ⟨_, exec_fenc_of_fits hfits ch, Memory.wf_storeSpan hwf 0 _, fun a => ?bytes, rfl⟩
  case bytes =>
    have hlen : (s.src.span 0 s.srclen.toNat).length = s.srclen.toNat := Memory.length_span ..
    rw [State.answer_txf, byte_loadTx_pad hwf ch (by omega), hlen]
    by_cases hin : a < s.srclen.toNat
    · rw [if_pos hin, if_pos hin, Memory.byteAt_span, if_pos hin, Nat.zero_add]
    · rw [if_neg hin, if_neg hin]

end Sys2Proof.Machine
end

section
/-! The two packet layouts (R120, R122) and their parsers (R121, R123). Both lay out a head, the message type and a tail
up to the end of a frame, so each direction of R129 is proved once for a head of any length and used for the address and
for the countdown. -/

namespace Sys2Proof.Machine

/-! ### A head, one byte and a tail -/

/-- Padding a string extends its tail by the zeros the head leaves room for (R10). -/
theorem pad_append (n : Nat) (s t : Bytes) : pad n (s ++ t) = s ++ pad (n - s.length) t := by
  simp only [pad, List.length_append, List.append_assoc, Nat.sub_sub]

theorem pad_eq_self {n : Nat} {s : Bytes} (h : s.length = n) : pad n s = s := by
  simp [pad, zeros, h]

section
variable (pre : Bytes) (b : Byte) (tail : Bytes)

/-- A padded layout is its head, the byte after it and the tail padded to what is left. -/
theorem pad_layout (n : Nat) : pad n (pre ++ [b] ++ tail) = pre ++ b :: pad (n - (pre.length + 1)) tail := by
  rw [pad_append, List.append_assoc, List.singleton_append, List.length_append, List.length_singleton]

theorem slice_layout_head : slice (pre ++ b :: tail) 0 pre.length = pre := by
  simp [slice]

theorem byteAt_layout : byteAt (pre ++ b :: tail) pre.length = b := by
  simp [byteAt]

theorem slice_layout_tail {n : Nat} (h : tail.length = n - (pre.length + 1)) :
    slice (pre ++ b :: tail) (pre.length + 1) n = tail := by
  rw [slice, ← List.singleton_append, ← List.append_assoc, List.drop_left' (by simp), ← h, List.take_length]

end

/-- A string is its first `k` bytes, byte `k` and the rest. -/
theorem layout_of_slices {p : Bytes} {k : Nat} (hk : k < p.length) :
    slice p 0 k ++ [byteAt p k] ++ slice p (k + 1) p.length = p := by
  have hbyte : byteAt p k = p[k] := by simp [byteAt, hk]
  have hhead : slice p 0 k = p.take k := rfl
  have hrest : slice p (k + 1) p.length = p.drop (k + 1) := List.take_of_length_le (List.length_drop ..).le
  calc slice p 0 k ++ [byteAt p k] ++ slice p (k + 1) p.length
      = p.take k ++ p[k] :: p.drop (k + 1) := by
        rw [hhead, hbyte, hrest, List.append_assoc, List.singleton_append]
    _ = p := by rw [← List.drop_eq_getElem_cons hk, List.take_append_drop]

/-! ### The countdown's two bytes -/

/-- The other direction of `un16_le16` (R11). -/
theorem le16_un16 {s : Bytes} (h : s.length = 2) : le16 (un16 s) = s := by
  obtain ⟨lo, hi, rfl⟩ := List.length_eq_two.mp h
  have hlow : (hi ++ lo).extractLsb' 0 8 = lo := BitVec.extractLsb'_append_eq_right
  have hhigh : (hi ++ lo).extractLsb' 8 8 = hi := BitVec.extractLsb'_append_eq_left
  simp [le16, un16, byteAt, hlow, hhigh]

/-! ### R129 -/

/-- R129, first equation: the address is the head, of 4 bytes. -/
theorem headerParse_pad_headerPayload {a : Bytes} (ha : a.length = 4) (mt : Byte) {body : Bytes} (hbody : body.length ≤ 59) :
    headerParse (pad 64 (headerPayload a mt body)) = (a, mt, pad 59 body) := by
  have hpad : pad 64 (headerPayload a mt body) = a ++ mt :: pad 59 body := by
    rw [headerPayload, pad_layout, ha]
  have haddr := slice_layout_head a mt (pad 59 body)
  have htype := byteAt_layout a mt (pad 59 body)
  have htail : slice (a ++ mt :: pad 59 body) (a.length + 1) 64 = pad 59 body :=
    slice_layout_tail a mt _ (by rw [length_pad_of_le hbody, ha])
  rw [ha] at haddr htype htail
  rw [hpad, headerParse, haddr, htype, htail]

/-- R129, second equation: the countdown's two bytes are the head. -/
theorem infoParse_pad_infoPayload (cd : BitVec 16) (mt : Byte) {chunk : Bytes} (hchunk : chunk.length ≤ 61) :
    infoParse (pad 64 (infoPayload cd mt chunk)) = (cd, mt, pad 61 chunk) := by
  have hpad : pad 64 (infoPayload cd mt chunk) = le16 cd ++ mt :: pad 61 chunk := by
    rw [infoPayload, pad_layout, length_le16]
  have hcount : slice (le16 cd ++ mt :: pad 61 chunk) 0 2 = le16 cd := slice_layout_head ..
  have htype : byteAt (le16 cd ++ mt :: pad 61 chunk) 2 = mt := byteAt_layout ..
  have htail : slice (le16 cd ++ mt :: pad 61 chunk) 3 64 = pad 61 chunk :=
    slice_layout_tail _ _ _ (length_pad_of_le hchunk)
  rw [hpad, infoParse, hcount, htype, htail, un16_le16]

theorem headerPayload_headerParse {p : Bytes} (hp : p.length = 64) :
    headerPayload (headerParse p).1 (headerParse p).2.1 (headerParse p).2.2 = p := by
  have hlayout : slice p 0 4 ++ [byteAt p 4] ++ slice p 5 p.length = p := layout_of_slices (by omega)
  rwa [hp] at hlayout

theorem infoPayload_infoParse {p : Bytes} (hp : p.length = 64) :
    infoPayload (infoParse p).1 (infoParse p).2.1 (infoParse p).2.2 = p := by
  have hlayout : slice p 0 2 ++ [byteAt p 2] ++ slice p 3 p.length = p := layout_of_slices (by omega)
  have hcount : (slice p 0 2).length = 2 := by rw [length_slice]; omega
  rw [hp] at hlayout
  rwa [infoPayload, infoParse, le16_un16 hcount]

/-- Settles O36: each layout parses back, and a payload laid out again has 64 bytes already, so padding adds none. -/
theorem layoutsRoundTrip : Obligations.LayoutsRoundTrip := by
  unfold Obligations.LayoutsRoundTrip
  refine ⟨fun a mt body ha hbody => ?headerBack, fun cd mt chunk hchunk => ?infoBack, fun p hp => ⟨?header, ?info⟩⟩
  case headerBack => exact headerParse_pad_headerPayload ha mt hbody
  case infoBack => exact infoParse_pad_infoPayload cd mt hchunk
  case header => rw [headerPayload_headerParse hp, pad_eq_self hp]
  case info => rw [infoPayload_infoParse hp, pad_eq_self hp]

end Sys2Proof.Machine
end

section
/-! A split as it runs (R142 to R144): what SNXT reads besides its countdown is latched by SBEG or stands in SRC, and no
operation but SBEG, SRST, SNXT and a store to SRC touches any of it. So after `k` of the SNXTs the state is the one that
produces packet `k` of Split. -/

namespace Sys2Proof.Machine

/-! ### What SNXT reads, and the operations that leave it -/

/-- What the packet of SNXT is cut from (R143). -/
structure SplitView where
  sn : BitVec 17
  sk : BitVec 17
  smt : Byte
  slen : BitVec 22
  src : Memory

/-- The split as a state holds it. -/
def State.splitView (s : State) : SplitView := ⟨s.sn, s.sk, s.smt, s.slen, s.src⟩

/-- From `s` to `t` the split did not move, and TXF, whatever it holds now, is still in canonical form. -/
structure State.KeepsSplit (s t : State) : Prop where
  view : t.splitView = s.splitView
  txf_wf : s.txf.wf → t.txf.wf

section
variable {s t : State}

theorem State.KeepsSplit.refl (s : State) : s.KeepsSplit s := ⟨rfl, id⟩

theorem State.KeepsSplit.answer (h : s.KeepsSplit t) (c : Code) (d : Word) : s.KeepsSplit (t.answer c d) :=
  ⟨h.view, h.txf_wf⟩

theorem State.KeepsSplit.setFlag (h : s.KeepsSplit t) (f : Flag) : s.KeepsSplit (t.setFlag f) :=
  ⟨h.view, h.txf_wf⟩

theorem State.KeepsSplit.refusal (h : s.KeepsSplit t) (c : Code) : s.KeepsSplit (t.refusal c) :=
  (h.setFlag .ill).answer c 0

theorem State.KeepsSplit.report (h : s.KeepsSplit t) (f : Flag) (c : Code) (d : Word) :
    s.KeepsSplit (t.report f c d) :=
  (h.setFlag f).answer c d

theorem State.KeepsSplit.endTransfer (h : s.KeepsSplit t) (c : Cause) : s.KeepsSplit (t.endTransfer c) :=
  ⟨h.view, h.txf_wf⟩

theorem State.KeepsSplit.stopped (h : s.KeepsSplit t) (c : Cause) : s.KeepsSplit (t.stopped c) :=
  (h.endTransfer c).answer _ _

theorem State.KeepsSplit.capped (h : s.KeepsSplit t) (c : Cause) : s.KeepsSplit (t.capped c) :=
  ((h.endTransfer c).setFlag .ict).answer _ _

theorem keepsSplit_writeReg (s : State) (r : Reg) (v : Word) : s.KeepsSplit (s.writeReg r v) :=
  ⟨by simp [State.splitView], by simp⟩

theorem keepsSplit_loadTx (s : State) (ch : BitVec 4) (raw : Bytes) : s.KeepsSplit (s.loadTx ch raw) :=
  ⟨rfl, fun hwf => Memory.wf_storeSpan hwf 0 raw⟩

theorem keepsSplit_linkWrites (s : State) (ws : List Bytes) : s.KeepsSplit (s.linkWrites ws) := ⟨rfl, id⟩

theorem keepsSplit_acceptFrame (s : State) (d : Deframed) : s.KeepsSplit (s.acceptFrame d) :=
  ⟨by simp [State.splitView], by simp⟩

theorem keepsSplit_countRead (s : State) : s.KeepsSplit s.countRead := ⟨rfl, id⟩

theorem keepsSplit_taken (s : State) : s.KeepsSplit s.taken :=
  ⟨(keepsSplit_acceptFrame s.countRead s.deframed).view, (keepsSplit_acceptFrame s.countRead s.deframed).txf_wf⟩

theorem State.KeepsSplit.append (h : s.KeepsSplit t) (p : Bytes) : s.KeepsSplit (t.append p) := ⟨h.view, h.txf_wf⟩

/-! ### Each operation but SBEG, SRST and SNXT keeps the split -/

/-- A word of 256 or more has a bit above its low byte (R174). -/
theorem extractLsb'_ne_zero_of_ge {w : Word} (h : 256 ≤ w.toNat) : w.extractLsb' 8 24 ≠ 0 := by
  have hhigh : (w.extractLsb' 8 24).toNat = w.toNat / 2 ^ 8 := by
    rw [BitVec.extractLsb'_toNat, Nat.shiftRight_eq_div_pow, Nat.mod_eq_of_lt (by omega)]
  intro hzero
  have hlow : 0 = w.toNat / 2 ^ 8 := by rwa [hzero] at hhigh
  omega

/-- An STB to SRC out of range or of no byte writes nothing (R174). -/
theorem execStb_src_refused {addr : BitVec 22} {w : Word} (hout : Config.bufcap ≤ addr.toNat ∨ 256 ≤ w.toNat)
    (h : execStb .src addr w s = .next t) : ∃ c, t = s.refusal c := by
  have hrefused : ∃ c, c.isRefusal = true ∧ execStb .src addr w s = refuse c s := by
    by_cases haddr : addrInSpace .src addr
    · have hbyte : w.extractLsb' 8 24 ≠ 0 :=
        extractLsb'_ne_zero_of_ge (hout.resolve_left (Nat.not_le.2 haddr))
      exact ⟨.badValue, rfl, by rw [execStb, if_neg (by decide), if_neg (not_not.2 haddr), if_pos hbyte]⟩
    · exact ⟨.badAddr, rfl, by rw [execStb, if_neg (by decide), if_pos haddr]⟩
  obtain ⟨c, hc, hrefuse⟩ := hrefused
  exact ⟨c, refuse_inj hc (hrefuse ▸ h)⟩

theorem execStb_keepsSplit {sp : Space} {addr : BitVec 22} {w : Word} (hi : leavesSplit (.stb sp addr w) = true)
    (h : execStb sp addr w s = .next t) : s.KeepsSplit t := by
  cases sp with
  | src =>
    obtain ⟨c, rfl⟩ := execStb_src_refused (of_decide_eq_true hi) h
    exact (State.KeepsSplit.refl s).refusal c
  | lin =>
    obtain ⟨c, _, rfl⟩ | ⟨_, _, rfl⟩ := execStb_cases h
    · exact (State.KeepsSplit.refl s).refusal c
    · exact ⟨rfl, id⟩
  | rsb | fb =>
    obtain ⟨c, _, rfl⟩ | ⟨hw, _⟩ := execStb_cases h
    · exact (State.KeepsSplit.refl s).refusal c
    · exact absurd hw (by decide)

theorem execCsrw_keepsSplit {csr : BitVec 8} {v : Word} (h : execCsrw csr v s = .next t) : s.KeepsSplit t := by
  obtain ⟨c, _, rfl⟩ | ⟨_, rfl⟩ | ⟨r, _, _, rfl⟩ := execCsrw_cases h
  · exact (State.KeepsSplit.refl s).refusal c
  · exact ⟨rfl, id⟩
  · exact (keepsSplit_writeReg s r v).answer _ _

theorem execFdec_keepsSplit (h : execFdec s = .next t) : s.KeepsSplit t := by
  obtain ⟨_, rfl⟩ | ⟨_, _, ⟨_, rfl⟩ | ⟨_, rfl⟩ | ⟨_, rfl⟩⟩ := execFdec_cases h
  · exact (State.KeepsSplit.refl s).report ..
  · exact (State.KeepsSplit.refl s).report ..
  · exact (State.KeepsSplit.refl s).report ..
  · exact (keepsSplit_acceptFrame s s.deframed).answer _ _

/-- RPSH works on the tracker, RSB and RXF, in every row of R152's table. -/
theorem execRpsh_keepsSplit (h : execRpsh s = .next t) : s.KeepsSplit t := by
  have hcounted (f : Flag) : s.KeepsSplit (s.countRead.setFlag f) := (keepsSplit_countRead s).setFlag f
  have happended : s.KeepsSplit (s.taken.append s.readPayload) := (keepsSplit_taken s).append _
  obtain ⟨_, rfl⟩ | ⟨_, _, rfl⟩ | ⟨_, _, _, hread⟩ := execRpsh_outcomes h
  · exact (State.KeepsSplit.refl s).refusal _
  · exact (State.KeepsSplit.refl s).report ..
  · obtain ⟨_, rfl⟩ | ⟨_, _, rfl⟩ | ⟨_, _, rfl⟩ | ⟨_, _, rfl⟩ | ⟨_, _, _, hpacket⟩ := hread
    · exact (hcounted .fts).stopped _
    · exact (hcounted .bmk).capped _
    · exact (hcounted .bmk).answer _ _
    · exact (keepsSplit_taken s).stopped _
    · obtain ⟨_, rfl⟩ | ⟨_, _, rfl⟩ | ⟨_, _, _, rfl⟩ | ⟨_, _, _, rfl⟩ := hpacket
      · exact happended.stopped _
      · exact happended.capped _
      · exact happended.capped _
      · exact happended.answer _ _

theorem exec_keepsSplit {i : Instr} (hi : leavesSplit i = true) (hn : isSnxt i = false) (h : exec i s = .next t) :
    s.KeepsSplit t := by
  have hs := State.KeepsSplit.refl s
  cases i with
  | sbeg | srst => exact absurd hi Bool.false_ne_true
  | snxt => exact absurd hn.symm Bool.false_ne_true
  | nop => cases next_inj h; exact hs.answer _ _
  | rbeg => cases next_inj h; exact ⟨rfl, id⟩
  | csrr =>
    obtain rfl | ⟨_, _, rfl⟩ := execCsrr_cases h
    · exact hs.refusal _
    · exact hs.answer _ _
  | csrw => exact execCsrw_keepsSplit h
  | ldb =>
    obtain rfl | rfl := execLdb_cases h
    · exact hs.refusal _
    · exact hs.answer _ _
  | stb => exact execStb_keepsSplit hi h
  | fenc =>
    obtain ⟨_, ⟨_, rfl⟩ | ⟨_, rfl⟩⟩ := execFenc_cases h
    · exact (keepsSplit_loadTx ..).answer _ _
    · exact hs.report ..
  | henc =>
    obtain ⟨_, ⟨_, rfl⟩ | ⟨_, rfl⟩⟩ := execHenc_cases h
    · exact (keepsSplit_loadTx ..).answer _ _
    · exact hs.report ..
  | ienc =>
    obtain ⟨_, ⟨_, rfl⟩ | ⟨_, rfl⟩⟩ := execIenc_cases h
    · exact (keepsSplit_loadTx ..).answer _ _
    · exact hs.report ..
  | ftx =>
    obtain ⟨_, rfl⟩ | ⟨_, rfl⟩ | ⟨_, _, rfl⟩ := execFtx_cases h
    · exact hs.refusal _
    · exact hs.report ..
    · exact (keepsSplit_linkWrites s _).answer _ _
  | fdec => exact execFdec_keepsSplit h
  | hdec =>
    obtain ⟨_, rfl⟩ | ⟨_, rfl⟩ := execHdec_cases h
    · exact hs.refusal _
    · exact ⟨rfl, id⟩
  | idec =>
    obtain ⟨_, rfl⟩ | ⟨_, rfl⟩ := execIdec_cases h
    · exact hs.refusal _
    · exact ⟨rfl, id⟩
  | rpsh => exact execRpsh_keepsSplit h

end

/-! ### The state after `k` packets of a split -/

/-- The contents a split of `s` sends: SRC's first SRCLEN bytes (R142). -/
def State.contents (s : State) : Bytes := s.src.span 0 s.srclen.toNat

/-- The packet count of a split of `s` (R142). -/
def State.packets (s : State) : Nat := ceilDiv s.srclen.toNat 61

/-- `t` is in the split that SBEG `mt` began in `s`, with `k` packets produced. -/
structure State.InSplit (s : State) (mt : Byte) (k : Nat) (t : State) : Prop where
  view : t.splitView = ⟨BitVec.ofNat 17 s.packets, BitVec.ofNat 17 k, mt, s.srclen, s.src⟩
  txf_wf : t.txf.wf

section
variable {s t u : State} {mt : Byte} {k : Nat}

/-- The packet count fits 16 bits and one (R37): `BUFCAP` is at most 61 times 65536. -/
theorem packets_le (hlen : s.srclen.toNat ≤ Config.bufcap) : s.packets ≤ 65536 :=
  (ceilDiv_le_iff (by decide)).2 (hlen.trans bufcap_le)

theorem splitPacket_contents (s : State) (mt : Byte) (k : Nat) :
    splitPacket mt s.contents k =
      { countdown := s.packets - 1 - k, mt := mt,
        chunk := s.src.span (61 * k) (min (61 * (k + 1)) s.srclen.toNat - 61 * k) } := by
  simp only [splitPacket, State.contents, State.packets, Memory.length_span,
    slice_span _ _ _ _ (Nat.min_le_right (61 * (k + 1)) s.srclen.toNat)]

theorem splitPacket_contents_countdown (s : State) (mt : Byte) (k : Nat) :
    (splitPacket mt s.contents k).countdown = s.packets - 1 - k := by
  rw [splitPacket_contents]

theorem split_contents (s : State) (mt : Byte) :
    split mt s.contents = (List.range s.packets).map (splitPacket mt s.contents) := by
  simp only [split, State.contents, State.packets, Memory.length_span]

theorem getElem?_split_contents (mt : Byte) (hk : k < s.packets) :
    (split mt s.contents)[k]? = some (splitPacket mt s.contents k) := by
  rw [split_contents, List.getElem?_map, List.getElem?_range hk, Option.map_some]

theorem length_splitPacket_chunk_le (mt : Byte) (c : Bytes) (k : Nat) : (splitPacket mt c k).chunk.length ≤ 61 := by
  simp only [splitPacket, length_slice]
  omega

theorem length_splitPacket_payload (mt : Byte) (c : Bytes) (k : Nat) : (splitPacket mt c k).payload.length = 64 := by
  have hchunk := length_splitPacket_chunk_le mt c k
  exact length_pad_of_le (by rw [length_infoPayload]; omega)

/-- SBEG begins the split (R142). -/
theorem inSplit_sbeg (hwf : s.txf.wf) (h : exec (.sbeg mt) s = .next t) : s.InSplit mt 0 t := by
  cases next_inj h
  exact ⟨rfl, hwf⟩

theorem State.InSplit.of_keepsSplit (ht : s.InSplit mt k t) (h : t.KeepsSplit u) : s.InSplit mt k u :=
  ⟨h.view.trans ht.view, h.txf_wf ht.txf_wf⟩

theorem State.InSplit.sn_toNat (ht : s.InSplit mt k t) (hlen : s.srclen.toNat ≤ Config.bufcap) :
    t.sn.toNat = s.packets := by
  have hsn : t.sn = BitVec.ofNat 17 s.packets := congrArg SplitView.sn ht.view
  have := packets_le hlen
  rw [hsn, BitVec.toNat_ofNat, Nat.mod_eq_of_lt (by omega)]

theorem State.InSplit.sk_toNat (ht : s.InSplit mt k t) (hk : k ≤ 65536) : t.sk.toNat = k := by
  have hsk : t.sk = BitVec.ofNat 17 k := congrArg SplitView.sk ht.view
  rw [hsk, BitVec.toNat_ofNat, Nat.mod_eq_of_lt (by omega)]

/-! ### SNXT and FTX inside a split -/

/-- The state SNXT leaves when it produces packet `p` as packet `k` of a split (R143). -/
def State.produced (t : State) (ch : BitVec 4) (k : Nat) (p : InfoPacket) : State :=
  ({ t.loadTx ch p.payload with sk := BitVec.ofNat 17 (k + 1) } : State).answer .ok (BitVec.ofNat 32 p.countdown)

/-- SNXT with a packet left produces packet `k` of Split and answers its countdown (R143, R144). -/
theorem exec_snxt_of_inSplit (hlen : s.srclen.toNat ≤ Config.bufcap) (ht : s.InSplit mt k t) (hk : k < s.packets)
    (ch : BitVec 4) : exec (.snxt ch) t = .next (t.produced ch k (splitPacket mt s.contents k)) := by
  have hpackets := packets_le hlen
  have hsn := ht.sn_toNat hlen
  have hsk := ht.sk_toNat (by omega)
  have hsmt : t.smt = mt := congrArg SplitView.smt ht.view
  have hslen : t.slen = s.srclen := congrArg SplitView.slen ht.view
  have hsrc : t.src = s.src := congrArg SplitView.src ht.view
  have hactive : t.splitActive = true := decide_eq_true (by omega)
  have hlo : 61 * k < s.srclen.toNat := lt_ceilDiv_iff.1 hk
  have hspan : t.srcSpan t.sliceLo (t.sliceHi - t.sliceLo) = some (splitPacket mt s.contents k).chunk := by
    rw [splitPacket_contents, State.sliceLo, State.sliceHi, hsk, hslen, ← hsrc]
    exact srcSpan_of_le (by omega)
  have hcountdown : t.nextCountdown = BitVec.ofNat 16 (splitPacket mt s.contents k).countdown := by
    rw [splitPacket_contents_countdown, State.nextCountdown, hsn, hsk]
  have hanswer : t.nextCountdown.setWidth 32 = BitVec.ofNat 32 (splitPacket mt s.contents k).countdown := by
    have hsmall : (splitPacket mt s.contents k).countdown < 65536 := by
      rw [splitPacket_contents_countdown]
      omega
    rw [hcountdown]
    exact BitVec.setWidth_ofNat_of_le_of_lt (by decide) hsmall
  have hproduce : t.produce ch (splitPacket mt s.contents k).chunk =
      { t.loadTx ch (splitPacket mt s.contents k).payload with sk := BitVec.ofNat 17 (k + 1) } := by
    rw [State.produce, hcountdown, hsmt, hsk]
    rfl
  simp only [exec, execSnxt, hactive, hspan, hanswer, hproduce, Bool.true_eq_false, if_false]
  rfl

theorem State.InSplit.produced (ht : s.InSplit mt k t) (ch : BitVec 4) (p : InfoPacket) :
    s.InSplit mt (k + 1) (t.produced ch k p) :=
  ⟨congrArg (fun v : SplitView => { v with sk := BitVec.ofNat 17 (k + 1) }) ht.view,
    Memory.wf_storeSpan ht.txf_wf 0 p.payload⟩

/-- TXF holds the payload of the packet SNXT produced (R122, R144). -/
theorem txFrame_produced (hwf : t.txf.wf) (ch : BitVec 4) {p : InfoPacket} (hp : p.payload.length = 64) :
    (t.produced ch k p).txFrame = p.payload := by
  have hback := Memory.span_storeSpan hwf 0 p.payload
  rwa [hp] at hback

theorem exec_ftx_of_txfv (hv : t.txfv = true) (hl : t.linkup = true) :
    exec .ftx t = .next ((t.linkWrites (txWrites t.txFrameRecord)).answer .ok 64) := by
  simp [exec, execFtx, hv, hl]

/-! ### The operations between SBEG and an SNXT -/

theorem eq_snxt_of_isSnxt {i : Instr} (h : isSnxt i = true) : ∃ ch, i = .snxt ch := by
  cases i with
  | snxt ch => exact ⟨ch, rfl⟩
  | _ => exact absurd h Bool.false_ne_true

/-- A run of a list that gets through gets through its first operation. -/
theorem execAll_cons_next {i : Instr} {rest : List Instr} (h : execAll (i :: rest) s = .next t) :
    ∃ u, exec i s = .next u ∧ execAll rest u = .next t := by
  rw [execAll] at h
  cases hi : exec i s with
  | next u => exact ⟨u, rfl, by rwa [hi] at h⟩
  | fault r => rw [hi] at h; cases h
  | refused r => rw [hi] at h; cases h

theorem execAll_of_exec {i : Instr} (h : exec i s = .next u) (rest : List Instr) :
    execAll (i :: rest) s = execAll rest u := by
  rw [execAll, h]

/-- A run of two lists that gets through gets through the first: the converse of `execAll_append`. -/
theorem execAll_append_next {xs ys : List Instr} (h : execAll (xs ++ ys) s = .next t) :
    ∃ u, execAll xs s = .next u ∧ execAll ys u = .next t := by
  induction xs generalizing s with
  | nil => exact ⟨s, rfl, h⟩
  | cons i xs ih =>
    obtain ⟨v, hi, hrest⟩ := execAll_cons_next h
    obtain ⟨u, hxs, hys⟩ := ih hrest
    exact ⟨u, (execAll_of_exec hi xs).trans hxs, hys⟩

/-- Whatever runs inside a split, its SNXTs count the packets and nothing else moves it. -/
theorem inSplit_execAll (hlen : s.srclen.toNat ≤ Config.bufcap) {between : List Instr}
    (hleaves : ∀ i ∈ between, leavesSplit i = true) (ht : s.InSplit mt k t)
    (hcount : k + between.countP isSnxt ≤ s.packets) (h : execAll between t = .next u) :
    s.InSplit mt (k + between.countP isSnxt) u := by
  induction between generalizing k t with
  | nil =>
    cases next_inj h
    exact ht
  | cons i rest ih =>
    obtain ⟨v, hi, hrest⟩ := execAll_cons_next h
    have hleavesRest : ∀ j ∈ rest, leavesSplit j = true := fun j hj => hleaves j (List.mem_cons_of_mem i hj)
    cases hsnxt : isSnxt i with
    | false =>
      have hkeep : t.KeepsSplit v := exec_keepsSplit (hleaves i List.mem_cons_self) hsnxt hi
      rw [List.countP_cons_of_neg (by simp [hsnxt])] at hcount ⊢
      exact ih hleavesRest (ht.of_keepsSplit hkeep) hcount hrest
    | true =>
      obtain ⟨ch, rfl⟩ := eq_snxt_of_isSnxt hsnxt
      rw [List.countP_cons_of_pos hsnxt] at hcount ⊢
      rw [exec_snxt_of_inSplit hlen ht (by omega) ch] at hi
      cases next_inj hi
      have hnext := ih hleavesRest (ht.produced ch _) (by omega) hrest
      rwa [Nat.add_right_comm, Nat.add_assoc] at hnext

/-! ### A split sent to the link -/

/-- The link writes of a packet sent on a channel (R104). -/
def packetWrites (ch : BitVec 4) (p : InfoPacket) : List Bytes := [Config.txcmd, [ch.setWidth 8, 0x40], p.payload]

theorem txWrites_produced (hwf : t.txf.wf) (ch : BitVec 4) {p : InfoPacket} (hp : p.payload.length = 64) :
    txWrites (t.produced ch k p).txFrameRecord = packetWrites ch p := by
  rw [txWrites, State.txFrameRecord, txFrame_produced hwf ch hp]
  rfl

/-- `SNXT ch; FTX`, `n` times inside a split with the link up, hands the next `n` packets to the link (R89, R144). -/
theorem execAll_sendPackets (hlen : s.srclen.toNat ≤ Config.bufcap) (ch : BitVec 4) (n : Nat)
    (hn : k + n ≤ s.packets) (ht : s.InSplit mt k t) (hl : t.linkup = true) :
    ∃ u, execAll (sendPackets ch n) t = .next u ∧
      u.lout = t.lout ++ ((List.range' k n).map (splitPacket mt s.contents)).flatMap (packetWrites ch) := by
  induction n generalizing k t with
  | zero => exact ⟨t, rfl, by simp⟩
  | succ n ih =>
    have hp := length_splitPacket_payload mt s.contents k
    have hsnxt := exec_snxt_of_inSplit hlen ht (by omega) ch
    have hftx := exec_ftx_of_txfv (t := t.produced ch k (splitPacket mt s.contents k)) rfl hl
    rw [txWrites_produced ht.txf_wf ch hp] at hftx
    have hsent := (ht.produced ch (splitPacket mt s.contents k)).of_keepsSplit
      ((keepsSplit_linkWrites _ (packetWrites ch (splitPacket mt s.contents k))).answer .ok 64)
    obtain ⟨u, hrun, hlout⟩ := ih (by omega) hsent hl
    refine ⟨u, ?run, ?writes⟩
    case run =>
      rw [sendPackets, List.replicate_succ, List.flatten_cons, List.cons_append, execAll_of_exec hsnxt,
        List.cons_append, execAll_of_exec hftx]
      exact hrun
    case writes =>
      rw [hlout, List.range'_succ, List.map_cons, List.flatMap_cons, ← List.append_assoc]
      rfl

end

/-- Settles O42: the operations between leave the split to its SNXTs, so the next one produces the next packet; and
`SNXT; FTX` for every packet sends them all. -/
theorem splitRunAgreesWithSplit : Obligations.SplitRunAgreesWithSplit := by
  unfold Obligations.SplitRunAgreesWithSplit
  refine ⟨fun mt ch between s t hlen hwf hleaves hcount hrun => ?packet, fun mt ch s hlen hwf hl => ?link⟩
  case packet =>
    obtain ⟨v, hbefore, hlast⟩ := execAll_append_next hrun
    obtain ⟨b, hbeg, hbetween⟩ := execAll_cons_next hbefore
    have hv : s.InSplit mt (0 + between.countP isSnxt) v :=
      inSplit_execAll hlen hleaves (inSplit_sbeg hwf hbeg) ((Nat.zero_add _).trans_le hcount.le) hbetween
    rw [Nat.zero_add] at hv
    rw [execAll_of_exec (exec_snxt_of_inSplit hlen hv hcount ch)] at hlast
    cases next_inj hlast
    refine ⟨splitPacket mt s.contents (between.countP isSnxt), v.responses, ?listed, ?frame, ?answer⟩
    case listed => exact getElem?_split_contents mt hcount
    case frame => exact txFrame_produced hv.txf_wf ch (length_splitPacket_payload ..)
    case answer => rw [splitPacket_contents]; rfl
  case link =>
    have hbeg : s.InSplit mt 0 ((s.beginSplit mt).answer .ok ((s.beginSplit mt).sn.setWidth 32)) :=
      inSplit_sbeg hwf rfl
    obtain ⟨u, hrun, hlout⟩ := execAll_sendPackets hlen ch s.packets (Nat.zero_add _).le hbeg hl
    refine ⟨u, hrun, ?_⟩
    rwa [← List.range_eq_range', ← split_contents] at hlout

end Sys2Proof.Machine
end

section
/-! Reassembling the packets of a split (R151). Packet `k`, parsed again, carries bytes `61 * k` to `61 * k + 60` of the
contents zero-padded to whole chunks, so concatenating the parsed packets is cutting that padded string into chunks and
joining them again. -/

namespace Sys2Proof.Machine

/-- Padding a slice that the end of the string may cut short is slicing the padded string. -/
theorem pad_slice_min {n a w : Nat} (h : a + w ≤ n) (s : Bytes) :
    pad w (slice s a (min (a + w) s.length)) = slice (pad n s) a (a + w) := by
  have hle : (slice s a (min (a + w) s.length)).length ≤ w := by rw [length_slice]; omega
  refine ext_byteAt ?length fun i hi => ?byte
  case length => rw [length_pad_of_le hle, length_slice, length_pad]; omega
  case byte =>
    rw [length_pad_of_le hle] at hi
    have hwhole : byteAt (slice (pad n s) a (a + w)) i = byteAt s (a + i) := by
      rw [byteAt_slice, if_pos (by omega), byteAt_pad]
    rw [byteAt_pad, byteAt_slice, hwhole]
    split
    · rfl
    · rw [byteAt_of_length_le (by omega)]

/-- The first `k` chunks of width `w`, joined, are the first `w * k` bytes. -/
theorem flatMap_range_slice (w : Nat) (s : Bytes) (k : Nat) :
    (List.range k).flatMap (fun i => slice s (w * i) (w * i + w)) = s.take (w * k) := by
  induction k with
  | zero => simp
  | succ k ih =>
    have hlast : slice s (w * k) (w * k + w) = (s.drop (w * k)).take w := by rw [slice, Nat.add_sub_cancel_left]
    rw [List.range_succ, List.flatMap_append, ih, List.flatMap_singleton, hlast, ← List.take_add, Nat.mul_succ]

/-- The chunk of packet `k` as the receiver parses it (R122, R123): padding it is padding the contents. -/
theorem infoParse_splitPacket_chunk (mt : Byte) (c : Bytes) {n k : Nat} (h : k < n) :
    (infoParse (splitPacket mt c k).payload).2.2 = slice (pad (61 * n) c) (61 * k) (61 * k + 61) := by
  have hfit : 61 * k + 61 ≤ 61 * n := by omega
  rw [InfoPacket.payload, infoParse_pad_infoPayload _ _ (length_splitPacket_chunk_le mt c k)]
  exact pad_slice_min hfit c

/-- R151: the reassembled stream is the contents, padded to whole chunks. -/
theorem concat_infoParse_split (mt : Byte) (c : Bytes) :
    concat ((split mt c).map (fun p => infoParse p.payload)) = pad (61 * ceilDiv c.length 61) c := by
  have hchunks := le_ceilDiv_mul c.length
  generalize hn : ceilDiv c.length 61 = n at hchunks
  have hlen : (pad (61 * n) c).length = 61 * n := length_pad_of_le (by omega)
  calc concat ((split mt c).map (fun p => infoParse p.payload))
      = (List.range n).flatMap (fun k => (infoParse (splitPacket mt c k).payload).2.2) := by
        rw [concat, split, hn, List.map_map, List.flatMap_map]
        rfl
    _ = (List.range n).flatMap (fun k => slice (pad (61 * n) c) (61 * k) (61 * k + 61)) :=
        List.flatMap_congr fun k hk => infoParse_splitPacket_chunk mt c (List.mem_range.1 hk)
    _ = pad (61 * n) c := by rw [flatMap_range_slice, List.take_of_length_le hlen.le]

/-- Whole chunks leave less than one chunk of padding. -/
theorem mul_ceilDiv_sub_le (a : Nat) : 61 * ceilDiv a 61 - a ≤ 60 := by
  unfold ceilDiv
  omega

/-- Settles O50: the stream is the padded contents, of which the other clauses are read off. -/
theorem reassembleSplitRoundTrip : Obligations.ReassembleSplitRoundTrip := by
  unfold Obligations.ReassembleSplitRoundTrip
  intro mt c _
  have hchunks := le_ceilDiv_mul c.length
  rw [concat_infoParse_split]
  refine ⟨rfl, ?length, mul_ceilDiv_sub_le c.length, ?contents⟩
  case length => exact length_pad_of_le (by omega)
  case contents => rw [pad, List.take_left]

end Sys2Proof.Machine
end

section
/-! Decoder and encoder are inverse to each other (R81 to R84). A command word is the encoding of its own fields: under
the mask of its row it is the bare opcode, and outside the mask it is the operand fields. -/

namespace Sys2Proof

/-! ### The decoder after the encoder -/

/-- The operations that ignore the data word of their command (R80). -/
def ignoresData : Instr → Bool
  | .csrw _ _ | .stb _ _ _ => false
  | .nop | .csrr _ | .ldb _ _ | .srst | .fenc _ | .ftx | .fdec | .henc _ _ | .hdec | .ienc _ _ | .idec | .sbeg _
  | .snxt _ | .rbeg | .rpsh => true

/-- An operation is decoded from its command word, whatever the data word if the operation ignores it. -/
theorem decode_encode (i : Instr) {w : Word} (hw : ignoresData i = true ∨ w = (encode i).2) :
    decode (encode i).1 w = .ok i := by
  cases i with
  | nop | srst | ftx | fdec | hdec | idec | rbeg | rpsh => rfl
  | csrr csr => simpa [decode, encode, packN] using checked_of_match (mask_packR 0x01 csr) (.csrr csr)
  | csrw csr value =>
    obtain rfl : w = value := hw.resolve_left Bool.false_ne_true
    simpa [decode, encode, packN] using checked_of_match (mask_packR 0x02 csr) (.csrw csr w)
  | ldb sp addr => simpa [decode, encode, packN] using checked_of_match (mask_packL 0x03 sp addr) (.ldb sp addr)
  | stb sp addr wdata =>
    obtain rfl : w = wdata := hw.resolve_left Bool.false_ne_true
    simpa [decode, encode, packN] using checked_of_match (mask_packL 0x04 sp addr) (.stb sp addr w)
  | fenc ch => simpa [decode, encode, packN] using checked_of_match (mask_packC 0x10 ch) (.fenc ch)
  | henc ch mt => simpa [decode, encode, packN] using checked_of_match (mask_packCM 0x20 ch mt) (.henc ch mt)
  | ienc ch mt => simpa [decode, encode, packN] using checked_of_match (mask_packCM 0x22 ch mt) (.ienc ch mt)
  | sbeg mt => simpa [decode, encode, packN] using checked_of_match (mask_packM 0x30 mt) (.sbeg mt)
  | snxt ch => simpa [decode, encode, packN] using checked_of_match (mask_packC 0x31 ch) (.snxt ch)

/-- Settles O1. -/
theorem decodeEncodeAgree : Obligations.DecodeEncodeAgree := fun i => decode_encode i (.inr rfl)

/-- Settles O5: each word is the encoding of the operation it stands for. -/
theorem specWordsDecode : Obligations.SpecWordsDecode :=
  ⟨decodeEncodeAgree .nop, decodeEncodeAgree (.csrr 0x18), decodeEncodeAgree (.csrw 0x04 0x04030201),
    decodeEncodeAgree (.ldb .rsb 60), decodeEncodeAgree (.stb .lin 0 0x23), decodeEncodeAgree (.fenc 5),
    decodeEncodeAgree (.henc 3 5), decodeEncodeAgree (.ienc 1 2), decodeEncodeAgree (.sbeg 9),
    decodeEncodeAgree (.snxt 2), decodeEncodeAgree .rpsh⟩

/-! ### The encoder after the decoder -/

theorem eq_of_and_eq {v w mask : Word} (hin : v &&& mask = w &&& mask) (hout : v &&& ~~~mask = w &&& ~~~mask) :
    v = w := by
  have hsplit (x : Word) : x &&& mask ||| x &&& ~~~mask = x := by
    rw [← BitVec.and_or_distrib_left, BitVec.or_not_self, BitVec.and_allOnes]
  rw [← hsplit v, hin, hout, hsplit]

theorem operands_packR (op : BitVec 8) (cmd : Word) :
    packR op (fieldCsr cmd) &&& ~~~0xFF00FFFF = cmd &&& ~~~0xFF00FFFF := by
  refine BitVec.eq_of_getLsbD_eq fun i hi => ?_
  simp only [packR, fieldCsr, BitVec.getLsbD_append, BitVec.getLsbD_and, BitVec.getLsbD_extractLsb']
  interval_cases i <;> simp

theorem spaceBits_spaceOf (sp : BitVec 2) : spaceBits (spaceOf sp) = sp := by
  revert sp
  decide

theorem operands_packL (op : BitVec 8) (cmd : Word) :
    packL op (fieldSp cmd) (fieldAddr cmd) &&& ~~~0xFF000000 = cmd &&& ~~~0xFF000000 := by
  refine BitVec.eq_of_getLsbD_eq fun i hi => ?_
  simp only [packL, fieldSp, spaceBits_spaceOf, fieldAddr, BitVec.getLsbD_append, BitVec.getLsbD_and,
    BitVec.getLsbD_extractLsb']
  interval_cases i <;> simp

theorem operands_packCM (op : BitVec 8) (cmd : Word) :
    packCM op (fieldCh cmd) (fieldMt cmd) &&& ~~~0xFF0FFF00 = cmd &&& ~~~0xFF0FFF00 := by
  refine BitVec.eq_of_getLsbD_eq fun i hi => ?_
  simp only [packCM, fieldCh, fieldMt, BitVec.getLsbD_append, BitVec.getLsbD_and, BitVec.getLsbD_extractLsb']
  interval_cases i <;> simp

theorem operands_packC (op : BitVec 8) (cmd : Word) :
    packCM op (fieldCh cmd) 0 &&& ~~~0xFF0FFFFF = cmd &&& ~~~0xFF0FFFFF := by
  refine BitVec.eq_of_getLsbD_eq fun i hi => ?_
  simp only [packCM, fieldCh, BitVec.getLsbD_append, BitVec.getLsbD_and, BitVec.getLsbD_extractLsb']
  interval_cases i <;> simp

theorem operands_packM (op : BitVec 8) (cmd : Word) :
    packCM op 0 (fieldMt cmd) &&& ~~~0xFFFFFF00 = cmd &&& ~~~0xFFFFFF00 := by
  refine BitVec.eq_of_getLsbD_eq fun i hi => ?_
  simp only [packCM, fieldMt, BitVec.getLsbD_append, BitVec.getLsbD_and, BitVec.getLsbD_extractLsb']
  interval_cases i <;> simp

theorem match_of_checked_ok {cmd mask pattern : Word} {i j : Instr} (h : checked cmd mask pattern i = .ok j) :
    cmd &&& mask = pattern ∧ i = j := by
  by_cases hmatch : cmd &&& mask = pattern
  · rw [checked_of_match hmatch] at h
    exact ⟨hmatch, Decoded.ok.inj h⟩
  · rw [checked_of_mismatch hmatch] at h
    cases h

/-- A word that matches a row is the word packed from its own operand fields. -/
theorem packed_of_match {cmd mask pattern packed : Word} (hmatch : cmd &&& mask = pattern)
    (hmask : packed &&& mask = pattern) (hops : packed &&& ~~~mask = cmd &&& ~~~mask) : packed = cmd :=
  eq_of_and_eq (hmask.trans hmatch.symm) hops

/-- A command that decodes is the encoding of its operation, the data word included where the operation takes it. -/
theorem encode_of_decode {cmd wdata : Word} {i : Instr} (h : decode cmd wdata = .ok i) :
    (encode i).1 = cmd ∧ (ignoresData i = false → (encode i).2 = wdata) := by
  unfold decode at h
  split at h
  case h_18 => cases h
  all_goals obtain ⟨hmatch, rfl⟩ := match_of_checked_ok h
  case h_2 => exact ⟨packed_of_match hmatch (mask_packR ..) (operands_packR ..), fun h => nomatch h⟩
  case h_3 => exact ⟨packed_of_match hmatch (mask_packR ..) (operands_packR ..), fun _ => rfl⟩
  case h_4 => exact ⟨packed_of_match hmatch (mask_packL ..) (operands_packL ..), fun h => nomatch h⟩
  case h_5 => exact ⟨packed_of_match hmatch (mask_packL ..) (operands_packL ..), fun _ => rfl⟩
  case h_7 => exact ⟨packed_of_match hmatch (mask_packC ..) (operands_packC ..), fun h => nomatch h⟩
  case h_10 => exact ⟨packed_of_match hmatch (mask_packCM ..) (operands_packCM ..), fun h => nomatch h⟩
  case h_12 => exact ⟨packed_of_match hmatch (mask_packCM ..) (operands_packCM ..), fun h => nomatch h⟩
  case h_14 => exact ⟨packed_of_match hmatch (mask_packM ..) (operands_packM ..), fun h => nomatch h⟩
  case h_15 => exact ⟨packed_of_match hmatch (mask_packC ..) (operands_packC ..), fun h => nomatch h⟩
  all_goals exact ⟨((BitVec.and_allOnes (x := cmd)).symm.trans hmatch).symm, fun h => nomatch h⟩

/-- Settles O2: the other data words decode alike, because the command word is the operation's own. -/
theorem encodeDecodeAgree : Obligations.EncodeDecodeAgree := by
  unfold Obligations.EncodeDecodeAgree
  intro cmd wdata i hdec
  obtain ⟨hcmd, hdata⟩ := encode_of_decode hdec
  refine ⟨hcmd, ?_⟩
  cases hi : ignoresData i with
  | false => exact .inl (hdata hi)
  | true => exact .inr fun w => hcmd ▸ decode_encode i (.inl hi)

/-- Settles O3: the decoder accepts what passes its checks, and two rows with one opcode are one row. -/
theorem decodableWordsAreTheRows : Obligations.DecodableWordsAreTheRows := by
  unfold Obligations.DecodableWordsAreTheRows
  refine ⟨fun cmd wdata => ⟨fun ⟨i, hdec⟩ => ?row, fun hmatch => decode_of_match hmatch wdata⟩,
    fun cmd r hr q hq hrmatch hqmatch => ?unique⟩
  case row =>
    obtain ⟨row, j, hrow, hmem, _⟩ | ⟨hbad, _⟩ := decode_cases cmd wdata
    · exact ⟨row, hmem, (match_of_checked_ok (hrow.symm.trans hdec)).1⟩
    · cases hbad.symm.trans hdec
  case unique =>
    have hop : fieldOp r.2 = fieldOp q.2 :=
      (fieldOp_eq_of_match hr hrmatch).symm.trans (fieldOp_eq_of_match hq hqmatch)
    exact List.inj_on_of_nodup_map nodup_opcodes hr hq hop

end Sys2Proof
end

section
/-! What an operation that answers can do, whatever the operation: one inversion lemma for `exec`, from which the
statements about every operation are read off case by case. -/

namespace Sys2Proof.Machine

/-- What RPSH makes of a counted read before the end tests of R154: the read is discarded, or its frame is taken, or
taken and appended. -/
inductive Pushed (s : State) : State → Prop
  | discarded (f : Flag) : Pushed s (s.countRead.setFlag f)
  | taken : Pushed s s.taken
  | appended (hfit : s.rslen.toNat + s.kept ≤ Config.bufcap) : Pushed s (s.taken.append s.readPayload)

/-- The errors that are reported with their flag and change nothing else (R180, R181). -/
def plainErrors : List (Code × Flag) :=
  [(.frameTooShort, .fts), (.payloadTooLarge, .ptl), (.linkUnavailable, .lna), (.badMarker, .bmk)]

/-- The operations that encode a payload given by SRC into TXF (R105, R125, R127). -/
def encodesPayload : Instr → Bool
  | .fenc _ | .henc _ _ | .ienc _ _ => true
  | .nop | .csrr _ | .csrw _ _ | .ldb _ _ | .stb _ _ _ | .srst | .ftx | .fdec | .hdec | .idec | .sbeg _ | .snxt _
  | .rbeg | .rpsh => false

/-- `Effect s i u c d`: performing `i` at `s` may answer `c` and `d`, leaving `u` but for that response. -/
inductive Effect (s : State) : Instr → State → Code → Word → Prop
  | refused {i : Instr} {c : Code} (hc : c.isRefusal = true) : Effect s i (s.setFlag .ill) c 0
  | reported {i : Instr} {c : Code} {f : Flag} (d : Word) (hcf : (c, f) ∈ plainErrors) : Effect s i (s.setFlag f) c d
  | unchanged {i : Instr} (d : Word) : Effect s i s .ok d
  | cleared (v : Word) : Effect s (.csrw 0x01 v) (s.clearFlags v) .ok (s.clearFlags v).status
  | written (csr : BitVec 8) {r : Reg} {v : Word} (hr : r.access = .rw) (hv : r.legal v) :
      Effect s (.csrw csr v) (s.writeReg r v) .ok v
  | stored {sp : Space} {addr : BitVec 22} (w : Word) (hsp : hostWritable sp = true) (ha : addr.toNat < spaceSize sp) :
      Effect s (.stb sp addr w) (s.hostStore sp addr.toNat (w.extractLsb' 0 8)) .ok w
  | blockReset : Effect s .srst s.resetBlock .ok 0
  | encoded {i : Instr} (ch : BitVec 4) {raw : Bytes} (d : Word) (hi : encodesPayload i = true)
      (hraw : raw.length = 64) : Effect s i (s.loadTx ch raw) .ok d
  | transmitted : Effect s .ftx (s.linkWrites (txWrites s.txFrameRecord)) .ok 64
  | frameTaken : Effect s .fdec (s.acceptFrame s.deframed) .ok 64
  | headerParsed (d : Word) : Effect s .hdec (s.takeHeader s.rxFrame) .ok d
  | infoParsed (d : Word) : Effect s .idec (s.takeInfo s.rxFrame) .ok d
  | splitBegun (mt : Byte) (d : Word) : Effect s (.sbeg mt) (s.beginSplit mt) .ok d
  | packetProduced (ch : BitVec 4) {chunk : Bytes} (d : Word) (hactive : s.sk.toNat < s.sn.toNat)
      (hchunk : chunk.length ≤ 61) : Effect s (.snxt ch) (s.produce ch chunk) .ok d
  | transferBegun : Effect s .rbeg s.beginTransfer .ok 0
  | transferStopped {u : State} {e : Cause} (d : Word) (hp : s.phase = .active) (hl : s.linkup = true)
      (hu : Pushed s u) (he : e ≠ .none) (hterminal : e = .terminal → u.rlast = 0 ∧ 1 ≤ u.rpkts.toNat) :
      Effect s .rpsh (u.endTransfer e) .ok d
  | transferCapped {u : State} {e : Cause} (d : Word) (hp : s.phase = .active) (hl : s.linkup = true)
      (hu : Pushed s u) (he : e = .readCap ∨ e = .lenCap) :
      Effect s .rpsh ((u.endTransfer e).setFlag .ict) .incompleteTransfer d
  | transferContinued {u : State} (d : Word) (hp : s.phase = .active) (hu : Pushed s u) : Effect s .rpsh u .ok d

section
variable {s t : State}

/-- The counter of appended packets is at least 1 after one was appended, saturated or not (R45). -/
theorem one_le_rpkts_append (s : State) (p : Bytes) : 1 ≤ (s.append p).rpkts.toNat := one_le_satSucc s.rpkts

/-- RPSH's effects are the rows of R152's table. -/
theorem execRpsh_effect (h : execRpsh s = .next t) : ∃ u c d, Effect s .rpsh u c d ∧ t = u.answer c d := by
  obtain ⟨_, rfl⟩ | ⟨_, _, rfl⟩ | ⟨hp, hl, _, hread⟩ := execRpsh_outcomes h
  · exact ⟨_, _, _, .refused rfl, rfl⟩
  · exact ⟨_, _, _, .reported 0 (by decide), rfl⟩
  · obtain ⟨_, rfl⟩ | ⟨_, _, rfl⟩ | ⟨_, _, rfl⟩ | ⟨_, _, rfl⟩ | ⟨_, _, hfit, hpacket⟩ := hread
    · exact ⟨_, _, _, .transferStopped (e := .short) _ hp hl (.discarded .fts) (by decide) nofun, rfl⟩
    · exact ⟨_, _, _, .transferCapped _ hp hl (.discarded .bmk) (.inl rfl), rfl⟩
    · exact ⟨_, _, _, .transferContinued _ hp (.discarded .bmk), rfl⟩
    · exact ⟨_, _, _, .transferStopped (e := .sentinel) _ hp hl .taken (by decide) nofun, rfl⟩
    · obtain ⟨hlast, rfl⟩ | ⟨_, _, rfl⟩ | ⟨_, _, _, rfl⟩ | ⟨_, _, _, rfl⟩ := hpacket
      · exact ⟨_, _, _, .transferStopped _ hp hl (.appended hfit) (by decide)
          fun _ => ⟨hlast, one_le_rpkts_append ..⟩, rfl⟩
      · exact ⟨_, _, _, .transferCapped _ hp hl (.appended hfit) (.inr rfl), rfl⟩
      · exact ⟨_, _, _, .transferCapped _ hp hl (.appended hfit) (.inl rfl), rfl⟩
      · exact ⟨_, _, _, .transferContinued _ hp (.appended hfit), rfl⟩

theorem execFdec_effect (h : execFdec s = .next t) : ∃ u c d, Effect s .fdec u c d ∧ t = u.answer c d := by
  obtain ⟨_, rfl⟩ | ⟨_, _, ⟨_, rfl⟩ | ⟨_, rfl⟩ | ⟨_, rfl⟩⟩ := execFdec_cases h
  · exact ⟨_, _, _, .reported 0 (by decide), rfl⟩
  · exact ⟨_, _, _, .reported _ (by decide), rfl⟩
  · exact ⟨_, _, _, .reported _ (by decide), rfl⟩
  · exact ⟨_, _, _, .frameTaken, rfl⟩

/-- The chunk SNXT cuts from SRC (R143). -/
def State.sliced (s : State) : Bytes := s.src.span s.sliceLo (s.sliceHi - s.sliceLo)

theorem length_sliced_le (s : State) : s.sliced.length ≤ 61 := by
  rw [State.sliced, Memory.length_span, State.sliceLo, State.sliceHi]
  omega

/-- Whatever the operation, if it answers, it has one of the effects listed. -/
theorem exec_effect {i : Instr} (h : exec i s = .next t) : ∃ u c d, Effect s i u c d ∧ t = u.answer c d := by
  cases i with
  | nop => exact ⟨_, _, _, .unchanged 0, next_inj h⟩
  | srst => exact ⟨_, _, _, .blockReset, next_inj h⟩
  | sbeg mt => exact ⟨_, _, _, .splitBegun mt _, next_inj h⟩
  | rbeg => exact ⟨_, _, _, .transferBegun, next_inj h⟩
  | csrr =>
    obtain rfl | ⟨_, _, rfl⟩ := execCsrr_cases h
    · exact ⟨_, _, _, .refused rfl, rfl⟩
    · exact ⟨_, _, _, .unchanged _, rfl⟩
  | csrw =>
    obtain ⟨c, hc, rfl⟩ | ⟨rfl, rfl⟩ | ⟨r, hr, hv, rfl⟩ := execCsrw_cases h
    · exact ⟨_, _, _, .refused hc, rfl⟩
    · exact ⟨_, _, _, .cleared _, rfl⟩
    · exact ⟨_, _, _, .written _ hr hv, rfl⟩
  | ldb =>
    obtain rfl | rfl := execLdb_cases h
    · exact ⟨_, _, _, .refused rfl, rfl⟩
    · exact ⟨_, _, _, .unchanged _, rfl⟩
  | stb =>
    obtain ⟨c, hc, rfl⟩ | ⟨hsp, ha, rfl⟩ := execStb_cases h
    · exact ⟨_, _, _, .refused hc, rfl⟩
    · exact ⟨_, _, _, .stored _ hsp ha, rfl⟩
  | fenc ch =>
    obtain ⟨_, ⟨hlen, rfl⟩ | ⟨_, rfl⟩⟩ := execFenc_cases h
    · exact ⟨_, _, _, .encoded ch _ rfl (length_pad_of_le hlen), rfl⟩
    · exact ⟨_, _, _, .reported _ (by decide), rfl⟩
  | henc ch =>
    obtain ⟨_, ⟨hlen, rfl⟩ | ⟨_, rfl⟩⟩ := execHenc_cases h
    · exact ⟨_, _, _, .encoded ch _ rfl (length_pad_of_le hlen), rfl⟩
    · exact ⟨_, _, _, .reported _ (by decide), rfl⟩
  | ienc ch =>
    obtain ⟨_, ⟨hlen, rfl⟩ | ⟨_, rfl⟩⟩ := execIenc_cases h
    · exact ⟨_, _, _, .encoded ch _ rfl (length_pad_of_le hlen), rfl⟩
    · exact ⟨_, _, _, .reported _ (by decide), rfl⟩
  | ftx =>
    obtain ⟨_, rfl⟩ | ⟨_, rfl⟩ | ⟨_, _, rfl⟩ := execFtx_cases h
    · exact ⟨_, _, _, .refused rfl, rfl⟩
    · exact ⟨_, _, _, .reported 0 (by decide), rfl⟩
    · exact ⟨_, _, _, .transmitted, rfl⟩
  | fdec => exact execFdec_effect h
  | hdec =>
    obtain ⟨_, rfl⟩ | ⟨_, rfl⟩ := execHdec_cases h
    · exact ⟨_, _, _, .refused rfl, rfl⟩
    · exact ⟨_, _, _, .headerParsed _, rfl⟩
  | idec =>
    obtain ⟨_, rfl⟩ | ⟨_, rfl⟩ := execIdec_cases h
    · exact ⟨_, _, _, .refused rfl, rfl⟩
    · exact ⟨_, _, _, .infoParsed _, rfl⟩
  | snxt ch =>
    obtain ⟨_, rfl⟩ | ⟨hactive, rfl⟩ := execSnxt_cases h
    · exact ⟨_, _, _, .refused rfl, rfl⟩
    · exact ⟨_, _, _, .packetProduced ch _ hactive (length_sliced_le s), rfl⟩
  | rpsh => exact execRpsh_effect h

/-- A frame taken by RPSH, field by field (R154). -/
theorem taken_eq (s : State) :
    s.taken = { s with rreads := satSucc s.rreads, rxf := s.rxf.storeSpan 0 s.readPayload, rxfv := true,
                       sticky := s.stickyAfterRead, rplen := s.rplenAfterRead, rrssi := s.rrssiAfterRead } :=
  acceptFrame_deframed s s.countRead rfl rfl rfl

theorem append_frame (s : State) (p : Bytes) :
    s.append p = { s with rcd := (s.append p).rcd, rmt := (s.append p).rmt, rlast := (s.append p).rlast,
                          rpkts := (s.append p).rpkts, rsb := (s.append p).rsb, rslen := (s.append p).rslen } := rfl

/-- What a counted read leaves unchanged: SRC, LIN, TXF, LOUT, the split, the host's registers, phase and cause. -/
theorem Pushed.frame {u : State} (hu : Pushed s u) :
    u = { s with sticky := u.sticky, rxf := u.rxf, rxfv := u.rxfv, rplen := u.rplen, rrssi := u.rrssi,
                 rreads := satSucc s.rreads, rcd := u.rcd, rmt := u.rmt, rlast := u.rlast, rpkts := u.rpkts,
                 rsb := u.rsb, rslen := u.rslen } := by
  cases hu with
  | discarded f => rfl
  | taken => rw [taken_eq]
  | appended => rw [taken_eq, append_frame]

/-- What a step can do: rest, reset, or take a command off the port and refuse it or perform its operation. -/
theorem step_cases (h : step s = .next t) :
    t = s ∨ (∃ rest, t = s.takeReset rest) ∨
      ∃ up rest i u c d, Effect (s.takeCommand up rest) i u c d ∧ t = u.answer c d := by
  unfold step at h
  split at h
  · exact .inl (next_inj h)
  · exact .inr (.inl ⟨_, next_inj h⟩)
  · rename_i up cmd wdata rest _
    split at h
    · rename_i e _
      have hc := isRefusal_refusalCode e
      exact .inr (.inr ⟨up, rest, .nop, _, _, _, .refused hc, refuse_inj hc h⟩)
    · exact .inr (.inr ⟨up, rest, _, exec_effect h⟩)

/-- A property of the state is kept by every step if the resets establish it, the port and the responses do not touch it
and every effect keeps it. -/
theorem step_keeps {P : State → Prop} (hreset : ∀ s : State, P s.resetBlock)
    (hport : ∀ (s : State) (up : Bool) (rest : List Input), P s → P (s.takeCommand up rest))
    (hanswer : ∀ (s : State) (c : Code) (d : Word), P s → P (s.answer c d))
    (heffect : ∀ {s u : State} {i : Instr} {c : Code} {d : Word}, P s → Effect s i u c d → P u)
    (hs : P s) (h : step s = .next t) : P t := by
  obtain rfl | ⟨rest, rfl⟩ | ⟨up, rest, i, u, c, d, he, rfl⟩ := step_cases h
  · exact hs
  · exact hreset _
  · exact hanswer _ _ _ (heffect (hport s up rest hs) he)

end

end Sys2Proof.Machine
end

section
/-! The invariants of R56 and the form of the memories, kept by every step: for each part, what it reads of the state and
the few effects that write it. -/

namespace Sys2Proof.Machine

section
variable {s t u : State} {i : Instr} {c : Code} {d : Word}

/-! ### R56 (1): the split -/

/-- The registers R56 (1) speaks of. -/
def State.splitRegs (s : State) : BitVec 17 × BitVec 17 × BitVec 22 := (s.sk, s.sn, s.slen)

theorem SplitInv.congr (hs : SplitInv s) (h : t.splitRegs = s.splitRegs) : SplitInv t := by
  obtain ⟨hsk, hsn, hslen⟩ : t.sk = s.sk ∧ t.sn = s.sn ∧ t.slen = s.slen := by simpa [State.splitRegs] using h
  exact ⟨by rw [hsk, hsn]; exact hs.sk_le_sn, by rw [hsn]; exact hs.sn_le, by rw [hsn, hslen]; exact hs.sn_eq⟩

theorem SplitInv.reset : SplitInv State.reset := ⟨by decide, by decide, by decide⟩

theorem toNat_sn_beginSplit (h : s.srclen.toNat ≤ Config.bufcap) (mt : Byte) :
    (s.beginSplit mt).sn.toNat = s.packets := by
  have := packets_le h
  exact (BitVec.toNat_ofNat _ _).trans (Nat.mod_eq_of_lt (by unfold State.packets at this; omega))

theorem SplitInv.beginSplit (h : s.srclen.toNat ≤ Config.bufcap) (mt : Byte) : SplitInv (s.beginSplit mt) := by
  have hsn := toNat_sn_beginSplit h mt
  exact ⟨Nat.zero_le _, hsn.trans_le (packets_le h), hsn⟩

theorem toNat_sk_produce (hs : SplitInv s) (hactive : s.sk.toNat < s.sn.toNat) (ch : BitVec 4) (chunk : Bytes) :
    (s.produce ch chunk).sk.toNat = s.sk.toNat + 1 := by
  have := hs.sn_le
  exact (BitVec.toNat_ofNat _ _).trans (Nat.mod_eq_of_lt (by omega))

theorem SplitInv.produce (hs : SplitInv s) (hactive : s.sk.toNat < s.sn.toNat) (ch : BitVec 4) (chunk : Bytes) :
    SplitInv (s.produce ch chunk) :=
  ⟨(toNat_sk_produce hs hactive ch chunk).trans_le hactive, hs.sn_le, hs.sn_eq⟩

theorem SplitInv.of_effect (hs : SplitInv s) (hr : RangeInv s) (he : Effect s i u c d) : SplitInv u := by
  cases he with
  | blockReset => exact SplitInv.reset.congr rfl
  | splitBegun mt => exact .beginSplit hr.srclen_le mt
  | packetProduced ch d hactive => exact hs.produce hactive ch _
  | transferStopped _ _ _ hu | transferCapped _ _ _ hu | transferContinued _ _ hu =>
    exact hs.congr (congrArg State.splitRegs hu.frame :)
  | _ => exact hs.congr (by simp [State.splitRegs])

/-! ### R56 (2) to (5): the tracker -/

/-- The registers R56 (2) to (5) speaks of. -/
def State.trackerRegs (s : State) : (BitVec 22 × BitVec 32 × BitVec 32 × BitVec 16) × Phase × Cause :=
  ((s.rslen, s.rpkts, s.rreads, s.rlast), s.phase, s.cause)

theorem TrackerInv.congr (hs : TrackerInv s) (h : t.trackerRegs = s.trackerRegs) : TrackerInv t := by
  obtain ⟨⟨hrslen, hrpkts, hrreads, hrlast⟩, hphase, hcause⟩ :
      (t.rslen = s.rslen ∧ t.rpkts = s.rpkts ∧ t.rreads = s.rreads ∧ t.rlast = s.rlast) ∧
        t.phase = s.phase ∧ t.cause = s.cause := by simpa [State.trackerRegs] using h
  exact ⟨by rw [hrslen]; exact hs.rslen_le, by rw [hrslen, hrpkts]; exact hs.rslen_packets,
    by rw [hrpkts, hrreads]; exact hs.packets_reads, by rw [hcause, hphase]; exact hs.cause_phase,
    by rw [hcause, hrlast, hrpkts]; exact hs.terminal⟩

theorem TrackerInv.reset : TrackerInv State.reset :=
  ⟨Nat.zero_le _, fun _ => Nat.zero_le _, Nat.zero_le _, by decide, nofun⟩

/-- R56 (2) to (4), what the counters say of each other whatever the phase. -/
structure CountInv (s : State) : Prop where
  rslen_le : s.rslen.toNat ≤ Config.bufcap
  rslen_packets : s.rpkts.toNat < 4294967295 → s.rslen.toNat ≤ 61 * s.rpkts.toNat
  packets_reads : s.rpkts.toNat ≤ s.rreads.toNat

theorem TrackerInv.counts (hs : TrackerInv s) : CountInv s := ⟨hs.rslen_le, hs.rslen_packets, hs.packets_reads⟩

/-- An append grows RSLEN by the bytes kept, which 22 bits hold. -/
theorem toNat_rslen_append (h : s.rslen.toNat + s.kept ≤ Config.bufcap) (p : Bytes) :
    (s.append p).rslen.toNat = s.rslen.toNat + s.kept := by
  have := bufcap_le
  exact (BitVec.toNat_ofNat _ _).trans (Nat.mod_eq_of_lt (by omega))

theorem kept_le_chunk (s : State) : s.kept ≤ 61 := Nat.min_le_left ..

@[simp] theorem kept_taken (s : State) : s.taken.kept = s.kept := by simp [State.kept, State.room, State.taken]

@[simp] theorem rslen_taken (s : State) : s.taken.rslen = s.rslen := by simp [State.taken]

theorem toNat_rslen_append_taken (h : s.rslen.toNat + s.kept ≤ Config.bufcap) (p : Bytes) :
    (s.taken.append p).rslen.toNat = s.rslen.toNat + s.kept := by
  rw [toNat_rslen_append (by simpa using h), rslen_taken, kept_taken]

/-- A counted read keeps RREADS at least RPKTS, and an append of at most 61 bytes keeps RSLEN at most 61 times RPKTS. -/
theorem CountInv.pushed (hs : CountInv s) (hu : Pushed s u) : CountInv u := by
  have hreads : u.rreads = satSucc s.rreads := congrArg State.rreads hu.frame
  have hcounted := hs.packets_reads.trans (le_satSucc s.rreads)
  cases hu with
  | discarded f => exact ⟨hs.rslen_le, hs.rslen_packets, hcounted⟩
  | taken =>
    have hrpkts : s.taken.rpkts = s.rpkts := by simp [State.taken]
    exact ⟨by rw [rslen_taken]; exact hs.rslen_le, by rw [rslen_taken, hrpkts]; exact hs.rslen_packets,
      by rw [hrpkts, hreads]; exact hcounted⟩
  | appended hfit =>
    have hrslen := toNat_rslen_append_taken hfit s.readPayload
    have hrpkts : (s.taken.append s.readPayload).rpkts = satSucc s.rpkts := by simp [State.taken]
    refine ⟨hrslen.trans_le hfit, fun hlt => ?_, by rw [hrpkts, hreads]; exact satSucc_le_satSucc hs.packets_reads⟩
    rw [hrpkts] at hlt ⊢
    have hcount := satSucc_of_lt hlt
    have hbefore := hs.rslen_packets (by omega)
    have hkept := kept_le_chunk s
    omega

theorem TrackerInv.of_effect (hs : TrackerInv s) (he : Effect s i u c d) : TrackerInv u := by
  cases he with
  | blockReset => exact TrackerInv.reset.congr rfl
  | transferBegun =>
    exact ⟨Nat.zero_le _, fun _ => Nat.zero_le _, Nat.zero_le _, by simp, nofun⟩
  | transferStopped _ _ _ hu he hterminal =>
    obtain ⟨hle, hpackets, hreads⟩ := hs.counts.pushed hu
    exact ⟨hle, hpackets, hreads, by simp [he], hterminal⟩
  | transferCapped _ _ _ hu he =>
    obtain ⟨hle, hpackets, hreads⟩ := hs.counts.pushed hu
    obtain rfl | rfl := he
    · exact ⟨hle, hpackets, hreads, by simp, nofun⟩
    · exact ⟨hle, hpackets, hreads, by simp, nofun⟩
  | transferContinued _ hp hu =>
    obtain ⟨hle, hpackets, hreads⟩ := hs.counts.pushed hu
    have hphase : u.phase = .active := (congrArg State.phase hu.frame).trans hp
    have hcause : u.cause = .none := (congrArg State.cause hu.frame).trans (hs.cause_phase.2 (.inr hp))
    exact ⟨hle, hpackets, hreads, by simp [hphase, hcause], by simp [hcause]⟩
  | _ => exact hs.congr (by simp [State.trackerRegs])

/-! ### R56 (6): the writes handed to the link -/

theorem TraceInv.congr (hs : TraceInv s) (h : t.lout = s.lout) : TraceInv t :=
  ⟨h ▸ hs.whole, h ▸ hs.first, h ▸ hs.second, h ▸ hs.third⟩

theorem TraceInv.nil (h : s.lout = []) : TraceInv s :=
  ⟨by simp [h], by simp [h], by simp [h], by simp [h]⟩

/-- A whole transmit after whole transmits: index `3 * j` is in the old part, or `j` is the new transmit. -/
theorem TraceInv.linkWrites (hs : TraceInv s) (ch : Byte) {w : Bytes} (hw : w.length = 64) :
    TraceInv (s.linkWrites [Config.txcmd, [ch, 0x40], w]) := by
  have hwhole := hs.whole
  have hlen : (s.linkWrites [Config.txcmd, [ch, 0x40], w]).lout.length = s.lout.length + 3 := by simp
  have hcases (j : Nat) (hj : 3 * j < (s.linkWrites [Config.txcmd, [ch, 0x40], w]).lout.length) :
      3 * j + 2 < s.lout.length ∨ 3 * j = s.lout.length := by omega
  refine ⟨by omega, fun j hj => ?first, fun j hj => ?second, fun j hj => ?third⟩
  case first =>
    obtain hold | hnew := hcases j hj
    · rw [State.linkWrites_lout, List.getElem?_append_left (by omega)]
      exact hs.first j (by omega)
    · rw [State.linkWrites_lout, hnew]
      simp
  case second =>
    obtain hold | hnew := hcases j hj
    · rw [State.linkWrites_lout, List.getElem?_append_left (by omega)]
      exact hs.second j (by omega)
    · rw [State.linkWrites_lout, hnew]
      exact ⟨ch, by simp⟩
  case third =>
    obtain hold | hnew := hcases j hj
    · rw [State.linkWrites_lout, List.getElem?_append_left (by omega)]
      exact hs.third j (by omega)
    · rw [State.linkWrites_lout, hnew]
      exact ⟨w, by simp, hw⟩

theorem TraceInv.of_effect (hs : TraceInv s) (he : Effect s i u c d) : TraceInv u := by
  cases he with
  | blockReset => exact .nil rfl
  | transmitted => exact hs.linkWrites _ (Memory.length_span ..)
  | transferStopped _ _ _ hu | transferCapped _ _ _ hu | transferContinued _ _ hu =>
    exact hs.congr (congrArg State.lout hu.frame :)
  | _ => exact hs.congr (by simp)

/-! ### R56 (8): the registers with a legal range -/

/-- The registers R56 (8) speaks of. -/
def State.rangeRegs (s : State) : BitVec 22 × BitVec 22 × BitVec 22 × BitVec 22 :=
  (s.srclen, s.linlen, s.slen, s.rlencap)

theorem RangeInv.congr (hs : RangeInv s) (h : t.rangeRegs = s.rangeRegs) : RangeInv t := by
  obtain ⟨hsrclen, hlinlen, hslen, hrlencap⟩ :
      t.srclen = s.srclen ∧ t.linlen = s.linlen ∧ t.slen = s.slen ∧ t.rlencap = s.rlencap := by
    simpa [State.rangeRegs] using h
  exact ⟨by rw [hsrclen]; exact hs.srclen_le, by rw [hlinlen]; exact hs.linlen_le, by rw [hslen]; exact hs.slen_le,
    by rw [hrlencap]; exact hs.rlencap_le⟩

theorem toNat_setWidth_le {v : Word} {n : Nat} (h : v.toNat ≤ n) (m : Nat) : (v.setWidth m).toNat ≤ n :=
  (BitVec.toNat_setWidth ..).trans_le ((Nat.mod_le ..).trans h)

/-- CSRW checks the legal range of the register it writes (R172). -/
theorem RangeInv.writeReg (hs : RangeInv s) {r : Reg} {v : Word} (hv : r.legal v) : RangeInv (s.writeReg r v) := by
  cases r with
  | srclen => exact ⟨toNat_setWidth_le hv 22, hs.linlen_le, hs.slen_le, hs.rlencap_le⟩
  | linlen => exact ⟨hs.srclen_le, toNat_setWidth_le hv 22, hs.slen_le, hs.rlencap_le⟩
  | rlencap => exact ⟨hs.srclen_le, hs.linlen_le, hs.slen_le, toNat_setWidth_le hv 22⟩
  | _ => exact hs.congr rfl

theorem RangeInv.resetBlock (s : State) : RangeInv s.resetBlock :=
  ⟨Nat.zero_le _, Nat.zero_le _, Nat.zero_le _, State.toNat_reset_rlencap.le⟩

theorem RangeInv.of_effect (hs : RangeInv s) (he : Effect s i u c d) : RangeInv u := by
  cases he with
  | blockReset => exact .resetBlock s
  | written csr _ hv => exact hs.writeReg hv
  | splitBegun => exact ⟨hs.srclen_le, hs.linlen_le, hs.srclen_le, hs.rlencap_le⟩
  | transferStopped _ _ _ hu | transferCapped _ _ _ hu | transferContinued _ _ hu =>
    exact hs.congr (congrArg State.rangeRegs hu.frame :)
  | _ => exact hs.congr (by simp [State.rangeRegs])

/-! ### All of R56 -/

theorem Inv.of_effect (hs : Inv s) (he : Effect s i u c d) : Inv u :=
  ⟨hs.split.of_effect hs.range he, hs.tracker.of_effect he, hs.trace.of_effect he, hs.range.of_effect he⟩

theorem Inv.resetBlock (s : State) : Inv s.resetBlock :=
  ⟨SplitInv.reset.congr rfl, TrackerInv.reset.congr rfl, .nil rfl, .resetBlock s⟩

theorem Inv.takeCommand (hs : Inv s) (up : Bool) (rest : List Input) : Inv (s.takeCommand up rest) :=
  ⟨hs.split.congr rfl, hs.tracker.congr rfl, hs.trace.congr rfl, hs.range.congr rfl⟩

theorem Inv.answer (hs : Inv s) (c : Code) (d : Word) : Inv (s.answer c d) :=
  ⟨hs.split.congr rfl, hs.tracker.congr rfl, hs.trace.congr rfl, hs.range.congr rfl⟩

/-! ### The memories -/

/-- The five memories of a state. -/
def State.memories (s : State) : Memory × Memory × Memory × Memory × Memory := (s.src, s.lin, s.rsb, s.txf, s.rxf)

theorem MemoryInv.congr (hs : MemoryInv s) (h : t.memories = s.memories) : MemoryInv t := by
  obtain ⟨hsrc, hlin, hrsb, htxf, hrxf⟩ :
      t.src = s.src ∧ t.lin = s.lin ∧ t.rsb = s.rsb ∧ t.txf = s.txf ∧ t.rxf = s.rxf := by
    simpa [State.memories] using h
  exact ⟨hsrc ▸ hs.src, hlin ▸ hs.lin, hrsb ▸ hs.rsb, htxf ▸ hs.txf, hrxf ▸ hs.rxf⟩

theorem MemoryInv.hostStore (hs : MemoryInv s) {sp : Space} {a : Nat} (ha : a < spaceSize sp) (b : Byte) :
    MemoryInv (s.hostStore sp a b) := by
  cases sp with
  | src => exact ⟨Memory.within_store hs.src ha b, hs.lin, hs.rsb, hs.txf, hs.rxf⟩
  | lin => exact ⟨hs.src, Memory.within_store hs.lin ha b, hs.rsb, hs.txf, hs.rxf⟩
  | rsb | fb => exact hs

theorem MemoryInv.loadTx (hs : MemoryInv s) (ch : BitVec 4) {raw : Bytes} (hraw : raw.length = 64) :
    MemoryInv (s.loadTx ch raw) :=
  ⟨hs.src, hs.lin, hs.rsb, Memory.within_storeSpan hs.txf (by omega), hs.rxf⟩

theorem MemoryInv.acceptFrame (hs : MemoryInv s) {f : Deframed} (hraw : f.frame.raw.length = 64) :
    MemoryInv (s.acceptFrame f) := by
  have hrxf : (s.rxf.storeSpan 0 f.frame.raw).within 64 := Memory.within_storeSpan hs.rxf (by omega)
  exact ⟨by simpa using hs.src, by simpa using hs.lin, by simpa using hs.rsb, by simpa using hs.txf, by simpa using hrxf⟩

theorem MemoryInv.append (hs : MemoryInv s) (hfit : s.rslen.toNat + s.kept ≤ Config.bufcap) (p : Bytes) :
    MemoryInv (s.append p) := by
  have hchunk : ((infoParse p).2.2.take s.kept).length ≤ s.kept := List.length_take_le ..
  exact ⟨hs.src, hs.lin, Memory.within_storeSpan hs.rsb (by omega), hs.txf, hs.rxf⟩

theorem MemoryInv.pushed (hs : MemoryInv s) (hu : Pushed s u) : MemoryInv u := by
  have hcounted : MemoryInv s.countRead := hs.congr rfl
  have htaken : MemoryInv s.taken := hcounted.acceptFrame (length_deframed_raw s)
  cases hu with
  | discarded f => exact hcounted.congr rfl
  | taken => exact htaken
  | appended hfit => exact htaken.append (by simpa using hfit) _

theorem MemoryInv.resetBlock (s : State) : MemoryInv s.resetBlock :=
  ⟨State.reset_memoryInv.src, State.reset_memoryInv.lin, State.reset_memoryInv.rsb, State.reset_memoryInv.txf,
    State.reset_memoryInv.rxf⟩

theorem MemoryInv.of_effect (hs : MemoryInv s) (he : Effect s i u c d) : MemoryInv u := by
  cases he with
  | blockReset => exact .resetBlock s
  | stored w _ ha => exact hs.hostStore ha _
  | encoded ch d _ hraw => exact hs.loadTx ch hraw
  | @packetProduced ch chunk d _ hchunk =>
    have hpayload : (pad 64 (infoPayload s.nextCountdown s.smt chunk)).length = 64 :=
      length_pad_of_le (by rw [length_infoPayload]; omega)
    exact (hs.loadTx ch hpayload).congr rfl
  | frameTaken => exact hs.acceptFrame (length_deframed_raw s)
  | transferStopped _ _ _ hu | transferCapped _ _ _ hu => exact (hs.pushed hu).congr rfl
  | transferContinued _ _ hu => exact hs.pushed hu
  | _ => exact hs.congr (by simp [State.memories])

end

/-- Settles O57: every effect keeps each part of R56. -/
theorem stepKeepsInvariant : Obligations.StepKeepsInvariant := by
  unfold Obligations.StepKeepsInvariant
  exact fun s t => step_keeps Inv.resetBlock (fun _ up rest hs => hs.takeCommand up rest)
    (fun _ c d hs => hs.answer c d) Inv.of_effect

/-- Settles O59: every effect that writes a memory writes canonically and inside the space. -/
theorem stepKeepsMemoryForm : Obligations.StepKeepsMemoryForm := by
  unfold Obligations.StepKeepsMemoryForm
  exact fun s t => step_keeps MemoryInv.resetBlock (fun _ _ _ hs => hs.congr rfl) (fun _ _ _ hs => hs.congr rfl)
    MemoryInv.of_effect

/-- Settles O58: the reset state is a block that was just reset. -/
theorem resetHasInvariant : Obligations.ResetHasInvariant :=
  ⟨Inv.resetBlock State.reset, State.reset_memoryInv⟩

end Sys2Proof.Machine
end

section
/-! What every operation does and leaves, read off its effect: the tracker's moves, one response, what a refusal and an
error change, what persists, who writes which buffer; and that a legal state never stops. -/

namespace Sys2Proof.Machine

section
variable {s t u : State} {i : Instr} {c : Code} {d : Word}

/-! ### Responses -/

/-- The interface fields of the model: what is presented, `LINKUP`, and what was answered. -/
def State.interface (s : State) : List Input × Bool × List Response := (s.inputs, s.linkup, s.responses)

/-- An effect leaves the port, `LINKUP` and the earlier responses. -/
theorem Effect.interface_eq (he : Effect s i u c d) : u.interface = s.interface := by
  cases he with
  | transferStopped _ _ _ hu | transferCapped _ _ _ hu | transferContinued _ _ hu =>
    exact (congrArg State.interface hu.frame :)
  | _ => simp [State.interface]

theorem Effect.responses_eq (he : Effect s i u c d) : u.responses = s.responses :=
  congrArg (·.2.2) he.interface_eq

/-- The effect behind a response that is known. -/
theorem exec_effect_of_response (h : exec i s = .next t) (hr : t.responses = s.responses ++ [⟨c, d⟩]) :
    ∃ u, Effect s i u c d ∧ t = u.answer c d := by
  obtain ⟨u, c', d', he, rfl⟩ := exec_effect h
  rw [State.answer_responses, he.responses_eq] at hr
  obtain ⟨rfl, rfl⟩ : c' = c ∧ d' = d := by simpa using hr
  exact ⟨u, he, rfl⟩

theorem plainErrors_not_reserved : ∀ e ∈ plainErrors, e.1.num.toNat ∉ [0x03, 0x04, 0x05, 0x07, 0x08] := by decide

theorem plainErrors_not_refusal : ∀ e ∈ plainErrors, e.1.num.toNat < 0x20 := by decide

theorem refusal_iff : c.isRefusal = true ↔ 0x20 ≤ c.num.toNat := decide_eq_true_iff

theorem plainErrors_iff {f : Flag} : (c, f) ∈ plainErrors ↔
    c = .frameTooShort ∧ f = .fts ∨ c = .payloadTooLarge ∧ f = .ptl ∨ c = .linkUnavailable ∧ f = .lna ∨
      c = .badMarker ∧ f = .bmk := by
  simp [plainErrors]

/-- A response is OK, a refusal, an error of the operation's own, or a transfer that ended on a cap. -/
theorem Effect.code_cases (he : Effect s i u c d) :
    c = .ok ∨ c.isRefusal = true ∧ d = 0 ∧ u = s.setFlag .ill ∨
      (∃ f, (c, f) ∈ plainErrors ∧ u = s.setFlag f) ∨ c = .incompleteTransfer ∧ i = .rpsh := by
  cases he with
  | refused hc => exact .inr (.inl ⟨hc, rfl, rfl⟩)
  | @reported i c f d hcf => exact .inr (.inr (.inl ⟨f, hcf, rfl⟩))
  | transferCapped => exact .inr (.inr (.inr ⟨rfl, rfl⟩))
  | _ => exact .inl rfl

/-- The codes of R182 are other components'. -/
theorem Effect.code_not_reserved (he : Effect s i u c d) : c.num.toNat ∉ [0x03, 0x04, 0x05, 0x07, 0x08] := by
  obtain rfl | ⟨hc, _⟩ | ⟨f, hcf, _⟩ | ⟨rfl, _⟩ := he.code_cases
  · decide
  · have hrefusal := refusal_iff.1 hc
    simp only [List.mem_cons, List.not_mem_nil, or_false]
    omega
  · exact plainErrors_not_reserved _ hcf
  · decide

/-! ### Flags and valid bits -/

/-- An operation sets flags and clears none. -/
def State.FlagsKept (s t : State) : Prop := ∀ k, s.sticky.getLsbD k = true → t.sticky.getLsbD k = true

theorem State.FlagsKept.of_eq (h : t.sticky = s.sticky) : s.FlagsKept t := fun k hk => by rw [h, hk]

theorem State.FlagsKept.setFlag (h : s.FlagsKept t) (f : Flag) : s.FlagsKept (t.setFlag f) := fun k hk => by
  rw [State.setFlag_sticky, BitVec.getLsbD_or, h k hk, Bool.true_or]

theorem flagsKept_acceptFrame (s : State) (f : Deframed) : s.FlagsKept (s.acceptFrame f) := by
  intro k hk
  rw [State.acceptFrame_sticky]
  split
  · rw [BitVec.getLsbD_or, hk, Bool.true_or]
  · exact hk

theorem Pushed.flagsKept (hu : Pushed s u) : s.FlagsKept u := by
  have htaken : s.FlagsKept s.taken := flagsKept_acceptFrame s.countRead s.deframed
  cases hu with
  | discarded f => exact (State.FlagsKept.of_eq rfl).setFlag f
  | taken => exact htaken
  | appended => exact htaken

theorem Pushed.rxfv (hu : Pushed s u) (h : s.rxfv = true) : u.rxfv = true := by
  cases hu with
  | discarded => exact h
  | taken => simp [State.taken]
  | appended => simp [State.taken]

theorem Effect.flagsKept (he : Effect s i u c d) (hsrst : i ≠ .srst) (hcsrw : ∀ v, i ≠ .csrw 0x01 v) :
    s.FlagsKept u := by
  have hs : s.FlagsKept s := .of_eq rfl
  cases he with
  | blockReset => exact absurd rfl hsrst
  | cleared v => exact absurd rfl (hcsrw v)
  | refused => exact hs.setFlag _
  | reported => exact hs.setFlag _
  | frameTaken => exact flagsKept_acceptFrame s _
  | transferStopped _ _ _ hu => exact hu.flagsKept
  | transferCapped _ _ _ hu => exact State.FlagsKept.setFlag (t := State.endTransfer _ _) hu.flagsKept .ict
  | transferContinued _ _ hu => exact hu.flagsKept
  | _ => exact .of_eq (by simp)

theorem Effect.txfv (he : Effect s i u c d) (hsrst : i ≠ .srst) (h : s.txfv = true) : u.txfv = true := by
  cases he with
  | blockReset => exact absurd rfl hsrst
  | transferStopped _ _ _ hu | transferCapped _ _ _ hu | transferContinued _ _ hu =>
    exact (congrArg State.txfv hu.frame :).trans h
  | _ => simp [h]

theorem Effect.rxfv (he : Effect s i u c d) (hsrst : i ≠ .srst) (h : s.rxfv = true) : u.rxfv = true := by
  cases he with
  | blockReset => exact absurd rfl hsrst
  | transferStopped _ _ _ hu | transferCapped _ _ _ hu | transferContinued _ _ hu => exact hu.rxfv h
  | _ => simp [h]

/-! ### Who writes which buffer -/

theorem encodesPayload_cases (h : encodesPayload i = true) :
    (∃ ch, i = .fenc ch) ∨ (∃ ch mt, i = .henc ch mt) ∨ ∃ ch mt, i = .ienc ch mt := by
  cases i with
  | fenc ch => exact .inl ⟨ch, rfl⟩
  | henc ch mt => exact .inr (.inl ⟨ch, mt, rfl⟩)
  | ienc ch mt => exact .inr (.inr ⟨ch, mt, rfl⟩)
  | _ => exact absurd h Bool.false_ne_true

/-- The buffers a counted read leaves, RXF and RSB being RPSH's to write. -/
def State.untouchedByPush (s : State) : Memory × Memory × Memory × List Bytes := (s.src, s.lin, s.txf, s.lout)

theorem Pushed.buffers (hu : Pushed s u) : u.src = s.src ∧ u.lin = s.lin ∧ u.txf = s.txf ∧ u.lout = s.lout := by
  simpa [State.untouchedByPush] using congrArg State.untouchedByPush hu.frame

end

/-- Settles O48: only RBEG, SRST and RPSH have an effect on phase and cause. -/
theorem trackerMoves : Obligations.TrackerMoves := by
  unfold Obligations.TrackerMoves
  intro i s t h
  obtain ⟨u, c, d, he, rfl⟩ := exec_effect h
  cases he with
  | transferBegun => exact .inr (.inl ⟨rfl, rfl, rfl⟩)
  | blockReset => exact .inr (.inr (.inl ⟨rfl, rfl, rfl⟩))
  | transferStopped _ hp hl _ he => exact .inr (.inr (.inr ⟨rfl, hp, hl, rfl, he⟩))
  | transferCapped _ hp hl _ he =>
    obtain rfl | rfl := he
    · exact .inr (.inr (.inr ⟨rfl, hp, hl, rfl, by simp⟩))
    · exact .inr (.inr (.inr ⟨rfl, hp, hl, rfl, by simp⟩))
  | transferContinued _ _ hu =>
    exact .inl ⟨(congrArg State.phase hu.frame :), (congrArg State.cause hu.frame :)⟩
  | _ => exact .inl (by simp)

/-- Settles O51. -/
theorem oneResponsePerOperation : Obligations.OneResponsePerOperation := by
  unfold Obligations.OneResponsePerOperation
  intro i s t h
  obtain ⟨u, c, d, he, rfl⟩ := exec_effect h
  have hport := he.interface_eq
  exact ⟨⟨c, d, by rw [State.answer_responses, he.responses_eq], he.code_not_reserved⟩, congrArg (·.1) hport,
    congrArg (·.2.1) hport⟩

/-- Settles O52: no effect but a refusal answers with a refusal's code. -/
theorem refusalChangesNothing : Obligations.RefusalChangesNothing := by
  unfold Obligations.RefusalChangesNothing
  intro i s t c d h hr hc
  obtain ⟨u, he, rfl⟩ := exec_effect_of_response h hr
  obtain rfl | ⟨_, rfl, rfl⟩ | ⟨f, hcf, _⟩ | ⟨rfl, _⟩ := he.code_cases
  · exact absurd hc (by decide)
  · exact ⟨rfl, rfl⟩
  · exact absurd hc (Nat.not_le.2 (plainErrors_not_refusal _ hcf))
  · exact absurd hc (by decide)

/-- Settles O53: apart from RPSH's caps, an error is reported by its flag alone. -/
theorem errorChangesItsFlagOnly : Obligations.ErrorChangesItsFlagOnly := by
  unfold Obligations.ErrorChangesItsFlagOnly
  intro i s t c d hi h hr hlow hhigh
  obtain ⟨u, he, rfl⟩ := exec_effect_of_response h hr
  obtain rfl | ⟨hc, _⟩ | ⟨f, hcf, rfl⟩ | ⟨_, hrpsh⟩ := he.code_cases
  · exact absurd hlow (by decide)
  · have := refusal_iff.1 hc
    omega
  · refine ⟨?_, rfl⟩
    obtain ⟨rfl, rfl⟩ | ⟨rfl, rfl⟩ | ⟨rfl, rfl⟩ | ⟨rfl, rfl⟩ := plainErrors_iff.1 hcf
    · exact .head _
    · exact .tail _ (.head _)
    · exact .tail _ (.tail _ (.head _))
    · exact .tail _ (.tail _ (.tail _ (.head _)))
  · exact absurd hrpsh hi

/-- Settles O54. -/
theorem flagsAndValidBitsPersist : Obligations.FlagsAndValidBitsPersist := by
  unfold Obligations.FlagsAndValidBitsPersist
  intro i s t h hsrst
  obtain ⟨u, c, d, he, rfl⟩ := exec_effect h
  exact ⟨he.flagsKept hsrst, he.txfv hsrst, he.rxfv hsrst⟩

/-- Settles O55: the effects that write a buffer are few, and each belongs to the operations named. -/
theorem bufferWriters : Obligations.BufferWriters := by
  unfold Obligations.BufferWriters
  intro i s t h hsrst
  obtain ⟨u, c, d, he, rfl⟩ := exec_effect h
  cases he with
  | blockReset => exact absurd rfl hsrst
  | @stored sp addr w hsp =>
    cases sp with
    | src | lin => simp [State.hostStore]
    | rsb | fb => exact absurd hsp Bool.false_ne_true
  | encoded ch d hi =>
    obtain ⟨ch, rfl⟩ | ⟨ch, mt, rfl⟩ | ⟨ch, mt, rfl⟩ := encodesPayload_cases hi
    · simp
    · simp
    · simp
  | transferStopped _ _ _ hu | transferCapped _ _ _ hu | transferContinued _ _ hu =>
    obtain ⟨hsrc, hlin, htxf, hlout⟩ := hu.buffers
    simp [hsrc, hlin, htxf, hlout]
  | _ => simp

/-! ### No stop from a legal state -/

section
variable {s : State}

theorem next_ite {p : Prop} [Decidable p] {a b : Result} (ha : ∃ t, a = .next t) (hb : ∃ t, b = .next t) :
    ∃ t, (if p then a else b) = .next t := by
  split
  · exact ha
  · exact hb

theorem encodePayload_next (ch : BitVec 4) (p : Bytes) (s : State) : ∃ t, encodePayload ch p s = .next t := by
  by_cases hp : p.length ≤ 64
  · exact ⟨_, encodePayload_of_le hp⟩
  · exact ⟨_, encodePayload_of_gt (by omega)⟩

/-- The first SRCLEN bytes of SRC are inside the space when SRCLEN is legal (R61). -/
theorem srcSpan_contents (h : s.srclen.toNat ≤ Config.bufcap) : s.srcSpan 0 s.srclen.toNat = some s.contents :=
  srcSpan_of_le (by omega)

/-- The slice SNXT cuts is inside SRC when a split is active (R61, R143). -/
theorem srcSpan_slice (hs : SplitInv s) (hslen : s.slen.toNat ≤ Config.bufcap) (hactive : s.sk.toNat < s.sn.toNat) :
    s.srcSpan s.sliceLo (s.sliceHi - s.sliceLo) = some s.sliced := by
  have hlo : 61 * s.sk.toNat < s.slen.toNat := lt_ceilDiv_iff.1 (hs.sn_eq ▸ hactive)
  exact srcSpan_of_le (by unfold State.sliceHi State.sliceLo; omega)

theorem execCsrr_answers (csr : BitVec 8) (s : State) : ∃ t, execCsrr csr s = .next t := by
  unfold execCsrr
  cases regOf csr with
  | none => exact ⟨_, rfl⟩
  | some r => exact ⟨_, rfl⟩

theorem execCsrw_answers (csr : BitVec 8) (v : Word) (s : State) : ∃ t, execCsrw csr v s = .next t := by
  unfold execCsrw
  cases regOf csr with
  | none => exact ⟨_, rfl⟩
  | some r =>
    dsimp only
    cases r.access with
    | w1c => exact ⟨_, rfl⟩
    | ro => exact ⟨_, rfl⟩
    | rw => exact next_ite ⟨_, rfl⟩ ⟨_, rfl⟩

/-- Every operation answers in a state with the invariants. -/
theorem exec_next (hs : Inv s) (i : Instr) : ∃ t, exec i s = .next t := by
  have hspan := srcSpan_contents hs.range.srclen_le
  cases i with
  | nop | srst | sbeg | rbeg => exact ⟨_, rfl⟩
  | csrr csr => exact execCsrr_answers csr s
  | csrw csr v => exact execCsrw_answers csr v s
  | ldb => exact next_ite ⟨_, rfl⟩ ⟨_, rfl⟩
  | stb => exact next_ite ⟨_, rfl⟩ (next_ite ⟨_, rfl⟩ (next_ite ⟨_, rfl⟩ ⟨_, rfl⟩))
  | fenc ch => simpa only [exec, execFenc, hspan] using encodePayload_next ch _ s
  | henc ch mt => simpa only [exec, execHenc, hspan] using encodePayload_next ch _ s
  | ienc ch mt => simpa only [exec, execIenc, hspan] using encodePayload_next ch _ s
  | ftx => exact next_ite ⟨_, rfl⟩ (next_ite ⟨_, rfl⟩ ⟨_, rfl⟩)
  | fdec => exact execFdec_next hs.range.linlen_le
  | hdec | idec => exact next_ite ⟨_, rfl⟩ ⟨_, rfl⟩
  | snxt ch =>
    by_cases hactive : s.sk.toNat < s.sn.toNat
    · simp only [exec, execSnxt, State.splitActive, hactive, decide_true, Bool.true_eq_false, if_false,
        srcSpan_slice hs.split hs.range.slen_le hactive]
      exact ⟨_, rfl⟩
    · simp only [exec, execSnxt, State.splitActive, hactive, decide_false, if_true]
      exact ⟨_, rfl⟩
  | rpsh => exact execRpsh_next hs.range.linlen_le (kept_le hs.tracker.rslen_le hs.range.rlencap_le)

end

/-- Settles O60: the queue's next input is a reset, a refused command or an operation, and each answers. -/
theorem legalStateNeverStops : Obligations.LegalStateNeverStops := by
  unfold Obligations.LegalStateNeverStops
  intro s hs
  cases hin : s.inputs with
  | nil => exact ⟨s, by simp only [step, hin, idle]⟩
  | cons input rest =>
    cases input with
    | reset => exact ⟨_, by simp only [step, hin]; rfl⟩
    | command up cmd wdata =>
      cases hdec : decode cmd wdata with
      | bad e => exact ⟨_, step_of_decode_bad hin hdec⟩
      | ok i =>
        rw [step_of_decode_ok hin hdec]
        exact exec_next (hs.takeCommand up rest) i

end Sys2Proof.Machine
end

section
/-! The port at rest and at a reset (R13, R200), and the host access operations NOP, CSRR, CSRW, LDB, STB, SRST and the
loads made of them (R170 to R175, R49). -/

namespace Sys2Proof.Machine

/-! ### The port -/

/-- Settles O6. -/
theorem stepRunsDecodedCommand : Obligations.StepRunsDecodedCommand := by
  unfold Obligations.StepRunsDecodedCommand
  exact fun s up cmd wdata rest i hin hdec => step_of_decode_ok hin hdec

/-- Settles O7. -/
theorem stepWithoutInputRests : Obligations.StepWithoutInputRests := by
  unfold Obligations.StepWithoutInputRests
  intro s hin
  simp only [step, hin, idle]

/-- Settles O8: both are `resetBlock` on the state the port leaves. -/
theorem resetEventEqualsSrst : Obligations.ResetEventEqualsSrst := by
  unfold Obligations.ResetEventEqualsSrst
  intro s rest hin
  exact ⟨s.takeReset rest, by simp only [step, hin], rfl, rfl⟩

/-- Settles O11. -/
theorem nopChangesNothing : Obligations.NopChangesNothing := fun _ => rfl

/-- Settles O23. -/
theorem srstResets : Obligations.SrstResets := fun _ => rfl

/-! ### Reading registers -/

section
variable {s : State} {csr : BitVec 8} {v : Word}

/-- CSRR of a register's number answers the register (R171). -/
theorem exec_csrr_number (r : Reg) (s : State) :
    exec (.csrr r.number) s = .next (s.answer .ok (s.readReg r)) := by
  simp only [exec, execCsrr, regOf_number, respond_eq]

/-- The registers but STATUS and RSTATE, in the order of their numbers. -/
def plainRegs : List Reg :=
  [.ctrl, .srclen, .linlen, .taddr, .tcd, .rxch, .txch, .raddr, .rmt, .rcd, .rplen, .rrssi, .sn, .sk, .smt, .slen, .rcap,
    .rlencap, .rslen, .rreads, .rpkts, .rlast]

theorem plainRegisters_eq (s : State) : s.plainRegisters = plainRegs.map fun r => (r.number, s.readReg r) := rfl

/-- Settles O12: each pair of the list is a register's number and its word. -/
theorem csrrReadsEachRegister : Obligations.CsrrReadsEachRegister := by
  unfold Obligations.CsrrReadsEachRegister
  intro s csr v hmem
  rw [plainRegisters_eq, List.mem_map] at hmem
  obtain ⟨r, _, hr⟩ := hmem
  obtain ⟨rfl, rfl⟩ := Prod.mk.inj hr
  exact exec_csrr_number r s

/-- RSTATE as a number: the phase's two bits, and the cause's three bits from bit 4 on (R47). -/
theorem toNat_rstate (s : State) : s.rstate.toNat = s.phase.bits.toNat + 16 * s.cause.bits.toNat := by
  have hnum : ∀ (p : BitVec 2) (c : BitVec 3),
      ((0 : BitVec 25) ++ c ++ (0 : BitVec 2) ++ p).toNat = p.toNat + 16 * c.toNat := by decide
  exact hnum s.phase.bits s.cause.bits

/-- Settles O13. -/
theorem csrrReadsTrackerState : Obligations.CsrrReadsTrackerState := by
  unfold Obligations.CsrrReadsTrackerState
  intro s
  refine ⟨s.rstate, exec_csrr_number .rstate s, ?_⟩
  rw [toNat_rstate]
  refine congrArg₂ (fun phase cause => phase + 16 * cause) ?phase ?cause
  case phase => cases s.phase <;> rfl
  case cause => cases s.cause <;> rfl

/-- STATUS bit by bit (R25): sticky flags, zeros, four live views, zeros. -/
theorem getLsbD_status (s : State) (k : Nat) :
    s.status.getLsbD k =
      if k < 7 then s.sticky.getLsbD k
      else if k = 16 then s.linkup
      else if k = 17 then s.txfv
      else if k = 18 then s.rxfv
      else if k = 19 then decide (s.sk.toNat < s.sn.toNat)
      else false := by
  simp only [State.status, State.splitActive, BitVec.getLsbD_append]
  by_cases hlow : k < 7
  · simp [hlow]
  · by_cases hviews : k < 20
    · interval_cases k <;> simp
    · repeat rw [if_neg (by omega)]
      exact BitVec.getLsbD_zero

/-- Settles O14. -/
theorem csrrReadsStatusBits : Obligations.CsrrReadsStatusBits := by
  unfold Obligations.CsrrReadsStatusBits
  exact fun s => ⟨s.status, exec_csrr_number .status s, getLsbD_status s⟩

theorem number_mem_registerNumbers (r : Reg) : r.number ∈ registerNumbers := by cases r <;> decide

theorem regOf_of_not_mem (h : csr ∉ registerNumbers) : regOf csr = none := by
  cases hr : regOf csr with
  | none => rfl
  | some r => exact absurd (number_of_regOf hr ▸ number_mem_registerNumbers r) h

/-- Settles O15: what is no register number names no register. -/
theorem unlistedRegisterRefused : Obligations.UnlistedRegisterRefused := by
  unfold Obligations.UnlistedRegisterRefused
  intro s csr value hcsr
  have hnone := regOf_of_not_mem hcsr
  have hrefused : refuse .badCsr s = _ := refuse_state rfl s
  exact ⟨by simp only [exec, execCsrr, hnone]; exact hrefused, by simp only [exec, execCsrw, hnone]; exact hrefused⟩

/-! ### Writing registers -/

/-- CSRW of a legal value to a register of class RW (R172). -/
theorem exec_csrw_legal {r : Reg} (hr : r.access = .rw) (hv : r.legal v) (s : State) :
    exec (.csrw r.number v) s = .next ((s.writeReg r v).answer .ok v) := execCsrw_next s hr hv

theorem exec_csrw_illegal {r : Reg} (hr : r.access = .rw) (hv : ¬ r.legal v) (s : State) :
    exec (.csrw r.number v) s = .next (s.refusal .badValue) := by
  simp only [exec, execCsrw, regOf_number, hr, writeLegal, if_neg hv]
  exact refuse_refusal rfl s

theorem exec_csrw_readOnly {r : Reg} (hr : r.access = .ro) (v : Word) (s : State) :
    exec (.csrw r.number v) s = .next (s.refusal .readOnly) := by
  simp only [exec, execCsrw, regOf_number, hr]
  exact refuse_refusal rfl s

/-- A legal value is not cut by the width of its register. -/
theorem toNat_setWidth_of_lt {n : Nat} (h : v.toNat < 2 ^ n) : (v.setWidth n).toNat = v.toNat :=
  (BitVec.toNat_setWidth ..).trans (Nat.mod_eq_of_lt h)

theorem toNat_setWidth_of_le_bufcap (h : v.toNat ≤ Config.bufcap) : (v.setWidth 22).toNat = v.toNat :=
  toNat_setWidth_of_lt (h.trans_lt (bufcap_le.trans_lt (by decide)))

theorem toNat_setWidth_of_le_rxmax (h : v.toNat ≤ Config.rxmax) : (v.setWidth 22).toNat = v.toNat :=
  toNat_setWidth_of_lt (h.trans_lt (rxmax_le.trans_lt (by decide)))

/-- Settles O16: each register's legal range is inside its width. -/
theorem csrwStoresLegalValue : Obligations.CsrwStoresLegalValue := by
  unfold Obligations.CsrwStoresLegalValue
  intro s v
  refine ⟨fun h => ⟨_, exec_csrw_legal (r := .ctrl) rfl h s, toNat_setWidth_of_lt (by omega), rfl⟩,
    fun h => ⟨_, exec_csrw_legal (r := .srclen) rfl h s, toNat_setWidth_of_le_bufcap h, rfl⟩,
    fun h => ⟨_, exec_csrw_legal (r := .linlen) rfl h s, toNat_setWidth_of_le_rxmax h, rfl⟩,
    ⟨_, exec_csrw_legal (r := .taddr) rfl (Nat.le_of_lt_succ v.isLt) s, rfl, rfl⟩,
    fun h => ⟨_, exec_csrw_legal (r := .tcd) rfl h s, toNat_setWidth_of_lt (by omega), rfl⟩,
    fun h => ⟨_, exec_csrw_legal (r := .rxch) rfl h s, toNat_setWidth_of_lt (by omega), rfl⟩,
    fun h => ⟨_, exec_csrw_legal (r := .rcap) rfl h s, toNat_setWidth_of_lt (by omega), rfl⟩,
    fun h => ⟨_, exec_csrw_legal (r := .rlencap) rfl h s, toNat_setWidth_of_le_bufcap h, rfl⟩⟩

/-- The registers of class RW whose legal range is not all words (R172). -/
def boundedRegs : List Reg := [.ctrl, .srclen, .linlen, .tcd, .rxch, .rcap, .rlencap]

theorem illegalValues_eq (v : Word) :
    illegalValues v = boundedRegs.map fun r => (r.number, decide (r.maxValue < v.toNat)) := rfl

theorem access_of_mem_boundedRegs : ∀ r ∈ boundedRegs, r.access = .rw := by decide

/-- The registers of class RO (R172). -/
def readOnlyRegs : List Reg :=
  [.txch, .raddr, .rmt, .rcd, .rplen, .rrssi, .sn, .sk, .smt, .slen, .rslen, .rreads, .rpkts, .rlast, .rstate]

theorem readOnlyRegisters_eq : readOnlyRegisters = readOnlyRegs.map Reg.number := rfl

theorem access_of_mem_readOnlyRegs : ∀ r ∈ readOnlyRegs, r.access = .ro := by decide

/-- Settles O17: both lists are the numbers of registers of one class. -/
theorem csrwRefusals : Obligations.CsrwRefusals := by
  unfold Obligations.CsrwRefusals
  refine fun s csr v => ⟨fun hmem => ?badValue, fun hmem => ?readOnly⟩
  case badValue =>
    rw [illegalValues_eq, List.mem_map] at hmem
    obtain ⟨r, hr, hpair⟩ := hmem
    obtain ⟨rfl, hover⟩ := Prod.mk.inj hpair
    exact exec_csrw_illegal (access_of_mem_boundedRegs r hr) (Nat.not_le.2 (of_decide_eq_true hover)) s
  case readOnly =>
    rw [readOnlyRegisters_eq, List.mem_map] at hmem
    obtain ⟨r, hr, rfl⟩ := hmem
    exact exec_csrw_readOnly (access_of_mem_readOnlyRegs r hr) v s

/-- CSRW STATUS clears flags and answers STATUS (R25, R172). -/
theorem exec_csrw_status (s : State) (v : Word) :
    exec (.csrw 0x01 v) s = .next ((s.clearFlags v).answer .ok (s.clearFlags v).status) := rfl

/-- Settles O18. -/
theorem csrwStatusClearsFlags : Obligations.CsrwStatusClearsFlags := by
  unfold Obligations.CsrwStatusClearsFlags
  intro s v
  refine ⟨_, _, exec_csrw_status s v, fun k hk => ?_, rfl, exec_csrr_number .status _⟩
  simp [hk]

end

/-! ### Reading and writing memory -/

section
variable {s : State} {sp : Space} {addr : BitVec 22} {w : Word}

theorem exec_ldb_of_lt (s : State) (h : addr.toNat < spaceSize sp) :
    exec (.ldb sp addr) s = .next (s.answer .ok ((s.readByte sp addr.toNat).setWidth 32)) := if_pos h

theorem exec_ldb_of_ge (s : State) (h : spaceSize sp ≤ addr.toNat) :
    exec (.ldb sp addr) s = .next (s.refusal .badAddr) := (if_neg (Nat.not_lt.2 h)).trans (refuse_refusal rfl s)

theorem readByte_fb_of_lt (s : State) {a : Nat} (h : a < 64) : s.readByte .fb a = s.txf.byte a := if_pos h

theorem readByte_fb_of_ge (s : State) {a : Nat} (h : 64 ≤ a) : s.readByte .fb a = s.rxf.byte (a - 64) :=
  if_neg (Nat.not_lt.2 h)

theorem spaceSize_fb : spaceSize .fb = 128 := rfl

/-- Settles O19. -/
theorem ldbReadsByte : Obligations.LdbReadsByte := by
  unfold Obligations.LdbReadsByte
  refine fun s addr => ⟨exec_ldb_of_lt (sp := .src) s, exec_ldb_of_lt (sp := .lin) s, exec_ldb_of_lt (sp := .rsb) s,
    fun h => ?txf, fun hlow hhigh => ?rxf, fun sp h => ?beyond⟩
  case txf =>
    rw [← readByte_fb_of_lt s h]
    exact exec_ldb_of_lt s (by rw [spaceSize_fb]; omega)
  case rxf =>
    rw [← readByte_fb_of_ge s hlow]
    exact exec_ldb_of_lt s hhigh
  case beyond => cases sp <;> exact exec_ldb_of_ge s h

/-- STB of a byte inside a space the host writes (R174). -/
theorem exec_stb_of_lt (s : State) (hsp : hostWritable sp = true) (ha : addr.toNat < spaceSize sp)
    (hw : w.toNat < 256) :
    exec (.stb sp addr w) s = .next ((s.hostStore sp addr.toNat (w.setWidth 8)).answer .ok w) := by
  have hbyte : w.extractLsb' 0 8 = w.setWidth 8 := (BitVec.setWidth_eq_extractLsb' (by decide)).symm
  rw [← hbyte]
  exact execStb_next s hsp ha hw

/-- Settles O20. -/
theorem stbStoresOneByte : Obligations.StbStoresOneByte := by
  unfold Obligations.StbStoresOneByte
  intro s addr w hw
  exact ⟨fun ha hwf => ⟨_, exec_stb_of_lt (sp := .src) s rfl ha hw, Memory.wf_store hwf _ _,
      Memory.byte_store hwf _ _, rfl⟩,
    fun ha hwf => ⟨_, exec_stb_of_lt (sp := .lin) s rfl ha hw, Memory.wf_store hwf _ _, Memory.byte_store hwf _ _, rfl⟩⟩

theorem exec_stb_readOnly (hsp : hostWritable sp = false) (addr : BitVec 22) (w : Word) (s : State) :
    exec (.stb sp addr w) s = .next (s.refusal .readOnly) := (if_pos hsp).trans (refuse_refusal rfl s)

theorem exec_stb_badAddr (hsp : hostWritable sp = true) (ha : spaceSize sp ≤ addr.toNat) (w : Word) (s : State) :
    exec (.stb sp addr w) s = .next (s.refusal .badAddr) := by
  have hrange : ¬ addrInSpace sp addr := Nat.not_lt.2 ha
  simp only [exec, execStb, hsp, hrange, not_false_eq_true, if_true, Bool.true_eq_false, if_false]
  exact refuse_refusal rfl s

theorem exec_stb_badValue (hsp : hostWritable sp = true) (ha : addr.toNat < spaceSize sp) (hw : 256 ≤ w.toNat)
    (s : State) : exec (.stb sp addr w) s = .next (s.refusal .badValue) := by
  have hbyte := extractLsb'_ne_zero_of_ge hw
  rw [exec, execStb, if_neg (by simp [hsp]), if_neg (not_not.2 ha), if_pos hbyte]
  exact refuse_refusal rfl s

/-- Settles O21. -/
theorem stbRefusals : Obligations.StbRefusals := by
  unfold Obligations.StbRefusals
  refine fun s addr w => ⟨fun sp hsp => ?readOnly, fun sp h => ?badAddr, fun sp h hw => ?badValue⟩
  case readOnly =>
    obtain rfl | rfl := hsp
    · exact exec_stb_readOnly rfl addr w s
    · exact exec_stb_readOnly rfl addr w s
  case badAddr =>
    obtain ⟨rfl, ha⟩ | ⟨rfl, ha⟩ := h
    · exact exec_stb_badAddr (sp := .src) rfl ha w s
    · exact exec_stb_badAddr (sp := .lin) rfl ha w s
  case badValue =>
    obtain ⟨rfl, ha⟩ | ⟨rfl, ha⟩ := h
    · exact exec_stb_badValue (sp := .src) rfl ha hw s
    · exact exec_stb_badValue (sp := .lin) rfl ha hw s

/-! ### LDSRC and LDLIN -/

/-- A byte string stored at the start of a memory. -/
theorem byte_storeSpan_zero {m : Memory} (hwf : m.wf) (b : Bytes) (a : Nat) :
    (m.storeSpan 0 b).byte a = if a < b.length then byteAt b a else m.byte a := by
  rw [Memory.byte_storeSpan hwf]
  simp

theorem toNat_word_of_le {n m : Nat} (h : n ≤ m) (hm : m ≤ 4194304) : (BitVec.ofNat 32 n).toNat = n :=
  (BitVec.toNat_ofNat ..).trans (Nat.mod_eq_of_lt (by omega))

/-- The state LDSRC leaves (R89). -/
def State.loadedSrc (s : State) (b : Bytes) : State :=
  ((s.storedBytes .src 0 b).writeReg .srclen (BitVec.ofNat 32 b.length)).answer .ok (BitVec.ofNat 32 b.length)

/-- The state LDLIN leaves (R49, R89). -/
def State.loadedLin (s : State) (b : Bytes) : State :=
  ((s.storedBytes .lin 0 b).writeReg .linlen (BitVec.ofNat 32 b.length)).answer .ok (BitVec.ofNat 32 b.length)

theorem bufcap_le_addresses : Config.bufcap ≤ 4194304 := bufcap_le.trans (by decide)

theorem rxmax_le_addresses : Config.rxmax ≤ 4194304 := rxmax_le.trans (by decide)

theorem exec_csrw_srclen {b : Bytes} (h : b.length ≤ Config.bufcap) (s : State) :
    exec (.csrw 0x02 (BitVec.ofNat 32 b.length)) s =
      .next ((s.writeReg .srclen (BitVec.ofNat 32 b.length)).answer .ok (BitVec.ofNat 32 b.length)) :=
  exec_csrw_legal (r := .srclen) rfl ((toNat_word_of_le h bufcap_le_addresses).trans_le h) s

theorem exec_csrw_linlen {b : Bytes} (h : b.length ≤ Config.rxmax) (s : State) :
    exec (.csrw 0x03 (BitVec.ofNat 32 b.length)) s =
      .next ((s.writeReg .linlen (BitVec.ofNat 32 b.length)).answer .ok (BitVec.ofNat 32 b.length)) :=
  exec_csrw_legal (r := .linlen) rfl ((toNat_word_of_le h rxmax_le_addresses).trans_le h) s

/-- A single operation that answers OK, as a pseudo-instruction. -/
theorem runSequence_singleton {i : Instr} {t : State} (h : exec i s = .next t) : runSequence [i] s = .next t := by
  simp [runSequence, h]

theorem runSequence_ldsrc {b : Bytes} (h : b.length ≤ Config.bufcap) (s : State) :
    runSequence (ldsrc b) s = .next (s.loadedSrc b) := by
  rw [ldsrc, runSequence_storeBytes (sp := .src) rfl b 0 s ((Nat.zero_add _).trans_le h) bufcap_le_addresses]
  exact runSequence_singleton (exec_csrw_srclen h _)

theorem runSequence_ldlin {b : Bytes} (h : b.length ≤ Config.rxmax) (s : State) :
    runSequence (ldlin b) s = .next (s.loadedLin b) := by
  rw [ldlin, runSequence_storeBytes (sp := .lin) rfl b 0 s ((Nat.zero_add _).trans_le h) rxmax_le_addresses]
  exact runSequence_singleton (exec_csrw_linlen h _)

theorem toNat_linlen_loadedLin {b : Bytes} (h : b.length ≤ Config.rxmax) (s : State) :
    (s.loadedLin b).linlen.toNat = b.length := by
  have hword := toNat_word_of_le h rxmax_le_addresses
  exact (toNat_setWidth_of_le_rxmax (hword.trans_le h)).trans hword

theorem toNat_srclen_loadedSrc {b : Bytes} (h : b.length ≤ Config.bufcap) (s : State) :
    (s.loadedSrc b).srclen.toNat = b.length := by
  have hword := toNat_word_of_le h bufcap_le_addresses
  exact (toNat_setWidth_of_le_bufcap (hword.trans_le h)).trans hword

/-- Settles O22: the stores, then the length register. -/
theorem loadsDeliverBytes : Obligations.LoadsDeliverBytes := by
  unfold Obligations.LoadsDeliverBytes
  refine fun b s => ⟨fun h hwf => ?src, fun h hwf => ?lin⟩
  case src =>
    exact ⟨_, runSequence_ldsrc h s, Memory.wf_storeSpan hwf 0 b, byte_storeSpan_zero hwf b, toNat_srclen_loadedSrc h s,
      rfl⟩
  case lin =>
    exact ⟨_, runSequence_ldlin h s, Memory.wf_storeSpan hwf 0 b, byte_storeSpan_zero hwf b, toNat_linlen_loadedLin h s,
      rfl⟩

end

end Sys2Proof.Machine
end

section
/-! The frame codec's operations FENC, FTX and FDEC and what they share with HENC, IENC and RPSH: payloads too long, the
link down, a missing frame, each kind of read, and a frame looped back through the link (R105 to R109). -/

namespace Sys2Proof.Machine

section
variable {s : State}

/-! ### Payloads too long -/

theorem exec_henc_of_srclen_le (h : s.srclen.toNat ≤ Config.bufcap) (ch : BitVec 4) (mt : Byte) :
    exec (.henc ch mt) s = encodePayload ch (headerPayload (le32 s.taddr) mt s.contents) s := by
  simp only [exec, execHenc, srcSpan_contents h]

theorem exec_ienc_of_srclen_le (h : s.srclen.toNat ≤ Config.bufcap) (ch : BitVec 4) (mt : Byte) :
    exec (.ienc ch mt) s = encodePayload ch (infoPayload s.tcd mt s.contents) s := by
  simp only [exec, execIenc, srcSpan_contents h]

@[simp] theorem length_contents (s : State) : s.contents.length = s.srclen.toNat := Memory.length_span ..

/-- A payload of more than 64 bytes, whatever its layout (R100, R183). -/
theorem encodePayload_too_large {ch : BitVec 4} {p : Bytes} {n : Nat} (hlen : p.length = n) (h : 64 < n) (s : State) :
    encodePayload ch p s = .next (s.report .ptl .payloadTooLarge (BitVec.ofNat 32 n)) := by
  subst hlen
  exact encodePayload_of_gt h

/-- Settles O25. -/
theorem longPayloadRejected : Obligations.LongPayloadRejected := by
  unfold Obligations.LongPayloadRejected
  refine fun ch mt s hcap => ⟨fun h => ?fenc, fun h => ?henc, fun h => ?ienc⟩
  case fenc =>
    rw [exec_fenc_of_srclen_le hcap]
    exact encodePayload_too_large (length_contents s) h s
  case henc =>
    rw [exec_henc_of_srclen_le hcap]
    exact encodePayload_too_large (by simp) (by omega) s
  case ienc =>
    rw [exec_ienc_of_srclen_le hcap]
    exact encodePayload_too_large (by simp) (by omega) s

/-! ### FTX -/

@[simp] theorem length_txFrame (s : State) : s.txFrame.length = 64 := Memory.length_span ..

theorem byteAt_txFrame (s : State) {i : Nat} (h : i < 64) : byteAt s.txFrame i = s.readByte .fb i := by
  rw [readByte_fb_of_lt s h, State.txFrame, Config.frameLen, Memory.byteAt_span, if_pos h, Nat.zero_add]

theorem getElem?_txFrame (s : State) {i : Nat} (h : i < 64) : s.txFrame[i]? = some (s.readByte .fb i) := by
  rw [getElem?_eq_byteAt (by simpa using h), byteAt_txFrame s h]

/-- Settles O26: the third write is TXF. -/
theorem ftxSendsThreeWrites : Obligations.FtxSendsThreeWrites := by
  unfold Obligations.FtxSendsThreeWrites
  intro s hv hl
  exact ⟨s.txFrame, length_txFrame s, fun i hi => getElem?_txFrame s hi, exec_ftx_of_txfv hv hl⟩

/-- Settles O27. -/
theorem linkDownFails : Obligations.LinkDownFails := by
  unfold Obligations.LinkDownFails
  intro i s hl hi
  obtain ⟨rfl, hv⟩ | rfl | ⟨rfl, hp⟩ := hi
  · exact (if_neg (by simp [hv])).trans (if_pos hl)
  · exact if_pos hl
  · exact (if_neg (not_not.2 hp)).trans (if_pos hl)

/-- Settles O28. -/
theorem noFrameRefused : Obligations.NoFrameRefused := by
  unfold Obligations.NoFrameRefused
  intro i s hi
  have hrefused := refuse_state (c := .noFrame) rfl s
  obtain ⟨rfl, hv⟩ | ⟨rfl, hv⟩ | ⟨rfl, hv⟩ := hi
  · exact (if_pos hv).trans hrefused
  · exact (if_pos hv).trans hrefused
  · exact (if_pos hv).trans hrefused

/-! ### FDEC, by the kind of the read -/

theorem exec_fdec_of_hasFrame (hl : s.linkup = true) (hle : s.linlen.toNat ≤ Config.rxmax) (hk : s.hasFrame) :
    exec .fdec s = .next ((s.acceptFrame s.deframed).answer .ok 64) := by
  simp only [exec, execFdec, hl, linRead_of_le hle, deframe_of_hasFrame hk, Bool.true_eq_false, if_false, respond_eq]

theorem exec_fdec_of_hasShortRead (hl : s.linkup = true) (hle : s.linlen.toNat ≤ Config.rxmax) (hk : s.hasShortRead) :
    exec .fdec s = .next (s.report .fts .frameTooShort (s.linlen.setWidth 32)) := by
  simp only [exec, execFdec, hl, linRead_of_le hle, deframe_of_hasShortRead hk, Bool.true_eq_false, if_false]
  rfl

theorem exec_fdec_of_hasBadMarker (hl : s.linkup = true) (hle : s.linlen.toNat ≤ Config.rxmax) (hk : s.hasBadMarker) :
    exec .fdec s = .next (s.report .bmk .badMarker (markerFound (s.lin.span 0 s.linlen.toNat))) := by
  simp only [exec, execFdec, hl, linRead_of_le hle, deframe_of_hasBadMarker hk, Bool.true_eq_false, if_false]
  rfl

/-- RXF after a read was taken: the payload's 64 bytes, and nothing beyond them. -/
theorem byte_storeSpan_readPayload (hwf : s.rxf.wf) (a : Nat) :
    (s.rxf.storeSpan 0 s.readPayload).byte a = if a < 64 then s.lin.byte (s.payloadAt + a) else s.rxf.byte a := by
  rw [byte_storeSpan_zero hwf, State.readPayload, Memory.length_span, Memory.byteAt_span]
  by_cases h : a < 64
  · rw [if_pos h, if_pos h, if_pos h]
  · rw [if_neg h, if_neg h]

theorem deframed_raw (s : State) : s.deframed.frame.raw = s.readPayload := rfl

/-- What FDEC of a read that holds a frame leaves, RXF apart (R107). -/
theorem acceptFrame_frame (s : State) :
    s.acceptFrame s.deframed = { s with rxf := (s.acceptFrame s.deframed).rxf, rxfv := true,
                                        rplen := s.rplenAfterRead, rrssi := s.rrssiAfterRead,
                                        sticky := s.stickyAfterRead } := by
  rw [acceptFrame_deframed s s rfl rfl rfl]

/-- Settles O29. -/
theorem fdecTakesFrame : Obligations.FdecTakesFrame := by
  unfold Obligations.FdecTakesFrame
  intro s hl hle hwf hk
  refine ⟨_, exec_fdec_of_hasFrame hl hle hk, ?wf, fun a => ?bytes, ?frame⟩
  case wf =>
    rw [State.answer_rxf, State.acceptFrame_rxf]
    exact Memory.wf_storeSpan hwf 0 _
  case bytes => rw [State.answer_rxf, State.acceptFrame_rxf, deframed_raw, byte_storeSpan_readPayload hwf]
  case frame => exact congrArg (·.answer .ok 64) (acceptFrame_frame s)

/-- The two bytes where the marker should be, as a number (R107, R183). -/
theorem markerFound_span (m : Memory) {n : Nat} (h : 2 ≤ n) :
    markerFound (m.span 0 n) = BitVec.ofNat 32 ((m.byte 0).toNat + 256 * (m.byte 1).toNat) := by
  have h0 : byteAt (m.span 0 n) 0 = m.byte 0 := (Memory.byteAt_span m 0 n 0).trans (if_pos (by omega))
  have h1 : byteAt (m.span 0 n) 1 = m.byte 1 := (Memory.byteAt_span m 0 n 1).trans (if_pos (by omega))
  rw [← h0, ← h1, ← toNat_un16]
  exact (BitVec.ofNat_toNat 32 _).symm

/-- Settles O30. -/
theorem fdecRejectsRead : Obligations.FdecRejectsRead := by
  unfold Obligations.FdecRejectsRead
  refine fun s hl hle => ⟨exec_fdec_of_hasShortRead hl hle, fun hk => ?badMarker⟩
  case badMarker =>
    have hlen : 64 ≤ s.linlen.toNat := hk.2.1
    have hbytes : 2 ≤ s.linlen.toNat := by omega
    rw [← markerFound_span s.lin hbytes]
    exact exec_fdec_of_hasBadMarker hl hle hk

/-! ### A frame delivered by the link -/

theorem execAll_ldlin {b : Bytes} (h : b.length ≤ Config.rxmax) (rest : List Instr) (s : State) :
    execAll (ldlin b ++ rest) s = execAll rest (s.loadedLin b) := by
  rw [ldlin, List.append_assoc,
    execAll_storeBytes (sp := .lin) rfl b 0 s ((Nat.zero_add _).trans_le h) rxmax_le_addresses]
  exact execAll_of_exec (exec_csrw_linlen h _) rest

@[simp] theorem State.loadedLin_ctrl (s : State) (b : Bytes) : (s.loadedLin b).ctrl = s.ctrl := rfl

@[simp] theorem State.loadedLin_linkup (s : State) (b : Bytes) : (s.loadedLin b).linkup = s.linkup := rfl

@[simp] theorem State.loadedLin_rxf (s : State) (b : Bytes) : (s.loadedLin b).rxf = s.rxf := rfl

theorem byte_lin_loadedLin (hwf : s.lin.wf) (b : Bytes) {a : Nat} (ha : a < b.length) :
    (s.loadedLin b).lin.byte a = byteAt b a :=
  (byte_storeSpan_zero hwf b a).trans (if_pos ha)

variable {plen rssi : Byte} {p : Bytes}

theorem length_linkRead_le (hp : p.length = 64) (ctrl : BitVec 1) (plen rssi : Byte) :
    (linkRead ctrl plen rssi p).length ≤ Config.rxmax := by
  have := rxmax_ge
  unfold linkRead
  split
  · simp only [List.length_append, List.length_cons, List.length_nil]
    omega
  · omega

/-- A delivered payload is a read that holds a frame, with that payload, and with `ENV = 1` the two envelope bytes. -/
theorem loadedLin_linkRead (hwf : s.lin.wf) (hp : p.length = 64) (plen rssi : Byte) {t : State}
    (ht : t = s.loadedLin (linkRead s.ctrl plen rssi p)) :
    t.linlen.toNat ≤ Config.rxmax ∧ t.hasFrame ∧ t.readPayload = p ∧
      (s.ctrl = 1 → t.readByte .lin 2 = plen ∧ t.readByte .lin 3 = rssi) := by
  have hfits := length_linkRead_le hp s.ctrl plen rssi
  have hlen : t.linlen.toNat = (linkRead s.ctrl plen rssi p).length := by rw [ht, toNat_linlen_loadedLin hfits]
  have hbyte {a : Nat} (ha : a < (linkRead s.ctrl plen rssi p).length) :
      t.lin.byte a = byteAt (linkRead s.ctrl plen rssi p) a := by rw [ht, byte_lin_loadedLin hwf _ ha]
  have hctrl : t.ctrl = s.ctrl := by rw [ht]; rfl
  refine ⟨hlen.trans_le hfits, ?_⟩
  obtain h1 | h0 := ctrl_one_or_zero s
  · have hread : linkRead s.ctrl plen rssi p = [0x23, 0x52, plen, rssi] ++ p := if_pos h1
    rw [hread] at hlen hbyte
    simp only [List.length_append, List.length_cons, List.length_nil, hp] at hlen hbyte
    have hat : t.payloadAt = 4 := if_pos (hctrl.trans h1)
    refine ⟨.inl ⟨hctrl.trans h1, by omega, hbyte (by omega), hbyte (by omega)⟩, ?_,
      fun _ => ⟨hbyte (by omega), hbyte (by omega)⟩⟩
    refine ext_byteAt (by simp [State.readPayload, hp]) fun i hi => ?_
    rw [State.readPayload, Memory.length_span] at hi
    rw [State.readPayload, Memory.byteAt_span, if_pos hi, hat, hbyte (by omega), byteAt_append, if_neg (by simp)]
    simp
  · have hne : ¬ s.ctrl = 1 := by rw [h0]; decide
    have hread : linkRead s.ctrl plen rssi p = p := if_neg hne
    rw [hread] at hlen hbyte
    have hat : t.payloadAt = 0 := if_neg (by rw [hctrl]; exact hne)
    refine ⟨.inr ⟨hctrl.trans h0, by omega⟩, ?_, fun h => absurd h hne⟩
    refine ext_byteAt (by simp [State.readPayload, hp]) fun i hi => ?_
    rw [State.readPayload, Memory.length_span] at hi
    rw [State.readPayload, Memory.byteAt_span, if_pos hi, hat, Nat.zero_add, hbyte (by omega)]

end

/-! ### Loop-back -/

/-- The state after FENC and FTX of a payload that fits, the link being up. -/
def State.sent (s : State) (ch : BitVec 4) : State :=
  let u := (s.loadTx ch (pad 64 s.contents)).answer .ok (s.srclen.setWidth 32)
  (u.linkWrites (txWrites u.txFrameRecord)).answer .ok 64

@[simp] theorem State.sent_ctrl (s : State) (ch : BitVec 4) : (s.sent ch).ctrl = s.ctrl := rfl

@[simp] theorem State.sent_linkup (s : State) (ch : BitVec 4) : (s.sent ch).linkup = s.linkup := rfl

@[simp] theorem State.sent_txf (s : State) (ch : BitVec 4) :
    (s.sent ch).txf = (s.loadTx ch (pad 64 s.contents)).txf := rfl

@[simp] theorem State.sent_rxf (s : State) (ch : BitVec 4) : (s.sent ch).rxf = s.rxf := rfl

theorem execAll_fenc_ftx {s : State} (hfits : s.srclen.toNat ≤ 64) (hl : s.linkup = true) (ch : BitVec 4) :
    execAll [.fenc ch, .ftx] s = .next (s.sent ch) := by
  have hftx := exec_ftx_of_txfv (t := (s.loadTx ch (pad 64 s.contents)).answer .ok (s.srclen.setWidth 32)) rfl hl
  exact (execAll_of_exec (exec_fenc_of_fits hfits ch) _).trans (execAll_of_exec hftx [])

theorem getElem?_lout_sent (s : State) (ch : BitVec 4) :
    (s.sent ch).lout[s.lout.length + 2]? = some (s.sent ch).txFrame :=
  (List.getElem?_append_right (Nat.le_add_right _ 2)).trans (by rw [Nat.add_sub_cancel_left]; rfl)

theorem byte_txf_sent {s : State} (hwf : s.txf.wf) (hfits : s.srclen.toNat ≤ 64) (ch : BitVec 4) {i : Nat}
    (hi : i < s.srclen.toNat) : (s.sent ch).txf.byte i = s.src.byte i := by
  have hbyte := byte_loadTx_pad hwf ch ((length_contents s).trans_le hfits) i
  rw [State.sent_txf, hbyte, length_contents, if_pos hi, State.contents, Memory.byteAt_span, if_pos hi, Nat.zero_add]

/-- Settles O31: the third write is TXF, and FDEC of it as a read puts it into RXF. -/
theorem loopBackReturnsFrame : Obligations.LoopBackReturnsFrame := by
  unfold Obligations.LoopBackReturnsFrame
  intro ch plen rssi s hm hfits hl
  let w := (s.sent ch).txFrame
  have hw : w.length = 64 := length_txFrame (s.sent ch)
  obtain ⟨t, ht⟩ : ∃ t, t = (s.sent ch).loadedLin (linkRead s.ctrl plen rssi w) := ⟨_, rfl⟩
  obtain ⟨hle, hframe, hpayload, henv⟩ := loadedLin_linkRead (s := s.sent ch) hm.lin.1 hw plen rssi ht
  have hdecoded := exec_fdec_of_hasFrame (by rw [ht, State.loadedLin_linkup, State.sent_linkup, hl]) hle hframe
  have hrun : execAll (ldlin (linkRead s.ctrl plen rssi w) ++ [.fdec]) (s.sent ch) =
      .next ((t.acceptFrame t.deframed).answer .ok 64) := by
    rw [execAll_ldlin (length_linkRead_le hw ..), ← ht]
    exact execAll_of_exec hdecoded []
  have hrxf : t.rxf.wf := by rw [ht, State.loadedLin_rxf, State.sent_rxf]; exact hm.rxf.1
  have hback {i : Nat} (hi : i < 64) :
      ((t.acceptFrame t.deframed).answer .ok 64).readByte .fb (64 + i) = (s.sent ch).readByte .fb i := by
    rw [readByte_fb_of_ge _ (by omega), State.answer_rxf, State.acceptFrame_rxf, deframed_raw, hpayload,
      byte_storeSpan_zero hrxf, Nat.add_sub_cancel_left, if_pos (by omega), byteAt_txFrame _ hi]
  refine ⟨s.sent ch, w, _, execAll_fenc_ftx hfits hl ch, getElem?_lout_sent s ch, hrun,
    fun i hi => ⟨hback hi, getElem?_txFrame _ hi⟩, fun i hi => ?payload, by simp, fun hc => ?envelope⟩
  case payload =>
    rw [hback (by omega), readByte_fb_of_lt _ (by omega), byte_txf_sent hm.txf.1 hfits ch hi]
    rfl
  case envelope =>
    have hsent : (s.sent ch).ctrl = 1 := (State.sent_ctrl s ch).trans hc
    obtain ⟨h2, h3⟩ := henv hsent
    have hctrl : t.ctrl = 1 := by rw [ht, State.loadedLin_ctrl, hsent]
    rw [acceptFrame_frame]
    simp [State.rplenAfterRead, State.rrssiAfterRead, hctrl, h2, h3]

end Sys2Proof.Machine
end

section
/-! The packet serializer and deserializer HENC, IENC, HDEC, IDEC and the message types (R120 to R128), and the splitter
SBEG, SNXT and the split function (R140 to R143). -/

namespace Sys2Proof.Machine

section
variable {s : State}

/-! ### Packets laid out in TXF -/

/-- The bytes of a head, one byte and a tail. -/
theorem byteAt_layout_eq (pre : Bytes) (b : Byte) (tail : Bytes) (a : Nat) :
    byteAt (pre ++ [b] ++ tail) a =
      if a < pre.length then byteAt pre a else if a = pre.length then b else byteAt tail (a - (pre.length + 1)) := by
  rw [List.append_assoc, byteAt_append]
  by_cases hpre : a < pre.length
  · rw [if_pos hpre, if_pos hpre]
  · rw [if_neg hpre, if_neg hpre, byteAt_append]
    by_cases hb : a = pre.length
    · simp [hb, byteAt]
    · have hlen : ¬ a - pre.length < [b].length := by rw [List.length_singleton]; omega
      rw [if_neg hb, if_neg hlen, List.length_singleton, Nat.sub_sub]

/-- TXF after a packet was encoded: the head, the type, the first SRCLEN bytes of SRC, zeros to the frame's end. -/
theorem byte_loadTx_layout (hwf : s.txf.wf) (ch : BitVec 4) (pre : Bytes) (mt : Byte)
    (hfits : pre.length + 1 + s.srclen.toNat ≤ 64) (a : Nat) :
    (s.loadTx ch (pad 64 (pre ++ [mt] ++ s.contents))).txf.byte a =
      if a < pre.length then byteAt pre a else if a = pre.length then mt
      else if a < pre.length + 1 + s.srclen.toNat then s.src.byte (a - (pre.length + 1))
      else if a < 64 then 0 else s.txf.byte a := by
  have hlen : (pre ++ [mt] ++ s.contents).length = pre.length + 1 + s.srclen.toNat := by
    rw [List.length_append, List.length_append, List.length_singleton, length_contents]
  rw [byte_loadTx_pad hwf ch (hlen.trans_le hfits), hlen, byteAt_layout_eq]
  by_cases hpre : a < pre.length
  · rw [if_pos (by omega), if_pos hpre, if_pos hpre]
  · rw [if_neg hpre, if_neg hpre]
    by_cases hmt : a = pre.length
    · rw [if_pos (by omega), if_pos hmt, if_pos hmt]
    · rw [if_neg hmt, if_neg hmt]
      by_cases hbody : a < pre.length + 1 + s.srclen.toNat
      · rw [if_pos hbody, if_pos hbody, State.contents, Memory.byteAt_span, if_pos (by omega), Nat.zero_add]
      · rw [if_neg hbody, if_neg hbody]

theorem byteAt_le32 (v : BitVec 32) {a : Nat} (h : a < 4) : byteAt (le32 v) a = v.extractLsb' (8 * a) 8 := by
  interval_cases a <;> rfl

theorem byteAt_le16 (v : BitVec 16) {a : Nat} (h : a < 2) : byteAt (le16 v) a = v.extractLsb' (8 * a) 8 := by
  interval_cases a <;> rfl

theorem encodePayload_fits {ch : BitVec 4} {p : Bytes} {n : Nat} (hlen : p.length = n) (h : n ≤ 64) (s : State) :
    encodePayload ch p s = .next ((s.loadTx ch (pad 64 p)).answer .ok (BitVec.ofNat 32 n)) := by
  subst hlen
  exact encodePayload_of_le h

/-- Settles O32: the head is the address, of 4 bytes. -/
theorem hencBuildsHeader : Obligations.HencBuildsHeader := by
  unfold Obligations.HencBuildsHeader
  intro ch mt s hwf hfits
  have hcap := bufcap_ge
  have hlen : (headerPayload (le32 s.taddr) mt s.contents).length = 5 + s.srclen.toNat := by simp
  have hexec : exec (.henc ch mt) s = _ :=
    (exec_henc_of_srclen_le (by omega) ch mt).trans (encodePayload_fits hlen (by omega) s)
  refine ⟨_, hexec, Memory.wf_storeSpan hwf 0 _, fun a => ?bytes, rfl⟩
  case bytes =>
    rw [State.answer_txf, headerPayload, byte_loadTx_layout hwf ch _ mt (by rw [length_le32]; omega), length_le32]
    by_cases h : a < 4
    · rw [if_pos h, if_pos h, byteAt_le32 _ h]
    · rw [if_neg h, if_neg h]

/-- Settles O33: the head is the countdown, of 2 bytes. -/
theorem iencBuildsPacket : Obligations.IencBuildsPacket := by
  unfold Obligations.IencBuildsPacket
  intro ch mt s hwf hfits
  have hcap := bufcap_ge
  have hlen : (infoPayload s.tcd mt s.contents).length = 3 + s.srclen.toNat := by simp
  have hexec : exec (.ienc ch mt) s = _ :=
    (exec_ienc_of_srclen_le (by omega) ch mt).trans (encodePayload_fits hlen (by omega) s)
  refine ⟨_, hexec, Memory.wf_storeSpan hwf 0 _, fun a => ?bytes, rfl⟩
  case bytes =>
    rw [State.answer_txf, infoPayload, byte_loadTx_layout hwf ch _ mt (by rw [length_le16]; omega), length_le16]
    by_cases h : a < 2
    · rw [if_pos h, if_pos h, byteAt_le16 _ h]
    · rw [if_neg h, if_neg h]

/-! ### Packets parsed from RXF -/

theorem byteAt_rxFrame (s : State) {i : Nat} (h : i < 64) : byteAt s.rxFrame i = s.readByte .fb (64 + i) := by
  rw [readByte_fb_of_ge s (by omega), State.rxFrame, Config.frameLen, Memory.byteAt_span, if_pos h, Nat.zero_add,
    Nat.add_sub_cancel_left]

theorem byteAt_slice_rxFrame (s : State) {i n : Nat} (hi : i < n) (hn : n ≤ 64) :
    byteAt (slice s.rxFrame 0 n) i = s.readByte .fb (64 + i) := by
  rw [byteAt_slice, Nat.sub_zero, if_pos hi, Nat.zero_add, byteAt_rxFrame s (by omega)]

theorem extractLsb'_un32 (b : Bytes) {i : Nat} (h : i < 4) : (un32 b).extractLsb' (8 * i) 8 = byteAt b i := by
  refine BitVec.eq_of_getLsbD_eq fun j hj => ?_
  simp only [un32, BitVec.getLsbD_extractLsb', BitVec.getLsbD_append]
  interval_cases i <;> interval_cases j <;> simp

theorem exec_hdec_of_rxfv (h : s.rxfv = true) :
    exec .hdec s = .next ((s.takeHeader s.rxFrame).answer .ok (un32 (headerParse s.rxFrame).1)) :=
  if_neg (by simp [h])

theorem exec_idec_of_rxfv (h : s.rxfv = true) :
    exec .idec s = .next ((s.takeInfo s.rxFrame).answer .ok ((infoParse s.rxFrame).1.setWidth 32)) :=
  if_neg (by simp [h])

/-- Settles O34. -/
theorem hdecParsesHeader : Obligations.HdecParsesHeader := by
  unfold Obligations.HdecParsesHeader
  intro s hv
  refine ⟨_, exec_hdec_of_rxfv hv, fun i hi => ?addr, byteAt_rxFrame (i := 4) s (by decide), rfl⟩
  case addr => exact (extractLsb'_un32 _ hi).trans (byteAt_slice_rxFrame s hi (by decide))

/-- Settles O35. -/
theorem idecParsesPacket : Obligations.IdecParsesPacket := by
  unfold Obligations.IdecParsesPacket
  intro s hv
  refine ⟨_, exec_idec_of_rxfv hv, ?countdown, byteAt_rxFrame (i := 2) s (by decide), rfl⟩
  case countdown =>
    rw [State.answer_rcd, State.takeInfo_rcd, infoParse, toNat_un16,
      byteAt_slice_rxFrame s (by decide) (by decide), byteAt_slice_rxFrame s (by decide) (by decide)]

end

/-! ### Message types -/

theorem mem_messageTypes (t : MessageType) : t ∈ messageTypes := by cases t <;> decide

/-- Settles O37: every name is searched, and by injectivity the first with the code is the only one. -/
theorem messageTypesClassified : Obligations.MessageTypesClassified := by
  unfold Obligations.MessageTypesClassified
  rintro mtcode ⟨hinj, hpong⟩
  have hclassify : ∀ b t, mtClassify mtcode b = some t ↔ mtcode t = b := by
    refine fun b t => ⟨fun h => ?sound, fun h => ?complete⟩
    case sound => simpa using List.find?_some h
    case complete =>
      have hfound : (mtClassify mtcode b).isSome := List.find?_isSome.2 ⟨t, mem_messageTypes t, by simpa using h⟩
      obtain ⟨u, hu⟩ := Option.isSome_iff_exists.1 hfound
      have hcode : mtcode u = b := by simpa using List.find?_some hu
      rw [hu, hinj u t (hcode.trans h.symm)]
  exact ⟨hclassify, (hclassify 6 .pong).2 hpong⟩

/-! ### SBEG -/

/-- The packet count of any SRCLEN fits the 17 bits of SN. -/
theorem toNat_sn_beginSplit_any (s : State) (mt : Byte) : (s.beginSplit mt).sn.toNat = s.packets := by
  have hsrclen := s.srclen.isLt
  have hpackets : s.packets ≤ 131071 := (ceilDiv_le_iff (by decide)).2 (by omega)
  exact (BitVec.toNat_ofNat ..).trans (Nat.mod_eq_of_lt (Nat.lt_succ_of_le hpackets))

/-- Settles O38. -/
theorem sbegBeginsSplit : Obligations.SbegBeginsSplit := by
  unfold Obligations.SbegBeginsSplit
  intro mt s
  have hsn := toNat_sn_beginSplit_any s mt
  refine ⟨_, rfl, ?enough, fun q hq => ?least, rfl⟩
  case enough =>
    rw [State.answer_sn, hsn, Nat.mul_comm]
    exact le_ceilDiv_mul _
  case least =>
    rw [State.answer_sn, hsn]
    exact (ceilDiv_le_iff (by decide)).2 (by omega)

/-! ### SNXT -/

section
variable {s : State}

theorem exec_snxt_of_active (hs : SplitInv s) (hslen : s.slen.toNat ≤ Config.bufcap) (hactive : s.sk.toNat < s.sn.toNat)
    (ch : BitVec 4) :
    exec (.snxt ch) s = .next ((s.produce ch s.sliced).answer .ok
      (s.nextCountdown.setWidth 32)) := by
  have hsplit : s.splitActive = true := decide_eq_true hactive
  simp only [exec, execSnxt, hsplit, srcSpan_slice hs hslen hactive, Bool.true_eq_false, if_false, respond_eq]

theorem toNat_nextCountdown (hs : SplitInv s) (hactive : s.sk.toNat < s.sn.toNat) :
    s.nextCountdown.toNat = s.sn.toNat - 1 - s.sk.toNat := by
  have := hs.sn_le
  exact (BitVec.toNat_ofNat ..).trans (Nat.mod_eq_of_lt (by omega))

theorem byte_produce_txf (hwf : s.txf.wf) (ch : BitVec 4) {chunk : Bytes} (hchunk : chunk.length ≤ 61) (a : Nat) :
    (s.produce ch chunk).txf.byte a =
      if a < 64 then byteAt (infoPayload s.nextCountdown s.smt chunk) a else s.txf.byte a := by
  rw [State.produce_txf, byte_storeSpan_zero hwf, length_pad_of_le (by rw [length_infoPayload]; omega), byteAt_pad]

theorem byteAt_infoPayload_chunk (cd : BitVec 16) (mt : Byte) (chunk : Bytes) (j : Nat) :
    byteAt (infoPayload cd mt chunk) (3 + j) = byteAt chunk j := by
  rw [infoPayload, byteAt_layout_eq, length_le16, if_neg (by omega), if_neg (by omega), Nat.add_sub_cancel_left]

/-- The first two bytes of an information packet, as a number (R11, R122). -/
theorem toNat_infoPayload_countdown (cd : BitVec 16) (mt : Byte) (chunk : Bytes) :
    (byteAt (infoPayload cd mt chunk) 0).toNat + 256 * (byteAt (infoPayload cd mt chunk) 1).toNat = cd.toNat := by
  rw [infoPayload, byteAt_layout_eq, byteAt_layout_eq, length_le16, if_pos Nat.zero_lt_two, if_pos Nat.one_lt_two,
    ← toNat_un16, un16_le16]

/-- Byte `j` of the slice SNXT cuts: SRC as far as SLEN (R143). -/
theorem byteAt_sliced (s : State) {j : Nat} (hj : j < 61) :
    byteAt s.sliced j =
      if 61 * s.sk.toNat + j < s.slen.toNat then s.src.byte (61 * s.sk.toNat + j) else 0 := by
  rw [State.sliced, Memory.byteAt_span]
  by_cases hin : 61 * s.sk.toNat + j < s.slen.toNat
  · rw [if_pos hin, if_pos (by unfold State.sliceHi State.sliceLo; omega), State.sliceLo]
  · rw [if_neg hin, if_neg (by unfold State.sliceHi State.sliceLo; omega)]

/-- Settles O39: TXF is the padded packet, read byte by byte. -/
theorem snxtProducesPacket : Obligations.SnxtProducesPacket := by
  unfold Obligations.SnxtProducesPacket
  intro ch s hs hslen hwf hactive
  have hbyte := byte_produce_txf hwf ch (length_sliced_le s)
  have hcountdown := toNat_nextCountdown hs hactive
  have hanswer : s.nextCountdown.setWidth 32 = BitVec.ofNat 32 (s.sn.toNat - 1 - s.sk.toNat) := by
    rw [← hcountdown]
    exact (BitVec.ofNat_toNat 32 s.nextCountdown).symm
  have hexec := exec_snxt_of_active hs hslen hactive ch
  rw [hanswer] at hexec
  refine ⟨_, hexec, Memory.wf_storeSpan hwf 0 _, ?countdown, ?type, fun j hj => ?chunk, fun a ha => ?beyond,
    toNat_sk_produce hs hactive ch s.sliced, rfl⟩
  case countdown =>
    rw [State.answer_txf, hbyte, hbyte, if_pos (by decide), if_pos (by decide), toNat_infoPayload_countdown, hcountdown]
  case type => rw [State.answer_txf, hbyte, if_pos (by decide), infoPayload, byteAt_layout_eq]; rfl
  case chunk => rw [State.answer_txf, hbyte, if_pos (by omega), byteAt_infoPayload_chunk, byteAt_sliced s hj]
  case beyond => rw [State.answer_txf, hbyte, if_neg (by omega)]

/-- Settles O40. -/
theorem snxtRefusedWithoutSplit : Obligations.SnxtRefusedWithoutSplit := by
  unfold Obligations.SnxtRefusedWithoutSplit
  intro ch s h
  have hinactive : s.splitActive = false := decide_eq_false (Nat.not_lt.2 h)
  exact (if_pos hinactive).trans (refuse_state rfl s)

end

/-! ### The split function -/

/-- Cutting at the end of the string or beyond it is the same. -/
theorem slice_min_length (c : Bytes) (a b : Nat) : slice c a (min b c.length) = slice c a b := by
  rw [slice, slice, List.take_eq_take_iff, List.length_drop]
  omega

theorem length_splitPacket_chunk (mt : Byte) (c : Bytes) (k : Nat) :
    (splitPacket mt c k).chunk.length = min (61 * (k + 1)) c.length - 61 * k := by
  rw [splitPacket, length_slice]
  omega

/-- Settles O41: packet `k` is the slice from `61 * k`, whole but for the last, and the slices joined are the string. -/
theorem splitCountsDown : Obligations.SplitCountsDown := by
  unfold Obligations.SplitCountsDown
  intro mt c
  have hcover := le_ceilDiv_mul c.length
  refine ⟨?countdowns, fun p hp => ?packet, ?contents⟩
  case countdowns =>
    rw [split, List.map_map, List.range_eq_range', List.reverse_range', ← List.range_eq_range', Nat.zero_add]
    rfl
  case packet =>
    obtain ⟨k, hk, rfl⟩ := List.mem_map.1 hp
    have hk := List.mem_range.1 hk
    have hstart : 61 * k < c.length := lt_ceilDiv_iff.1 hk
    have hcountdown : (splitPacket mt c k).countdown = ceilDiv c.length 61 - 1 - k := rfl
    have hlen := length_splitPacket_chunk mt c k
    refine ⟨rfl, fun hne => ?whole, fun hzero => ?last⟩
    case whole =>
      have hnext : 61 * (k + 1) < c.length := lt_ceilDiv_iff.1 (by omega)
      omega
    case last =>
      have hlast : ceilDiv c.length 61 = k + 1 := by omega
      rw [hlast] at hcover ⊢
      omega
  case contents =>
    calc (split mt c).flatMap (·.chunk)
        = (List.range (ceilDiv c.length 61)).flatMap (fun k => slice c (61 * k) (61 * k + 61)) := by
          rw [split, List.flatMap_map]
          exact List.flatMap_congr fun k _ => slice_min_length c (61 * k) (61 * (k + 1))
      _ = c := by rw [flatMap_range_slice, List.take_of_length_le (by omega)]

end Sys2Proof.Machine
end

section
/-! Reassembly, operation by operation (R152 to R155): RBEG, and RPSH by the kind of the read. What RPSH makes of a
transfer is one row of R152's table, applied to the state with the read counted. -/

namespace Sys2Proof.Machine

/-- Settles O43. -/
theorem rbegBeginsTransfer : Obligations.RbegBeginsTransfer := fun _ => rfl

/-- Settles O44. -/
theorem rpshRefusedUnlessActive : Obligations.RpshRefusedUnlessActive := by
  unfold Obligations.RpshRefusedUnlessActive
  intro s hp
  have hinactive : s.phase ≠ .active := by
    obtain hp | hp := hp
    · simp [hp]
    · simp [hp]
  exact (if_pos hinactive).trans (refuse_state rfl s)

/-! ### A row of R152's table applied to a state -/

/-- The state a row of R152's table leaves: phase, cause, flags and response (R154). -/
def State.endedAs (s : State) (e : TransferEnd) : State :=
  { s with phase := e.phase, cause := e.cause, sticky := s.sticky ||| e.flags,
           responses := s.responses ++ [⟨e.code, e.rdata⟩] }

section
variable {s : State}

theorem or_no_flags (s : State) : s.sticky ||| (0 : BitVec 7) = s.sticky := BitVec.or_zero

/-- RSTATE of an ended transfer as a number: PH 2 in bits 1:0, the cause from bit 4 on (R47). -/
theorem rstate_endTransfer (s : State) (c : Cause) :
    (s.endTransfer c).rstate = BitVec.ofNat 32 (2 + 16 * c.bits.toNat) :=
  BitVec.eq_of_toNat_eq ((toNat_rstate _).trans (by cases c <;> rfl))

/-- A stop condition ends the transfer with OK and the new RSTATE (R155). -/
theorem stopped_eq (s : State) (c : Cause) :
    s.stopped c = s.endedAs { phase := .ended, cause := c, flags := 0, code := .ok,
                              rdata := BitVec.ofNat 32 (2 + 16 * c.bits.toNat) } := by
  rw [State.stopped, rstate_endTransfer, State.endedAs, or_no_flags]
  rfl

/-- A cap ends the transfer with `IncompleteTransfer`, `ICT` and the new RSTATE (R155). -/
theorem capped_eq (s : State) (c : Cause) :
    s.capped c = s.endedAs { phase := .ended, cause := c, flags := 0x04, code := .incompleteTransfer,
                             rdata := BitVec.ofNat 32 (2 + 16 * c.bits.toNat) } := by
  rw [State.capped, rstate_endTransfer]
  rfl

/-- The read-cap test is the last two rows of R152's table. -/
theorem testReadCap_eq (hp : s.phase = .active) (hc : s.cause = .none) :
    testReadCap s = .next (s.endedAs (endByReads s.rcap.toNat s.rreads.toNat)) := by
  have hrcap : s.rcap ≠ 0 ↔ s.rcap.toNat ≠ 0 := not_congr BitVec.toNat_inj.symm
  unfold testReadCap endByReads
  by_cases hcap : s.rcap.toNat ≠ 0 ∧ s.rcap.toNat ≤ s.rreads.toNat
  · rw [if_pos hcap, if_pos ⟨hrcap.2 hcap.1, hcap.2⟩]
    exact congrArg _ (capped_eq s .readCap)
  · have hstate : s.rstate = 0x01 := by rw [State.rstate, hp, hc]; rfl
    rw [if_neg hcap, if_neg fun h => hcap ⟨hrcap.1 h.1, h.2⟩, hstate, State.endedAs, or_no_flags, ← hp, ← hc]
    rfl

/-- A payload that is no sentinel: append, then the rows of R152's table in their order. -/
theorem pushPacket_eq (hp : s.phase = .active) (hc : s.cause = .none) (hfit : s.rslen.toNat + s.kept ≤ Config.bufcap)
    (p : Bytes) :
    pushPacket p s = .next ((s.append p).endedAs
      (endByPacket (infoParse p).1.toNat (s.append p).rslen.toNat s.rlencap.toNat s.rcap.toNat s.rreads.toNat)) := by
  have hzero : (infoParse p).1 = 0 ↔ (infoParse p).1.toNat = 0 := BitVec.toNat_inj.symm
  unfold pushPacket endByPacket
  rw [if_neg (show ¬ ¬ inSpace .rsb s.rslen.toNat s.kept from not_not.2 hfit)]
  by_cases hlast : (infoParse p).1.toNat = 0
  · rw [if_pos (hzero.2 hlast), if_pos hlast]
    exact congrArg _ (stopped_eq (s.append p) .terminal)
  · rw [if_neg (mt hzero.1 hlast), if_neg hlast]
    by_cases hcap : s.rlencap.toNat ≤ (s.append p).rslen.toNat
    · rw [if_pos hcap]
      exact (if_pos hcap).trans (congrArg _ (capped_eq (s.append p) .lenCap))
    · rw [if_neg hcap]
      exact (if_neg hcap).trans (testReadCap_eq hp hc)

/-! ### RPSH, by the kind of the read -/

/-- RPSH in an active transfer with the link up pushes the read in LIN (R154). -/
theorem exec_rpsh_of_active (hp : s.phase = .active) (hl : s.linkup = true) (hle : s.linlen.toNat ≤ Config.rxmax) :
    exec .rpsh s = pushRead (s.lin.span 0 s.linlen.toNat) s.countRead := by
  simp only [exec, execRpsh, hp, hl, linRead_of_le hle, ne_eq, not_true_eq_false, Bool.true_eq_false, if_false]

theorem pushRead_of_hasShortRead (hk : s.hasShortRead) :
    pushRead (s.lin.span 0 s.linlen.toNat) s.countRead = .next ((s.countRead.setFlag .fts).stopped .short) := by
  have hdeframe : deframe s.countRead.env s.countRead.rxch (s.lin.span 0 s.linlen.toNat) = .error .frameTooShort :=
    deframe_of_hasShortRead hk
  simp only [pushRead, hdeframe]
  rfl

theorem pushRead_of_hasBadMarker (hk : s.hasBadMarker) :
    pushRead (s.lin.span 0 s.linlen.toNat) s.countRead = testReadCap (s.countRead.setFlag .bmk) := by
  have hdeframe : deframe s.countRead.env s.countRead.rxch (s.lin.span 0 s.linlen.toNat) = .error .badMarker :=
    deframe_of_hasBadMarker hk
  simp only [pushRead, hdeframe]

theorem pushRead_of_hasFrame (hk : s.hasFrame) :
    pushRead (s.lin.span 0 s.linlen.toNat) s.countRead =
      if Config.sent s.readPayload = true then .next (s.taken.stopped .sentinel) else pushPacket s.readPayload s.taken := by
  have hdeframe : deframe s.countRead.env s.countRead.rxch (s.lin.span 0 s.linlen.toNat) = .ok s.deframed :=
    deframe_of_hasFrame hk
  simp only [pushRead, hdeframe]
  rfl

/-- Settles O45. -/
theorem rpshShortReadEnds : Obligations.RpshShortReadEnds := by
  unfold Obligations.RpshShortReadEnds
  intro s hp hl hle hk
  have hpush := pushRead_of_hasShortRead hk
  rw [stopped_eq] at hpush
  exact ⟨_, (exec_rpsh_of_active hp hl hle).trans hpush, satSucc_toNat s.rreads, by rw [State.endedAs, or_no_flags]; rfl⟩

/-- Settles O46. -/
theorem rpshBadMarkerDiscards : Obligations.RpshBadMarkerDiscards := by
  unfold Obligations.RpshBadMarkerDiscards
  intro s hp hc hl hle hk
  have hpush := (pushRead_of_hasBadMarker hk).trans (testReadCap_eq (s := s.countRead.setFlag .bmk) hp hc)
  exact ⟨_, (exec_rpsh_of_active hp hl hle).trans hpush, satSucc_toNat s.rreads, rfl⟩

/-! ### RPSH of a frame -/

theorem byteAt_readPayload (s : State) {i : Nat} (h : i < 64) : byteAt s.readPayload i = s.lin.byte (s.payloadAt + i) := by
  rw [State.readPayload, Memory.byteAt_span, if_pos h]

/-- The countdown of the packet in the read (R123). -/
theorem toNat_infoParse_readPayload (s : State) :
    (infoParse s.readPayload).1.toNat = (s.lin.byte s.payloadAt).toNat + 256 * (s.lin.byte (s.payloadAt + 1)).toNat := by
  have h0 := byteAt_readPayload s (i := 0) (by decide)
  have h1 := byteAt_readPayload s (i := 1) (by decide)
  rw [infoParse, toNat_un16, byteAt_slice, byteAt_slice, if_pos (by decide), if_pos (by decide), h0, h1, Nat.add_zero]

/-- Byte `j` of the chunk of a packet as it is parsed (R123). -/
theorem byteAt_infoParse_chunk (p : Bytes) {j : Nat} (h : j < 61) : byteAt (infoParse p).2.2 j = byteAt p (3 + j) := by
  rw [infoParse, byteAt_slice, if_pos (by omega)]

theorem length_infoParse_chunk {p : Bytes} (hp : p.length = 64) : (infoParse p).2.2.length = 61 := by
  rw [infoParse, length_slice]
  omega

/-- RSB after an append: the bytes kept of the chunk from RSLEN on, and nothing else changed (R154). -/
theorem byte_append_rsb (hwf : s.rsb.wf) {p : Bytes} (hp : p.length = 64) (a : Nat) :
    (s.append p).rsb.byte a =
      if s.rslen.toNat ≤ a ∧ a < s.rslen.toNat + s.kept then byteAt p (3 + (a - s.rslen.toNat)) else s.rsb.byte a := by
  have hkept := kept_le_chunk s
  have hlen : ((infoParse p).2.2.take s.kept).length = s.kept := by
    rw [List.length_take, length_infoParse_chunk hp]
    omega
  rw [State.append_rsb, Memory.byte_storeSpan hwf, hlen]
  by_cases hin : s.rslen.toNat ≤ a ∧ a < s.rslen.toNat + s.kept
  · rw [if_pos hin, if_pos hin, byteAt_take, if_pos (by omega), byteAt_infoParse_chunk p (by omega)]
  · rw [if_neg hin, if_neg hin]

@[simp] theorem length_readPayload (s : State) : s.readPayload.length = 64 := Memory.length_span ..

@[simp] theorem State.taken_rxf (s : State) : s.taken.rxf = s.rxf.storeSpan 0 s.readPayload := State.acceptFrame_rxf ..

@[simp] theorem State.taken_rsb (s : State) : s.taken.rsb = s.rsb := State.acceptFrame_rsb ..

@[simp] theorem State.taken_rreads (s : State) : s.taken.rreads = satSucc s.rreads := State.acceptFrame_rreads ..

@[simp] theorem State.taken_rpkts (s : State) : s.taken.rpkts = s.rpkts := State.acceptFrame_rpkts ..

@[simp] theorem State.taken_phase (s : State) : s.taken.phase = s.phase := State.acceptFrame_phase ..

@[simp] theorem State.taken_cause (s : State) : s.taken.cause = s.cause := State.acceptFrame_cause ..

@[simp] theorem State.taken_rlencap (s : State) : s.taken.rlencap = s.rlencap := State.acceptFrame_rlencap ..

@[simp] theorem State.taken_rcap (s : State) : s.taken.rcap = s.rcap := State.acceptFrame_rcap ..

/-- What taking a frame leaves, RXF apart. -/
theorem taken_frame (s : State) :
    s.taken = { s with rreads := s.taken.rreads, rxf := s.taken.rxf, rxfv := true, sticky := s.stickyAfterRead,
                       rplen := s.rplenAfterRead, rrssi := s.rrssiAfterRead } := by
  rw [taken_eq]

theorem append_frame_info (s : State) (p : Bytes) :
    s.append p = { s with rcd := (s.append p).rcd, rmt := byteAt p 2, rlast := (s.append p).rcd,
                          rpkts := (s.append p).rpkts, rsb := (s.append p).rsb, rslen := (s.append p).rslen } := rfl

/-- What taking a frame and appending its packet leaves, the memories and the counters apart. -/
theorem append_taken_frame {u : State} (hu : u = s.taken.append s.readPayload) :
    u = { s with rreads := u.rreads, rxf := u.rxf, rxfv := true, sticky := s.stickyAfterRead,
                 rplen := s.rplenAfterRead, rrssi := s.rrssiAfterRead, rcd := u.rcd,
                 rmt := s.lin.byte (s.payloadAt + 2), rlast := u.rcd, rpkts := u.rpkts, rslen := u.rslen,
                 rsb := u.rsb } := by
  have hinfo := append_frame_info s.taken s.readPayload
  rw [← hu, taken_frame, byteAt_readPayload s (by decide)] at hinfo
  have hrreads : u.rreads = s.taken.rreads := by rw [hu]; rfl
  have hrxf : u.rxf = s.taken.rxf := by rw [hu]; rfl
  rw [hrreads, hrxf]
  exact hinfo

/-- The response a sentinel leaves (R155). -/
theorem exec_rpsh_of_sentinel (hp : s.phase = .active) (hl : s.linkup = true) (hle : s.linlen.toNat ≤ Config.rxmax)
    (hk : s.hasFrame) (hsent : Config.sent s.readPayload = true) :
    exec .rpsh s = .next (s.taken.stopped .sentinel) := by
  rw [exec_rpsh_of_active hp hl hle, pushRead_of_hasFrame hk, if_pos hsent]

/-- RPSH of a packet (R154): taken, appended, and the row of R152's table that the new counters select. -/
theorem exec_rpsh_of_packet (hp : s.phase = .active) (hc : s.cause = .none) (hl : s.linkup = true)
    (hle : s.linlen.toNat ≤ Config.rxmax) (hk : s.hasFrame) (hsent : ¬ Config.sent s.readPayload = true)
    (hfit : s.rslen.toNat + s.kept ≤ Config.bufcap) {u : State} (hu : u = s.taken.append s.readPayload) :
    exec .rpsh s = .next (u.endedAs
      (endByPacket u.rcd.toNat u.rslen.toNat s.rlencap.toNat s.rcap.toNat u.rreads.toNat)) := by
  rw [exec_rpsh_of_active hp hl hle, pushRead_of_hasFrame hk, if_neg hsent,
    pushPacket_eq (by simpa using hp) (by simpa using hc) (by simpa using hfit), State.taken_rlencap, State.taken_rcap,
    hu, State.append_rcd, State.append_rreads]

/-- The counters after a packet was taken and appended. -/
theorem counters_append_taken {u : State} (hu : u = s.taken.append s.readPayload)
    (hfit : s.rslen.toNat + s.kept ≤ Config.bufcap) :
    u.rreads.toNat = min (s.rreads.toNat + 1) 4294967295 ∧ u.rpkts.toNat = min (s.rpkts.toNat + 1) 4294967295 ∧
      u.rslen.toNat = s.rslen.toNat + s.kept := by
  subst hu
  refine ⟨?reads, ?packets, toNat_rslen_append_taken hfit _⟩
  case reads => rw [State.append_rreads, State.taken_rreads, satSucc_toNat]
  case packets => rw [State.append_rpkts, State.taken_rpkts, satSucc_toNat]

@[simp] theorem State.endedAs_rxf (s : State) (e : TransferEnd) : (s.endedAs e).rxf = s.rxf := rfl

@[simp] theorem State.endedAs_rsb (s : State) (e : TransferEnd) : (s.endedAs e).rsb = s.rsb := rfl

@[simp] theorem State.endedAs_rslen (s : State) (e : TransferEnd) : (s.endedAs e).rslen = s.rslen := rfl

/-- RSB after a packet was taken and appended, in terms of LIN (R154). -/
theorem byte_rsb_append_taken (hwf : s.rsb.wf) {u : State} (hu : u = s.taken.append s.readPayload) (a : Nat) :
    u.rsb.byte a = if s.rslen.toNat ≤ a ∧ a < s.rslen.toNat + s.kept
      then s.lin.byte (s.payloadAt + 3 + (a - s.rslen.toNat)) else s.rsb.byte a := by
  have hkept := kept_le_chunk s
  have hwf_taken : s.taken.rsb.wf := by rwa [State.taken_rsb]
  rw [hu, byte_append_rsb hwf_taken (length_readPayload s), rslen_taken, kept_taken, State.taken_rsb]
  by_cases hin : s.rslen.toNat ≤ a ∧ a < s.rslen.toNat + s.kept
  · rw [if_pos hin, if_pos hin, byteAt_readPayload s (by omega), Nat.add_assoc]
  · rw [if_neg hin, if_neg hin]

/-- The state a sentinel leaves, RXF apart (R154). -/
theorem stopped_taken_frame (s : State) :
    s.taken.stopped .sentinel =
      { s with rxf := (s.taken.stopped .sentinel).rxf, rxfv := true, rplen := s.rplenAfterRead,
               rrssi := s.rrssiAfterRead, sticky := s.stickyAfterRead, rreads := (s.taken.stopped .sentinel).rreads,
               phase := .ended, cause := .sentinel, responses := s.responses ++ [⟨.ok, 0x32⟩] } := by
  have hstate : s.taken.stopped .sentinel = (s.taken.endTransfer .sentinel).answer .ok 0x32 := by
    rw [State.stopped, rstate_endTransfer]
    rfl
  rw [hstate]
  exact congrArg (fun u => (u.endTransfer .sentinel).answer .ok 0x32) (taken_frame s)

/-- Settles O47: a sentinel ends the transfer; a packet is appended and the counters select the row. -/
theorem rpshTakesFrame : Obligations.RpshTakesFrame := by
  unfold Obligations.RpshTakesFrame
  intro s hp hc hl hle hk hrslen hrlencap hm
  have hrxf := byte_storeSpan_readPayload hm.rxf.1
  have hrxf_wf : (s.rxf.storeSpan 0 s.readPayload).wf := Memory.wf_storeSpan hm.rxf.1 0 _
  by_cases hsent : Config.sent (s.lin.span s.payloadAt 64) = true
  case pos =>
    have hstop : (s.taken.stopped .sentinel).rxf = s.rxf.storeSpan 0 s.readPayload := s.taken_rxf
    refine ⟨_, exec_rpsh_of_sentinel hp hl hle hk hsent, ?wf, fun a => ?bytes, ?reads, ?frame⟩
    case wf => rw [hstop]; exact hrxf_wf
    case bytes => rw [hstop, hrxf]
    case reads => exact (congrArg BitVec.toNat s.taken_rreads).trans (satSucc_toNat _)
    case frame =>
      rw [if_pos hsent]
      exact stopped_taken_frame s
  case neg =>
    have hfit := kept_le hrslen hrlencap
    obtain ⟨u, hu⟩ : ∃ u, u = s.taken.append s.readPayload := ⟨_, rfl⟩
    obtain ⟨hrreads, hrpkts, hgrown⟩ := counters_append_taken hu hfit
    have htaken : u.rxf = s.rxf.storeSpan 0 s.readPayload := by rw [hu, State.append_rxf, State.taken_rxf]
    have hrcd : u.rcd = (infoParse s.readPayload).1 := by rw [hu, State.append_rcd]
    obtain ⟨e, he⟩ : ∃ e, e = endByPacket u.rcd.toNat u.rslen.toNat s.rlencap.toNat s.rcap.toNat u.rreads.toNat :=
      ⟨_, rfl⟩
    have hexec := exec_rpsh_of_packet hp hc hl hle hk hsent hfit hu
    rw [← he] at hexec
    refine ⟨_, hexec, ?wf, fun a => ?bytes, hrreads, ?packet⟩
    case wf => rw [State.endedAs_rxf, htaken]; exact hrxf_wf
    case bytes => rw [State.endedAs_rxf, htaken, hrxf]
    case packet =>
      rw [if_neg hsent]
      refine ⟨?countdown, hgrown, hrpkts, ?rsb_wf, fun a => ?rsb, e, he, congrArg (State.endedAs · e) (append_taken_frame hu)⟩
      case countdown =>
        rw [← toNat_infoParse_readPayload, ← hrcd]
        rfl
      case rsb_wf =>
        rw [State.endedAs_rsb, hu, State.append_rsb, State.taken_rsb]
        exact Memory.wf_storeSpan hm.rsb.1 _ _
      case rsb => rw [State.endedAs_rsb, State.endedAs_rslen, hgrown, byte_rsb_append_taken hm.rsb.1 hu]

end

end Sys2Proof.Machine
end

section
/-! A loss-free transfer (R158): each packet of a split, delivered as one read and pushed, is appended behind the packets
before it, so after `k` of them RSB holds the first `61 * k` bytes of the contents padded with zeros. -/

namespace Sys2Proof.Machine

/-- What the transfer of `c` begun at `s` has received at `t` after `k` packets. -/
structure State.Receiving (s : State) (c : Bytes) (k : Nat) (t : State) : Prop where
  ctrl : t.ctrl = s.ctrl
  linkup : t.linkup = true
  rcap : t.rcap = s.rcap
  rlencap : t.rlencap = s.rlencap
  lin_wf : t.lin.wf
  rsb_wf : t.rsb.wf
  rreads : t.rreads.toNat = k
  rpkts : t.rpkts.toNat = k
  rslen : t.rslen.toNat = min (61 * k) s.rlencap.toNat
  bytes : ∀ a < t.rslen.toNat, t.rsb.byte a = byteAt c a

/-- The transfer is active, with no cause to end it yet. -/
def State.goesOn (t : State) : Prop := t.phase = .active ∧ t.cause = .none

/-- The conditions of R158 on the contents and on the caps. -/
structure State.Admits (s : State) (c : Bytes) : Prop where
  rlencap_le : s.rlencap.toNat ≤ Config.bufcap
  length_le : c.length ≤ 3997696
  rcap : s.rcap = 0 ∨ ceilDiv c.length 61 ≤ s.rcap.toNat
  rlencap : 61 * (ceilDiv c.length 61 - 1) + 1 ≤ s.rlencap.toNat

section
variable {s t : State} {c : Bytes} {k : Nat} {mt : Byte}

theorem packet_count_le (h : c.length ≤ 3997696) : ceilDiv c.length 61 ≤ 65536 := (ceilDiv_le_iff (by decide)).2 h

/-- The countdown of packet `k` as the receiver parses it: its 16 bits hold it. -/
theorem toNat_infoParse_splitPacket (h : c.length ≤ 3997696) (mt : Byte) (hk : k < ceilDiv c.length 61) :
    (infoParse (splitPacket mt c k).payload).1.toNat = ceilDiv c.length 61 - 1 - k := by
  have hcount := packet_count_le h
  have hcountdown : (splitPacket mt c k).countdown = ceilDiv c.length 61 - 1 - k := rfl
  rw [InfoPacket.payload, infoParse_pad_infoPayload _ _ (length_splitPacket_chunk_le mt c k), hcountdown]
  exact (BitVec.toNat_ofNat ..).trans (Nat.mod_eq_of_lt (by omega))

/-- Byte `j` of the chunk of packet `k` as the receiver parses it. -/
theorem byteAt_splitPacket_payload (mt : Byte) (hk : k < ceilDiv c.length 61) {j : Nat} (hj : j < 61) :
    byteAt (splitPacket mt c k).payload (3 + j) = byteAt c (61 * k + j) := by
  rw [← byteAt_infoParse_chunk _ hj, infoParse_splitPacket_chunk mt c hk, byteAt_slice, if_pos (by omega), byteAt_pad]

/-- The row of R152's table for packet `k` of a loss-free transfer of `n` packets: TERMINAL at the last packet, else
none. -/
def packetEnd (n k : Nat) : TransferEnd :=
  if k + 1 = n then { phase := .ended, cause := .terminal, flags := 0, code := .ok, rdata := 0x12 }
  else { phase := .active, cause := .none, flags := 0, code := .ok, rdata := 0x01 }

theorem packetEnd_answer (n k : Nat) :
    (⟨(packetEnd n k).code, (packetEnd n k).rdata⟩ : Response) = ⟨.ok, if k + 1 = n then 0x12 else 0x01⟩ := by
  rw [packetEnd]
  split <;> rfl

theorem endByPacket_lossFree (ha : s.Admits c) (hk : k < ceilDiv c.length 61) :
    endByPacket (ceilDiv c.length 61 - 1 - k) (min (61 * (k + 1)) s.rlencap.toNat) s.rlencap.toNat s.rcap.toNat (k + 1) =
      packetEnd (ceilDiv c.length 61) k := by
  have hrlencap := ha.rlencap
  rw [packetEnd]
  unfold endByPacket
  by_cases hlast : k + 1 = ceilDiv c.length 61
  · rw [if_pos (by omega), if_pos hlast]
  · have hreads : ¬ (s.rcap.toNat ≠ 0 ∧ s.rcap.toNat ≤ k + 1) := by
      obtain hzero | hle := ha.rcap
      · exact fun h => h.1 (congrArg BitVec.toNat hzero)
      · omega
    rw [if_neg (by omega), if_neg hlast, if_neg (by omega), endByReads, if_neg hreads]

/-- Before packet `k`, RSLEN is below the length cap: only the last packet reaches it (R158). -/
theorem State.Receiving.rslen_eq (ht : s.Receiving c k t) (ha : s.Admits c) (hk : k < ceilDiv c.length 61) :
    t.rslen.toNat = 61 * k := by
  have hrlencap := ha.rlencap
  rw [ht.rslen]
  omega

/-- Delivering a read touches LIN, LINLEN and the responses only. -/
theorem State.Receiving.loadedLin (ht : s.Receiving c k t) (b : Bytes) : s.Receiving c k (t.loadedLin b) :=
  ⟨ht.ctrl, ht.linkup, ht.rcap, ht.rlencap, Memory.wf_storeSpan ht.lin_wf 0 b, ht.rsb_wf, ht.rreads, ht.rpkts, ht.rslen,
    ht.bytes⟩

/-- A read that holds packet `k`, counted, taken and appended, is packet `k` received (R154). -/
theorem State.Receiving.append (ha : s.Admits c) (ht : s.Receiving c k t) (hk : k < ceilDiv c.length 61)
    (hread : t.readPayload = (splitPacket mt c k).payload) {u : State} (hu : u = t.taken.append t.readPayload) :
    s.Receiving c (k + 1) u := by
  have hframe := append_taken_frame hu
  have hbefore := ht.rslen_eq ha hk
  have hlimit := ha.rlencap
  have hcap := ha.rlencap_le
  have hcount := packet_count_le ha.length_le
  have hkept : t.kept = min 61 (s.rlencap.toNat - 61 * k) := by rw [State.kept, State.room, ht.rlencap, hbefore]
  obtain ⟨hrreads, hrpkts, hrslen⟩ := counters_append_taken hu (by omega)
  have hrsb_wf : t.taken.rsb.wf := by rw [State.taken_rsb]; exact ht.rsb_wf
  have hpayload := length_splitPacket_payload mt c k
  rw [ht.rreads] at hrreads
  rw [ht.rpkts] at hrpkts
  rw [hbefore, hkept] at hrslen
  refine ⟨(congrArg State.ctrl hframe :).trans ht.ctrl, (congrArg State.linkup hframe :).trans ht.linkup,
    (congrArg State.rcap hframe :).trans ht.rcap, (congrArg State.rlencap hframe :).trans ht.rlencap,
    (congrArg State.lin hframe :) ▸ ht.lin_wf, ?rsb_wf, by omega, by omega, by omega, fun a hlt => ?bytes⟩
  case rsb_wf =>
    rw [hu, State.append_rsb]
    exact Memory.wf_storeSpan hrsb_wf _ _
  case bytes =>
    rw [hu, hread, byte_append_rsb hrsb_wf hpayload, rslen_taken, kept_taken, hbefore, hkept]
    by_cases hnew : 61 * k ≤ a
    · rw [if_pos ⟨hnew, by omega⟩, byteAt_splitPacket_payload mt hk (by omega), Nat.add_sub_cancel' hnew]
    · rw [if_neg (fun h => hnew h.1), State.taken_rsb]
      exact ht.bytes a (by omega)

theorem State.Receiving.endedAs (ht : s.Receiving c k t) (e : TransferEnd) : s.Receiving c k (t.endedAs e) :=
  ⟨ht.ctrl, ht.linkup, ht.rcap, ht.rlencap, ht.lin_wf, ht.rsb_wf, ht.rreads, ht.rpkts, ht.rslen, ht.bytes⟩

/-- Packet `k`, delivered and pushed, is received (R158). -/
theorem State.Receiving.pushOne (ha : s.Admits c) (ht : s.Receiving c k t) (hgo : t.goesOn)
    (hk : k < ceilDiv c.length 61) (hsent : ¬ Config.sent (splitPacket mt c k).payload = true) (plen rssi : Byte) :
    ∃ u rs, execAll (pushOne (linkRead s.ctrl plen rssi (splitPacket mt c k).payload)) t = .next u ∧
      s.Receiving c (k + 1) u ∧ u.rlast.toNat = ceilDiv c.length 61 - (k + 1) ∧
      u.responses = rs ++ [⟨.ok, if k + 1 = ceilDiv c.length 61 then 0x12 else 0x01⟩] ∧
      (k + 1 < ceilDiv c.length 61 → u.goesOn) := by
  have hpayload := length_splitPacket_payload mt c k
  rw [← ht.ctrl]
  obtain ⟨v, hv⟩ : ∃ v, v = t.loadedLin (linkRead t.ctrl plen rssi (splitPacket mt c k).payload) := ⟨_, rfl⟩
  obtain ⟨hle, hframe, hread, _⟩ := loadedLin_linkRead ht.lin_wf hpayload plen rssi hv
  have hvr : s.Receiving c k v := hv ▸ ht.loadedLin _
  obtain ⟨hphase, hcause⟩ : v.goesOn := hv ▸ hgo
  have hfit : v.rslen.toNat + v.kept ≤ Config.bufcap := by
    have hbefore := hvr.rslen_eq ha hk
    have hlimit := ha.rlencap
    have hcap := ha.rlencap_le
    exact kept_le (by omega) (by rw [hvr.rlencap]; exact hcap)
  obtain ⟨w, hw⟩ : ∃ w, w = v.taken.append v.readPayload := ⟨_, rfl⟩
  have hwr := hvr.append ha hk hread hw
  have hrcd : w.rcd.toNat = ceilDiv c.length 61 - 1 - k := by
    rw [hw, State.append_rcd, hread, toNat_infoParse_splitPacket ha.length_le mt hk]
  have hrlast : w.rlast = w.rcd := by rw [hw]; rfl
  have hexec := exec_rpsh_of_packet hphase hcause hvr.linkup hle hframe (by rwa [hread]) hfit hw
  rw [hrcd, hwr.rslen, hvr.rlencap, hvr.rcap, hwr.rreads, endByPacket_lossFree ha hk] at hexec
  refine ⟨w.endedAs (packetEnd (ceilDiv c.length 61) k), w.responses, ?run, hwr.endedAs _, ?last, ?answer,
    fun hmore => ?goesOn⟩
  case run =>
    rw [Machine.pushOne, execAll_ldlin (length_linkRead_le hpayload ..), ← hv]
    exact execAll_of_exec hexec []
  case last =>
    refine (congrArg BitVec.toNat hrlast).trans ?_
    omega
  case answer =>
    rw [← packetEnd_answer]
    rfl
  case goesOn =>
    rw [packetEnd, if_neg (by omega)]
    exact ⟨rfl, rfl⟩

/-- The commands that deliver and push the first `k` packets of the split of `c`. -/
def pushes (ctrl : BitVec 1) (mt : Byte) (c : Bytes) (env : InfoPacket → Byte × Byte) (k : Nat) : List Instr :=
  ((List.range k).map (splitPacket mt c)).flatMap fun p => pushOne (linkRead ctrl (env p).1 (env p).2 p.payload)

theorem pushes_succ (ctrl : BitVec 1) (mt : Byte) (c : Bytes) (env : InfoPacket → Byte × Byte) (k : Nat) :
    pushes ctrl mt c env (k + 1) = pushes ctrl mt c env k ++
      pushOne (linkRead ctrl (env (splitPacket mt c k)).1 (env (splitPacket mt c k)).2 (splitPacket mt c k).payload) := by
  simp only [pushes, List.range_succ, List.map_append, List.flatMap_append, List.map_singleton, List.flatMap_singleton]

theorem take_split (mt : Byte) {j : Nat} (hj : j ≤ ceilDiv c.length 61) :
    (split mt c).take j = (List.range j).map (splitPacket mt c) := by
  rw [split, ← List.map_take, List.take_range, Nat.min_eq_left hj]

theorem receiving_zero (hmem : MemoryInv s) (hlink : s.linkup = true) :
    s.Receiving c 0 (s.beginTransfer.answer .ok 0) :=
  ⟨rfl, hlink, rfl, rfl, hmem.lin.1, hmem.rsb.1, rfl, rfl, (Nat.zero_min _).symm, fun a h => absurd h (Nat.not_lt_zero a)⟩

/-- While packets are left to come, the transfer goes on. -/
theorem exec_pushes (ha : s.Admits c) (hmem : MemoryInv s) (hlink : s.linkup = true) (env : InfoPacket → Byte × Byte)
    (hk : k < ceilDiv c.length 61) (hsent : ∀ i < k, ¬ Config.sent (splitPacket mt c i).payload = true) :
    ∃ t, execAll (.rbeg :: pushes s.ctrl mt c env k) s = .next t ∧ s.Receiving c k t ∧ t.goesOn := by
  induction k with
  | zero => exact ⟨_, rfl, receiving_zero hmem hlink, rfl, rfl⟩
  | succ k ih =>
    obtain ⟨t, hrun, ht, hgo⟩ := ih (by omega) fun i hi => hsent i (by omega)
    obtain ⟨u, _, hpush, hu, _, _, hgoes⟩ := ht.pushOne ha hgo (by omega) (hsent k (by omega))
      (env (splitPacket mt c k)).1 (env (splitPacket mt c k)).2
    refine ⟨u, ?_, hu, hgoes hk⟩
    rw [pushes_succ, ← List.cons_append, execAll_append _ _ _ _ hrun, hpush]

/-- What is received is the contents, padded with zeros to whole chunks and cut at the length cap. -/
theorem State.Receiving.span_eq (ht : s.Receiving c k t) (hk : k ≤ ceilDiv c.length 61) :
    t.rsb.span 0 t.rslen.toNat = (c ++ zeros (61 * ceilDiv c.length 61 - c.length)).take (min (61 * k) s.rlencap.toNat) := by
  have hlength : c.length ≤ ceilDiv c.length 61 * 61 := (ceilDiv_le_iff (by decide)).1 (Nat.le_refl _)
  have hrslen := ht.rslen
  refine ext_byteAt ?length fun a hlt => ?byte
  case length =>
    rw [Memory.length_span, List.length_take, List.length_append, length_zeros]
    omega
  case byte =>
    rw [Memory.length_span] at hlt
    rw [Memory.byteAt_span, if_pos hlt, Nat.zero_add, ht.bytes a hlt, byteAt_take, if_pos (by omega), byteAt_append]
    split
    · rfl
    · rw [byteAt_zeros, byteAt_of_length_le (by omega)]

end

/-- Settles O49: of the first `j` packets, all but the last leave the transfer going on, and the last answers. -/
theorem lossFreeTransferReassembles : Obligations.LossFreeTransferReassembles := by
  unfold Obligations.LossFreeTransferReassembles
  intro mt c env j s hmem hlink hbufcap hlength hrcap hrlencap hpos hj
  have ha : s.Admits c := ⟨hbufcap, hlength, hrcap, hrlencap⟩
  rw [take_split mt hj]
  by_cases hsent : ∃ p ∈ (List.range j).map (splitPacket mt c), Config.sent p.payload = true
  · exact .inl hsent
  · have hplain : ∀ i < j, ¬ Config.sent (splitPacket mt c i).payload = true := fun i hi h =>
      hsent ⟨_, List.mem_map_of_mem (List.mem_range.2 hi), h⟩
    obtain ⟨k, rfl⟩ := Nat.exists_eq_succ_of_ne_zero (Nat.one_le_iff_ne_zero.1 hpos)
    obtain ⟨t, hrun, ht, hgo⟩ := exec_pushes ha hmem hlink env hj fun i hi => hplain i (by omega)
    obtain ⟨u, rs, hpush, hu, hlast, hanswer, _⟩ := ht.pushOne ha hgo hj (hplain k (by omega))
      (env (splitPacket mt c k)).1 (env (splitPacket mt c k)).2
    refine .inr ⟨u, rs, ?_, hanswer, hu.rreads, hu.rpkts, hlast, hu.rslen, hu.span_eq hj⟩
    change execAll (.rbeg :: pushes s.ctrl mt c env (k + 1)) s = _
    rw [pushes_succ, ← List.cons_append, execAll_append _ _ _ _ hrun, hpush]

end Sys2Proof.Machine
end

section
/-! What an operation does not read does not change what it does: performing it after a change of the state it is blind to
is performing it before. So the operations of the two flows change places (R190), and presented commands run as the
operations they encode (R13). -/

namespace Sys2Proof.Machine

/-- Apply a change of the state to the state an operation leaves. -/
def mapNext (f : State → State) : Result → Result
  | .next t => .next (f t)
  | .fault r => .fault r
  | .refused r => .refused r

theorem mapNext_eq_next {f : State → State} {r : Result} {t : State} (h : mapNext f r = .next t) :
    ∃ u, r = .next u ∧ t = f u := by
  cases r with
  | next u => exact ⟨u, rfl, next_inj h⟩
  | fault => cases h
  | refused => cases h

/-- A change of the state that every operation's responses, flags and link tests are blind to. -/
structure Blind (f : State → State) : Prop where
  linkup : ∀ s, (f s).linkup = s.linkup
  answer : ∀ s c d, (f s).answer c d = f (s.answer c d)
  setFlag : ∀ s x, (f s).setFlag x = f (s.setFlag x)

/-- A change of the state that the outbound flow is blind to: what the flow reads stays, and what it writes may as well
be written before the change. -/
structure OutboundBlind (f : State → State) : Prop extends Blind f where
  src : ∀ s, (f s).src = s.src
  srclen : ∀ s, (f s).srclen = s.srclen
  taddr : ∀ s, (f s).taddr = s.taddr
  tcd : ∀ s, (f s).tcd = s.tcd
  txfv : ∀ s, (f s).txfv = s.txfv
  frame : ∀ s, (f s).txFrameRecord = s.txFrameRecord
  splitPosition : ∀ s, ((f s).sn, (f s).sk, (f s).slen) = (s.sn, s.sk, s.slen)
  loadTx : ∀ s ch raw, (f s).loadTx ch raw = f (s.loadTx ch raw)
  linkWrites : ∀ s ws, (f s).linkWrites ws = f (s.linkWrites ws)
  beginSplit : ∀ s mt, (f s).beginSplit mt = f (s.beginSplit mt)
  produce : ∀ s ch chunk, (f s).produce ch chunk = f (s.produce ch chunk)

/-- A frame taken into RXF with its envelope, if it has one: what `State.acceptFrame` does but for `RXX` (R107). -/
def State.receiveFrame (s : State) (raw : Bytes) (e : Option (Byte × Byte)) : State :=
  { s with rxf := s.rxf.storeSpan 0 raw, rxfv := true, rplen := (e.map Prod.fst).getD s.rplen,
           rrssi := (e.map Prod.snd).getD s.rrssi }

theorem acceptFrame_eq_receiveFrame (s : State) (d : Deframed) :
    s.acceptFrame d =
      if d.excess then (s.receiveFrame d.frame.raw d.envelope).setFlag .rxx
      else s.receiveFrame d.frame.raw d.envelope := by
  obtain ⟨frame, excess, envelope⟩ := d
  cases envelope with
  | none => rfl
  | some e => rfl

/-- A change of the state that the inbound flow is blind to. -/
structure InboundBlind (f : State → State) : Prop extends Blind f where
  env : ∀ s, (f s).env = s.env
  rxch : ∀ s, (f s).rxch = s.rxch
  linlen : ∀ s, (f s).linlen = s.linlen
  lin : ∀ s, (f s).lin = s.lin
  rxfv : ∀ s, (f s).rxfv = s.rxfv
  rxFrame : ∀ s, (f s).rxFrame = s.rxFrame
  phase : ∀ s, (f s).phase = s.phase
  rstate : ∀ s, (f s).rstate = s.rstate
  rcap : ∀ s, (f s).rcap = s.rcap
  rlencap : ∀ s, (f s).rlencap = s.rlencap
  rslen : ∀ s, (f s).rslen = s.rslen
  rreads : ∀ s, (f s).rreads = s.rreads
  receiveFrame : ∀ s raw e, (f s).receiveFrame raw e = f (s.receiveFrame raw e)
  takeHeader : ∀ s p, (f s).takeHeader p = f (s.takeHeader p)
  takeInfo : ∀ s p, (f s).takeInfo p = f (s.takeInfo p)
  beginTransfer : ∀ s, (f s).beginTransfer = f s.beginTransfer
  countRead : ∀ s, (f s).countRead = f s.countRead
  append : ∀ s p, (f s).append p = f (s.append p)
  endTransfer : ∀ s c, (f s).endTransfer c = f (s.endTransfer c)

section
variable {f : State → State}

theorem Blind.respond (hf : Blind f) (c : Code) (d : Word) (s : State) : respond c d (f s) = mapNext f (respond c d s) :=
  congrArg Host.Outcome.next (hf.answer s c d)

theorem Blind.raise (hf : Blind f) (c : Code) (d : Word) (s : State) : raise c d (f s) = mapNext f (raise c d s) := by
  have hflag : (f s).flagCode c = f (s.flagCode c) := by
    unfold State.flagCode
    cases c.flag with
    | none => rfl
    | some x => exact hf.setFlag s x
  rw [Machine.raise, hflag, hf.respond, ← Machine.raise]

theorem Blind.refuse (hf : Blind f) (c : Code) (s : State) : refuse c (f s) = mapNext f (refuse c s) := hf.raise c 0 s

/-! ### The outbound flow -/

theorem OutboundBlind.encodePayload (hf : OutboundBlind f) (ch : BitVec 4) (p : Bytes) (s : State) :
    encodePayload ch p (f s) = mapNext f (encodePayload ch p s) := by
  unfold Machine.encodePayload
  cases frameEncode ch p with
  | none => exact hf.raise ..
  | some x =>
    dsimp only
    rw [hf.loadTx, hf.respond]

theorem OutboundBlind.srcSpan (hf : OutboundBlind f) (s : State) (a n : Nat) : (f s).srcSpan a n = s.srcSpan a n := by
  rw [State.srcSpan, hf.src, ← State.srcSpan]

/-- What a split reads of its position: whether it is active, the next countdown and the next slice (R143). -/
theorem OutboundBlind.position (hf : OutboundBlind f) (s : State) :
    (f s).splitActive = s.splitActive ∧ (f s).nextCountdown = s.nextCountdown ∧ (f s).sliceLo = s.sliceLo ∧
      (f s).sliceHi = s.sliceHi := by
  obtain ⟨hsn, hsk, hslen⟩ : (f s).sn = s.sn ∧ (f s).sk = s.sk ∧ (f s).slen = s.slen := by
    simpa using hf.splitPosition s
  simp only [State.splitActive, State.nextCountdown, State.sliceLo, State.sliceHi, hsn, hsk, hslen, and_self]

theorem OutboundBlind.execSnxt (hf : OutboundBlind f) (ch : BitVec 4) (s : State) :
    execSnxt ch (f s) = mapNext f (execSnxt ch s) := by
  obtain ⟨hactive, hcountdown, hlo, hhi⟩ := hf.position s
  unfold Machine.execSnxt
  rw [hactive, hcountdown, hlo, hhi, hf.srcSpan]
  split
  · exact hf.refuse ..
  · cases s.srcSpan s.sliceLo (s.sliceHi - s.sliceLo) with
    | none => rfl
    | some chunk =>
      dsimp only
      rw [hf.produce, hf.respond]

theorem OutboundBlind.execFtx (hf : OutboundBlind f) (s : State) : execFtx (f s) = mapNext f (execFtx s) := by
  unfold Machine.execFtx
  rw [hf.txfv, hf.linkup, hf.frame]
  split
  · exact hf.refuse ..
  · split
    · exact hf.raise ..
    · rw [hf.linkWrites, hf.respond]

/-- An operation of the outbound flow is performed alike before and after a change it is blind to. -/
theorem OutboundBlind.exec (hf : OutboundBlind f) {i : Instr} (hi : outboundOp i = true) (s : State) :
    exec i (f s) = mapNext f (exec i s) := by
  cases i with
  | fenc ch =>
    simp only [Machine.exec, execFenc, hf.srcSpan, hf.srclen]
    cases s.srcSpan 0 s.srclen.toNat with
    | none => rfl
    | some p => exact hf.encodePayload ..
  | henc ch mt =>
    simp only [Machine.exec, execHenc, hf.srcSpan, hf.srclen, hf.taddr]
    cases s.srcSpan 0 s.srclen.toNat with
    | none => rfl
    | some body => exact hf.encodePayload ..
  | ienc ch mt =>
    simp only [Machine.exec, execIenc, hf.srcSpan, hf.srclen, hf.tcd]
    cases s.srcSpan 0 s.srclen.toNat with
    | none => rfl
    | some chunk => exact hf.encodePayload ..
  | ftx => exact hf.execFtx s
  | sbeg mt =>
    have hsn : (f (s.beginSplit mt)).sn = (s.beginSplit mt).sn := congrArg (·.1) (hf.splitPosition _)
    simp only [Machine.exec, execSbeg, hf.beginSplit, hsn, hf.respond]
  | snxt ch => exact hf.execSnxt ch s
  | nop | csrr | csrw | ldb | stb | srst | fdec | hdec | idec | rbeg | rpsh => exact absurd hi Bool.false_ne_true

/-! ### The inbound flow -/

theorem InboundBlind.linRead (hf : InboundBlind f) (s : State) : (f s).linRead = s.linRead := by
  rw [State.linRead, hf.lin, hf.linlen, ← State.linRead]

theorem InboundBlind.kept (hf : InboundBlind f) (s : State) : (f s).kept = s.kept := by
  rw [State.kept, State.room, hf.rlencap, hf.rslen, ← State.room, ← State.kept]

theorem InboundBlind.acceptFrame (hf : InboundBlind f) (s : State) (d : Deframed) :
    (f s).acceptFrame d = f (s.acceptFrame d) := by
  rw [acceptFrame_eq_receiveFrame, acceptFrame_eq_receiveFrame, hf.receiveFrame, hf.setFlag]
  split <;> rfl

theorem InboundBlind.execFdec (hf : InboundBlind f) (s : State) : execFdec (f s) = mapNext f (execFdec s) := by
  unfold Machine.execFdec
  rw [hf.linkup, hf.linRead, hf.env, hf.rxch, hf.linlen]
  split
  · exact hf.raise ..
  · cases s.linRead with
    | none => rfl
    | some b =>
      dsimp only
      cases deframe s.env s.rxch b with
      | error e =>
        cases e with
        | frameTooShort => exact hf.raise ..
        | badMarker => exact hf.raise ..
      | ok d =>
        dsimp only
        rw [hf.acceptFrame, hf.respond]

theorem InboundBlind.stopTransfer (hf : InboundBlind f) (c : Cause) (s : State) :
    stopTransfer c (f s) = mapNext f (stopTransfer c s) := by
  rw [Machine.stopTransfer, hf.endTransfer, hf.rstate, hf.respond, ← Machine.stopTransfer]

theorem InboundBlind.capTransfer (hf : InboundBlind f) (c : Cause) (s : State) :
    capTransfer c (f s) = mapNext f (capTransfer c s) := by
  rw [Machine.capTransfer, hf.endTransfer, hf.rstate, hf.raise, ← Machine.capTransfer]

theorem InboundBlind.testReadCap (hf : InboundBlind f) (s : State) : testReadCap (f s) = mapNext f (testReadCap s) := by
  unfold Machine.testReadCap
  rw [hf.rcap, hf.rreads, hf.rstate]
  split
  · exact hf.capTransfer ..
  · exact hf.respond ..

theorem InboundBlind.pushPacket (hf : InboundBlind f) (p : Bytes) (s : State) :
    pushPacket p (f s) = mapNext f (pushPacket p s) := by
  unfold Machine.pushPacket
  rw [hf.append, hf.rslen, hf.rslen, hf.rlencap, hf.kept]
  split
  · rfl
  · split
    · exact hf.stopTransfer ..
    · split
      · exact hf.capTransfer ..
      · exact hf.testReadCap _

theorem InboundBlind.pushRead (hf : InboundBlind f) (b : Bytes) (s : State) :
    pushRead b (f s) = mapNext f (pushRead b s) := by
  unfold Machine.pushRead
  rw [hf.env, hf.rxch]
  cases deframe s.env s.rxch b with
  | error e =>
    cases e with
    | frameTooShort =>
      dsimp only
      rw [hf.setFlag, hf.stopTransfer]
    | badMarker =>
      dsimp only
      rw [hf.setFlag, hf.testReadCap]
  | ok d =>
    dsimp only
    rw [hf.acceptFrame]
    split
    · exact hf.stopTransfer ..
    · exact hf.pushPacket ..

theorem InboundBlind.execRpsh (hf : InboundBlind f) (s : State) : execRpsh (f s) = mapNext f (execRpsh s) := by
  unfold Machine.execRpsh
  rw [hf.phase, hf.linkup, hf.linRead, hf.countRead]
  split
  · exact hf.refuse ..
  · split
    · exact hf.raise ..
    · cases s.linRead with
      | none => rfl
      | some b => exact hf.pushRead ..

/-- An operation of the inbound flow is performed alike before and after a change it is blind to. -/
theorem InboundBlind.exec (hf : InboundBlind f) {i : Instr} (hi : inboundOp i = true) (s : State) :
    exec i (f s) = mapNext f (exec i s) := by
  cases i with
  | fdec => exact hf.execFdec s
  | hdec =>
    simp only [Machine.exec, execHdec, hf.rxfv, hf.rxFrame, hf.takeHeader]
    split
    · exact hf.refuse ..
    · exact hf.respond ..
  | idec =>
    simp only [Machine.exec, execIdec, hf.rxfv, hf.rxFrame, hf.takeInfo]
    split
    · exact hf.refuse ..
    · exact hf.respond ..
  | rbeg => simp only [Machine.exec, execRbeg, hf.beginTransfer, hf.respond]
  | rpsh => exact hf.execRpsh s
  | nop | csrr | csrw | ldb | stb | srst | fenc | ftx | henc | ienc | sbeg | snxt => exact absurd hi Bool.false_ne_true

end

/-! ### Changes both flows are blind to -/

/-- The state behind another interface: other inputs presented, other responses returned before its own. -/
def State.behind (s : State) (rs : List Response) (q : List Input → List Input) : State :=
  { s with inputs := q s.inputs, responses := rs ++ s.responses }

theorem answer_behind (s : State) (rs : List Response) (q : List Input → List Input) (c : Code) (d : Word) :
    (s.behind rs q).answer c d = (s.answer c d).behind rs q := by
  simp only [State.answer, State.behind, List.append_assoc]

theorem outboundBlind_behind (rs : List Response) (q : List Input → List Input) : OutboundBlind (·.behind rs q) where
  linkup _ := rfl
  answer s := answer_behind s rs q
  setFlag _ _ := rfl
  src _ := rfl
  srclen _ := rfl
  taddr _ := rfl
  tcd _ := rfl
  txfv _ := rfl
  frame _ := rfl
  splitPosition _ := rfl
  loadTx _ _ _ := rfl
  linkWrites _ _ := rfl
  beginSplit _ _ := rfl
  produce _ _ _ := rfl

theorem inboundBlind_behind (rs : List Response) (q : List Input → List Input) : InboundBlind (·.behind rs q) where
  linkup _ := rfl
  answer s := answer_behind s rs q
  setFlag _ _ := rfl
  env _ := rfl
  rxch _ := rfl
  linlen _ := rfl
  lin _ := rfl
  rxfv _ := rfl
  rxFrame _ := rfl
  phase _ := rfl
  rstate _ := rfl
  rcap _ := rfl
  rlencap _ := rfl
  rslen _ := rfl
  rreads _ := rfl
  receiveFrame _ _ _ := rfl
  takeHeader _ _ := rfl
  takeInfo _ _ := rfl
  beginTransfer _ := rfl
  countRead _ := rfl
  append _ _ := rfl
  endTransfer _ _ := rfl

/-! ### The flows are blind to each other -/

/-- `s` with the fields the inbound flow writes as `w` has them, and `w`'s flags set. -/
def State.withInbound (s w : State) : State :=
  { s with raddr := w.raddr, rmt := w.rmt, rcd := w.rcd, rplen := w.rplen, rrssi := w.rrssi, rslen := w.rslen,
           rreads := w.rreads, rpkts := w.rpkts, rlast := w.rlast, phase := w.phase, cause := w.cause, rxfv := w.rxfv,
           rsb := w.rsb, rxf := w.rxf, sticky := s.sticky ||| w.sticky }

/-- `s` with the fields the outbound flow writes as `w` has them, and `w`'s flags set. -/
def State.withOutbound (s w : State) : State :=
  { s with txch := w.txch, sn := w.sn, sk := w.sk, smt := w.smt, slen := w.slen, txfv := w.txfv, txf := w.txf,
           lout := w.lout, sticky := s.sticky ||| w.sticky }

theorem setFlag_withInbound (s w : State) (x : Flag) : (s.withInbound w).setFlag x = (s.setFlag x).withInbound w := by
  simp only [State.setFlag, State.withInbound, BitVec.or_assoc, BitVec.or_comm w.sticky]

theorem setFlag_withOutbound (s w : State) (x : Flag) :
    (s.withOutbound w).setFlag x = (s.setFlag x).withOutbound w := by
  simp only [State.setFlag, State.withOutbound, BitVec.or_assoc, BitVec.or_comm w.sticky]

theorem outboundBlind_withInbound (w : State) : OutboundBlind (·.withInbound w) where
  linkup _ := rfl
  answer _ _ _ := rfl
  setFlag s := setFlag_withInbound s w
  src _ := rfl
  srclen _ := rfl
  taddr _ := rfl
  tcd _ := rfl
  txfv _ := rfl
  frame _ := rfl
  splitPosition _ := rfl
  loadTx _ _ _ := rfl
  linkWrites _ _ := rfl
  beginSplit _ _ := rfl
  produce _ _ _ := rfl

theorem inboundBlind_withOutbound (w : State) : InboundBlind (·.withOutbound w) where
  linkup _ := rfl
  answer _ _ _ := rfl
  setFlag s := setFlag_withOutbound s w
  env _ := rfl
  rxch _ := rfl
  linlen _ := rfl
  lin _ := rfl
  rxfv _ := rfl
  rxFrame _ := rfl
  phase _ := rfl
  rstate _ := rfl
  rcap _ := rfl
  rlencap _ := rfl
  rslen _ := rfl
  rreads _ := rfl
  receiveFrame _ _ _ := rfl
  takeHeader _ _ := rfl
  takeInfo _ _ := rfl
  beginTransfer _ := rfl
  countRead _ := rfl
  append _ _ := rfl
  endTransfer _ _ := rfl

section
variable {s t u : State} {i : Instr} {c : Code} {d : Word}

theorem State.FlagsKept.or_eq (h : s.FlagsKept t) : s.sticky ||| t.sticky = t.sticky := by
  refine BitVec.eq_of_getLsbD_eq fun k _ => ?_
  rw [BitVec.getLsbD_or]
  cases hk : s.sticky.getLsbD k with
  | false => exact Bool.false_or _
  | true => rw [h k hk, Bool.true_or]

theorem inboundOp_host (hi : inboundOp i = true) : i ≠ .srst ∧ ∀ v, i ≠ .csrw 0x01 v :=
  ⟨by rintro rfl; exact Bool.false_ne_true hi, by rintro v rfl; exact Bool.false_ne_true hi⟩

theorem outboundOp_host (ho : outboundOp i = true) : i ≠ .srst ∧ ∀ v, i ≠ .csrw 0x01 v :=
  ⟨by rintro rfl; exact Bool.false_ne_true ho, by rintro v rfl; exact Bool.false_ne_true ho⟩

/-- A counted read is inbound: it writes nothing but fields of the inbound flow. -/
theorem Pushed.inbound_frame (hu : Pushed s u) :
    u = { s with raddr := u.raddr, rmt := u.rmt, rcd := u.rcd, rplen := u.rplen, rrssi := u.rrssi, rslen := u.rslen,
                 rreads := u.rreads, rpkts := u.rpkts, rlast := u.rlast, phase := u.phase, cause := u.cause,
                 rxfv := u.rxfv, rsb := u.rsb, rxf := u.rxf, sticky := u.sticky } := by
  cases hu with
  | discarded f => rfl
  | taken => rw [taken_eq]
  | appended => rw [taken_eq, append_frame]

theorem not_inboundOp_of_encodesPayload (hi : encodesPayload i = true) : inboundOp i = false := by
  obtain ⟨ch, rfl⟩ | ⟨ch, mt, rfl⟩ | ⟨ch, mt, rfl⟩ := encodesPayload_cases hi
  · rfl
  · rfl
  · rfl

/-- What the inbound flow writes (R62, R190). -/
theorem Effect.withInbound (hi : inboundOp i = true) (he : Effect s i u c d) : u = s.withInbound u := by
  rw [State.withInbound, (he.flagsKept (inboundOp_host hi).1 (inboundOp_host hi).2).or_eq]
  cases he with
  | refused | reported | unchanged | headerParsed | infoParsed | transferBegun => rfl
  | frameTaken => rw [acceptFrame_frame]
  | @transferStopped _ e _ _ _ hu => exact (congrArg (State.endTransfer · e) hu.inbound_frame :)
  | @transferCapped _ e _ _ _ hu => exact (congrArg (fun v => (State.endTransfer v e).setFlag .ict) hu.inbound_frame :)
  | transferContinued _ _ hu => exact hu.inbound_frame
  | encoded _ _ hencodes => exact absurd ((not_inboundOp_of_encodesPayload hencodes).symm.trans hi) Bool.false_ne_true
  | cleared | written | stored | blockReset | transmitted | splitBegun | packetProduced =>
    exact absurd hi Bool.false_ne_true

/-- What the outbound flow writes (R62, R190). -/
theorem Effect.withOutbound (ho : outboundOp i = true) (he : Effect s i u c d) : u = s.withOutbound u := by
  rw [State.withOutbound, (he.flagsKept (outboundOp_host ho).1 (outboundOp_host ho).2).or_eq]
  cases he with
  | refused | reported | unchanged | encoded | transmitted | splitBegun | packetProduced => rfl
  | cleared | written | stored | blockReset | frameTaken | headerParsed | infoParsed | transferBegun | transferStopped
  | transferCapped | transferContinued => exact absurd ho Bool.false_ne_true

/-- A state as one that has returned nothing, behind the responses it has returned. -/
theorem eq_behind_responses (s : State) : ∃ s₀ : State, s₀.responses = [] ∧ s = s₀.behind s.responses id := by
  refine ⟨{ s with responses := [] }, rfl, ?_⟩
  rw [State.behind, List.append_nil]
  rfl

/-- An operation at a state that has returned nothing returns its response alone. -/
theorem Effect.answer_eq_behind (hs : s.responses = []) (he : Effect s i u c d) :
    u.answer c d = u.behind [⟨c, d⟩] id := by
  rw [State.answer, State.behind, he.responses_eq.trans hs]
  rfl

/-- The two orders of writing the fields of both flows agree: the fields are disjoint, and flags add up. -/
theorem withInbound_eq_withOutbound {v w : State} (hv : v = s.withOutbound v) (hw : w = s.withInbound w) :
    v.withInbound w = w.withOutbound v := by
  calc v.withInbound w
    _ = { (s.withOutbound v).withInbound w with sticky := v.sticky ||| w.sticky } := by rw [← hv]; rfl
    _ = { (s.withInbound w).withOutbound v with sticky := w.sticky ||| v.sticky } := by rw [BitVec.or_comm]; rfl
    _ = w.withOutbound v := by rw [← hw]; rfl

/-- An operation of the outbound flow behind a change of the inbound flow and behind other responses. -/
theorem exec_outbound_behind (ho : outboundOp i = true) (w : State) (r : Response) (rs : List Response) :
    exec i (((s.withInbound w).behind [r] id).behind rs id) =
      mapNext (fun v => ((v.withInbound w).behind [r] id).behind rs id) (exec i s) := by
  have h := (outboundBlind_behind rs id).exec ho ((s.withInbound w).behind [r] id)
  rw [(outboundBlind_behind [r] id).exec ho, (outboundBlind_withInbound w).exec ho] at h
  rw [h]
  cases exec i s <;> rfl

/-- An operation of the inbound flow behind a change of the outbound flow and behind other responses. -/
theorem exec_inbound_behind (hi : inboundOp i = true) (w : State) (r : Response) (rs : List Response) :
    exec i (((s.withOutbound w).behind [r] id).behind rs id) =
      mapNext (fun v => ((v.withOutbound w).behind [r] id).behind rs id) (exec i s) := by
  have h := (inboundBlind_behind rs id).exec hi ((s.withOutbound w).behind [r] id)
  rw [(inboundBlind_behind [r] id).exec hi, (inboundBlind_withOutbound w).exec hi] at h
  rw [h]
  cases exec i s <;> rfl

/-- The two flows from a state that has returned nothing, behind earlier responses: the outbound operation is performed
alike before and after the inbound one, and the other way round. -/
theorem flows_commute_behind {o : Instr} (hi : inboundOp i = true) (ho : outboundOp o = true) (hs : s.responses = [])
    (rs : List Response) (hinbound : exec i (s.behind rs id) = .next t) (houtbound : exec o t = .next u) :
    ∃ t' u' ri ro, exec o (s.behind rs id) = .next t' ∧ exec i t' = .next u' ∧ u.responses = rs ++ [ri, ro] ∧
      u'.responses = rs ++ [ro, ri] ∧ { u' with responses := u.responses } = u := by
  rw [(inboundBlind_behind rs id).exec hi] at hinbound
  obtain ⟨_, hexecIn, rfl⟩ := mapNext_eq_next hinbound
  obtain ⟨w, ci, di, hw, rfl⟩ := exec_effect hexecIn
  have hw_in := hw.withInbound hi
  rw [hw.answer_eq_behind hs, hw_in, exec_outbound_behind ho] at houtbound
  obtain ⟨_, hexecOut, rfl⟩ := mapNext_eq_next houtbound
  obtain ⟨v, co, dout, hv, rfl⟩ := exec_effect hexecOut
  have hv_out := hv.withOutbound ho
  refine ⟨(v.answer co dout).behind rs id, (((w.answer ci di).withOutbound v).behind [⟨co, dout⟩] id).behind rs id,
    ⟨ci, di⟩, ⟨co, dout⟩, ?outbound, ?inbound, ?responses, ?responses', ?state⟩
  case outbound =>
    rw [(outboundBlind_behind rs id).exec ho, hexecOut]
    rfl
  case inbound =>
    rw [hv.answer_eq_behind hs]
    conv_lhs => rw [hv_out]
    rw [exec_inbound_behind hi, hexecIn]
    rfl
  case responses => simp [State.behind, State.withInbound, State.answer, hv.responses_eq, hs]
  case responses' => simp [State.behind, State.withOutbound, State.answer, hw.responses_eq, hs]
  case state =>
    have hstate (q : List Response) :
        { w.withOutbound v with responses := q } = { v.withInbound w with responses := q } := by
      rw [withInbound_eq_withOutbound hv_out hw_in]
    exact hstate _

end

/-- Settles O56: each flow is blind to what the other writes, and to the responses returned before. -/
theorem flowsCommute : Obligations.FlowsCommute := by
  unfold Obligations.FlowsCommute
  intro i o s t u hi ho hinbound houtbound
  obtain ⟨s₀, hs₀, hs⟩ := eq_behind_responses s
  generalize s.responses = rs at *
  subst hs
  exact flows_commute_behind hi ho hs₀ rs hinbound houtbound

/-! ### Presented commands -/

section
variable (s : State) (rs : List Response) (q : List Input → List Input)

theorem blind_behind : Blind (·.behind rs q) := (outboundBlind_behind rs q).toBlind

theorem readReg_behind (r : Reg) : (s.behind rs q).readReg r = s.readReg r := by
  cases r <;> rfl

theorem writeReg_behind (r : Reg) (v : Word) : (s.behind rs q).writeReg r v = (s.writeReg r v).behind rs q := by
  cases r <;> rfl

theorem readByte_behind (sp : Space) (a : Nat) : (s.behind rs q).readByte sp a = s.readByte sp a := by
  cases sp <;> rfl

theorem hostStore_behind (sp : Space) (a : Nat) (b : Byte) :
    (s.behind rs q).hostStore sp a b = (s.hostStore sp a b).behind rs q := by
  cases sp <;> rfl

theorem execCsrr_behind (csr : BitVec 8) : execCsrr csr (s.behind rs q) = mapNext (·.behind rs q) (execCsrr csr s) := by
  unfold execCsrr
  cases regOf csr with
  | none => exact (blind_behind rs q).refuse ..
  | some r =>
    dsimp only
    rw [readReg_behind, (blind_behind rs q).respond]

theorem execCsrw_behind (csr : BitVec 8) (v : Word) :
    execCsrw csr v (s.behind rs q) = mapNext (·.behind rs q) (execCsrw csr v s) := by
  unfold execCsrw
  cases regOf csr with
  | none => exact (blind_behind rs q).refuse ..
  | some r =>
    dsimp only
    cases r.access with
    | w1c => exact (blind_behind rs q).respond .ok (s.clearFlags v).status (s.clearFlags v)
    | ro => exact (blind_behind rs q).refuse ..
    | rw =>
      dsimp only [writeLegal]
      rw [writeReg_behind]
      split
      · exact (blind_behind rs q).respond ..
      · exact (blind_behind rs q).refuse ..

theorem execLdb_behind (sp : Space) (addr : BitVec 22) :
    execLdb sp addr (s.behind rs q) = mapNext (·.behind rs q) (execLdb sp addr s) := by
  unfold execLdb
  rw [readByte_behind]
  split
  · exact (blind_behind rs q).respond ..
  · exact (blind_behind rs q).refuse ..

theorem execStb_behind (sp : Space) (addr : BitVec 22) (v : Word) :
    execStb sp addr v (s.behind rs q) = mapNext (·.behind rs q) (execStb sp addr v s) := by
  unfold execStb
  rw [hostStore_behind]
  split
  · exact (blind_behind rs q).refuse ..
  · split
    · exact (blind_behind rs q).refuse ..
    · split
      · exact (blind_behind rs q).refuse ..
      · exact (blind_behind rs q).respond ..

/-- No operation reads the commands presented after it or the responses returned before it. -/
theorem exec_behind (i : Instr) : exec i (s.behind rs q) = mapNext (·.behind rs q) (exec i s) := by
  cases i with
  | nop => exact (blind_behind rs q).respond ..
  | srst => exact (blind_behind rs q).respond .ok 0 s.resetBlock
  | csrr csr => exact execCsrr_behind s rs q csr
  | csrw csr v => exact execCsrw_behind s rs q csr v
  | ldb sp addr => exact execLdb_behind s rs q sp addr
  | stb sp addr v => exact execStb_behind s rs q sp addr v
  | fenc | ftx | henc | ienc | sbeg | snxt => exact (outboundBlind_behind rs q).exec rfl s
  | fdec | hdec | idec | rbeg | rpsh => exact (inboundBlind_behind rs q).exec rfl s

end

/-- The inputs that present the operations, encoded, with one `LINKUP` value. -/
def presented (up : Bool) (ops : List Instr) : List Input := ops.map fun i => .command up (encode i).1 (encode i).2

/-- A step at a presented operation is the operation, with the others still presented (R13). -/
theorem step_presented {s : State} {up : Bool} {i : Instr} {ops : List Instr} (hin : s.inputs = presented up (i :: ops)) :
    step s = mapNext (·.behind [] fun _ => presented up ops) (exec i (s.takeCommand up [])) :=
  (step_of_decode_ok hin (decodeEncodeAgree i)).trans (exec_behind (s.takeCommand up []) [] (fun _ => presented up ops) i)

theorem run_succ_of_next {M : Host.Core} {s t : M.State} (n : Nat) (h : M.step s = .next t) :
    M.run (n + 1) s = M.run n t := by
  rw [Host.Core.run, h]

theorem run_succ_of_fault {M : Host.Core} {s : M.State} {r : M.Fault} (n : Nat) (h : M.step s = .fault r) :
    M.run (n + 1) s = .fault r := by
  rw [Host.Core.run, h]

theorem run_succ_of_refused {M : Host.Core} {s : M.State} {r : M.Refusal} (n : Nat) (h : M.step s = .refused r) :
    M.run (n + 1) s = .refused r := by
  rw [Host.Core.run, h]

theorem takeCommand_self {s : State} {up : Bool} {q : List Input} (hlinkup : s.linkup = up) (hin : s.inputs = q) :
    s.takeCommand up q = s := by
  rw [← hlinkup, ← hin, State.takeCommand]

theorem run_presented (up : Bool) (ops : List Instr) (s : State) (hs : s.linkup = up ∨ ops ≠ [])
    (hin : s.inputs = presented up ops) :
    Sys2Proof.core.run ops.length s = execAll ops (s.takeCommand up []) := by
  induction ops generalizing s with
  | nil =>
    obtain hlinkup | hne := hs
    · exact congrArg Host.Outcome.next (takeCommand_self hlinkup hin).symm
    · exact absurd rfl hne
  | cons i ops ih =>
    have hstep := step_presented hin
    rw [execAll]
    cases hexec : exec i (s.takeCommand up []) with
    | fault r => exact run_succ_of_fault (M := Sys2Proof.core) _ (hstep.trans (congrArg _ hexec))
    | refused r => exact run_succ_of_refused (M := Sys2Proof.core) _ (hstep.trans (congrArg _ hexec))
    | next t =>
      obtain ⟨_, hinputs, hlinkup⟩ := oneResponsePerOperation i _ t hexec
      have hfirst := run_succ_of_next (M := Sys2Proof.core) ops.length (hstep.trans (congrArg _ hexec))
      have hrest := ih (t.behind [] fun _ => presented up ops) (.inl hlinkup) rfl
      exact hfirst.trans (hrest.trans (congrArg (execAll ops) (takeCommand_self hlinkup hinputs)))

/-- Settles O10: each step takes one command, and no operation reads the commands presented after it. -/
theorem presentedCommandsRun : Obligations.PresentedCommandsRun := by
  unfold Obligations.PresentedCommandsRun
  intro ops up s hne hin
  exact run_presented up ops s (.inr hne) hin

end Sys2Proof.Machine
end
